-- ==== Sys2Proof/Word.lean ====
section
/-! DEFINITION. The word types of GBCR-CORE (00_scope.md R5, R9): a datum is 8 bits, a bus address and a bank operand
16 bits, a payload length 32 bits. All values are unsigned (R8). -/

namespace Sys2Proof

/-- One data byte (`DATA_BITS` = 8, R5). -/
abbrev Byte := BitVec 8

/-- One address of the cartridge bus (`ADDR_BITS` = 16, R5). -/
abbrev Addr := BitVec 16

/-- A bank operand: 16 bits unsigned (R9); the formats of R111 say which of them reach the cartridge. -/
abbrev BankOperand := BitVec 16

/-- A payload length: 32 bits (R9). -/
abbrev Length := BitVec 32

end Sys2Proof
end

