-- ==== Sys2Proof/Config.lean ====
section
/-! DEFINITION. What an embedding of the block fixes (the parameters of 00_scope.md R6), the record types of the header
parser (45_header_parser.md R212, R219), the nine status codes, and the FREE VALUES: opaque constants with no body, for
everything the spec leaves open (93_implementation_defined.md, treatment "any value"). -/

namespace Sys2Proof

/-- The three variant modules of the CartridgeProtocol layer (R1). -/
inductive Variant where
  | mbc1 | mbc3 | mbc5
deriving DecidableEq, Repr

/-- The closed tagged-variant enumeration of cartridge families (R12, R219). -/
inductive Family where
  | mbc1 | mbc3 | mbc5 | romOnly | unsupported
deriving DecidableEq, Repr

/-- A bank count of the descriptor: a number of banks, or the explicit Error value (R212, R220, R221). -/
inductive BankCount where
  | banks (n : Nat)
  | error
deriving DecidableEq, Repr

/-- The CGB-support flag (R215). -/
inductive CgbFlag where
  | plain | compatible | exclusive
deriving DecidableEq, Repr

/-- The status codes of the response frame (30_encoding.md R106). `ok` is not an error (R281). -/
inductive Status where
  | ok
  | unknownCommand
  | invalidNumRomBanks
  | invalidNumRamBanks
  | invalidCartridgeType
  | invalidRamWriteSize
  | cartridgeHasNoRam
  | cartridgeHasNoRtc
  | invalidRtcWriteSize
deriving DecidableEq, Repr

/-- One row of `TYPE_TABLE` (R219). -/
structure TypeRow where
  code       : Byte
  label      : String
  family     : Family
  hasRam     : Bool
  hasBattery : Bool
  hasRtc     : Bool
deriving DecidableEq, Repr

/-- The descriptor `parse` returns (R212), its fields in the order of that rule. -/
structure Descriptor where
  entryPoint       : List Byte
  logoValid        : Bool
  title            : List Byte
  cgb              : CgbFlag
  manufacturer     : Option (List Byte)
  newLicensee      : Byte × Byte
  newLicenseeName  : String
  sgbFlag          : Byte
  cartType         : Byte
  typeLabel        : String
  family           : Family
  hasRam           : Bool
  hasBattery       : Bool
  hasRtc           : Bool
  romSizeCode      : Byte
  romBanks         : BankCount
  ramSizeCode      : Byte
  ramBanks         : BankCount
  destination      : Byte
  oldLicensee      : Byte
  oldLicenseeName  : String
  romVersion       : Byte
  headerChecksum   : Byte
  globalChecksum   : Byte × Byte
deriving DecidableEq, Repr

/-- `ASSERT_LEVEL(f)` for the five strobes (10_state.md R24): the pin level that asserts the line. -/
structure Levels where
  cs      : Bool
  rd      : Bool
  wr      : Bool
  doutOe  : Bool
  dinLoad : Bool
deriving DecidableEq, Repr

/-- `BSS_POS`: the bit of the packed signal word each of the 14 named fields has (R22). The two reserved bits are the two that
no field has (log 35). -/
structure Positions where
  addrSer   : Fin 16
  addrClk   : Fin 16
  addrLatch : Fin 16
  doutSer   : Fin 16
  doutClk   : Fin 16
  doutLatch : Fin 16
  doutOe    : Fin 16
  dinSer    : Fin 16
  dinClk    : Fin 16
  dinLatch  : Fin 16
  dinLoad   : Fin 16
  cs        : Fin 16
  rd        : Fin 16
  wr        : Fin 16
deriving DecidableEq, Repr

/-- `CMD_ID`: the selector byte of each of the six commands (00_scope.md R6, 30_encoding.md R108; log 25). -/
structure CommandIds where
  parseHeader : Byte
  readRom     : Byte
  readRam     : Byte
  writeRam    : Byte
  readRtc     : Byte
  writeRtc    : Byte
deriving DecidableEq, Repr

/-- The parameters of 00_scope.md R6 that are plain data. The licensee tables, `REPORT` and `REPORT_MAX`, for which the
spec gives no default, are free values below. -/
structure Params where
  levels      : Levels
  pos         : Positions
  tSettleNs   : Nat
  headerBase  : Addr
  m1Ramg      : Addr
  m1Bank1     : Addr
  m1Bank2     : Addr
  m1Mode      : Addr
  m3Ramg      : Addr
  m3Romb      : Addr
  m3Ramb      : Addr
  m3Latch     : Addr
  m5Ramg      : Addr
  m5Romb0     : Addr
  m5Romb1     : Addr
  m5Ramb      : Addr
  ramEnable   : Byte
  rtcBase     : Byte
  logo        : List Byte
  typeTable   : List TypeRow
  rumbleTypes : List Byte
  cmdId       : CommandIds
deriving DecidableEq, Repr

/-- Free value: what ASR holds after power-up (R50, U4; log 3). -/
opaque Config.powerUpAsr : BitVec 16
/-- Free value: what ALAT holds after power-up (R50, U4; log 3). -/
opaque Config.powerUpAlat : BitVec 16
/-- Free value: what DSR holds after power-up (R50, U4; log 3). -/
opaque Config.powerUpDsr : BitVec 8
/-- Free value: what DLAT holds after power-up (R50, U4; log 3). -/
opaque Config.powerUpDlat : BitVec 8
/-- Free value: what ISR holds after power-up (R50, U4; log 3). -/
opaque Config.powerUpIsr : BitVec 8
/-- Free value: what byte i of BankBuffer holds before anything is written to it (R50, U5; log 4). -/
opaque Config.powerUpBankBuffer : Nat → Byte
/-- Free value: what byte i of ReportBuf holds before anything is written to it (R50, U5; log 4). -/
opaque Config.powerUpReportBuf : Nat → Byte
/-- Free value, one for each draw: a floating or contended data bus, and the answer of an unconstrained cartridge or of
an address no device answers (R32, R70, U7, U9, U10; log 5). -/
opaque Config.freeByte : Nat → Byte
/-- Free value, one for each draw: the bit shifted into ISR at its low end (R31, U6; log 5). -/
opaque Config.freeBit : Nat → Bool
/-- Free value: the ROM byte at an index a reference cartridge's list does not name; the same at every read (20_memory.md
R89, R95; log 27). -/
opaque Config.cartridgeRom : Nat → Byte
/-- Free value: the RAM byte at an index a reference cartridge's list does not name; the same until it is written (R95,
R89; log 27). -/
opaque Config.cartridgeRam : Nat → Byte
/-- Free value: the publisher row of an old licensee code, absent where the table has none (R218; log 20). -/
opaque Config.oldLicensee : Byte → Option String
/-- Free value: the publisher row of a new licensee code, absent where the table has none (R217; log 20). -/
opaque Config.newLicensee : Byte → Byte → Option String
/-- Free value: the first byte of the report of a descriptor (R225: a report is not empty; log 20). -/
opaque Config.reportHead : Descriptor → Byte
/-- Free value: the bytes of the report after its first, before the cut at `REPORT_MAX` (R225; log 20). -/
opaque Config.reportTail : Descriptor → List Byte
/-- Free value: `REPORT_MAX` as a 32-bit number; 0 is read as 1 (R6, R225; log 20). -/
opaque Config.reportMaxWord : Length

end Sys2Proof
end

