-- ==== Sys2Proof/Machine/Defaults.lean ====
section
/-! DEFINITION. The default values of the parameters of 00_scope.md R6, as the spec prints them. All but the type rows
0x00, 0x01 and 0x13 and the settle target are marked there "[from general knowledge, not in source]" (log 2). -/

namespace Sys2Proof.Machine

/-- Default `ASSERT_LEVEL`: 0 (active low) for all five strobes (R24). -/
def defaultLevels : Levels := { cs := false, rd := false, wr := false, doutOe := false, dinLoad := false }

/-- Default `BSS_POS` (10_state.md R22). -/
def defaultPositions : Positions :=
  { addrSer := 0, addrClk := 1, addrLatch := 2, doutSer := 3, doutClk := 4, doutLatch := 5, doutOe := 6, dinSer := 7,
    dinClk := 8, dinLatch := 9, dinLoad := 10, cs := 11, rd := 12, wr := 13 }

/-- Default `LOGO`, in order from header offset 0x04 (45_header_parser.md R213). -/
def defaultLogo : List Byte :=
  [0xCE, 0xED, 0x66, 0x66, 0xCC, 0x0D, 0x00, 0x0B, 0x03, 0x73, 0x00, 0x83, 0x00, 0x0C, 0x00, 0x0D] ++
  [0x00, 0x08, 0x11, 0x1F, 0x88, 0x89, 0x00, 0x0E, 0xDC, 0xCC, 0x6E, 0xE6, 0xDD, 0xDD, 0xD9, 0x99] ++
  [0xBB, 0xBB, 0x67, 0x63, 0x6E, 0x0E, 0xEC, 0xCC, 0xDD, 0xDC, 0x99, 0x9F, 0xBB, 0xB9, 0x33, 0x3E]

/-- Default `TYPE_TABLE`, codes 0x00 to 0x0D (R219). -/
def typeRowsLow : List TypeRow :=
  [⟨0x00, "ROM ONLY", .romOnly, false, false, false⟩,
   ⟨0x01, "MBC1", .mbc1, false, false, false⟩,
   ⟨0x02, "MBC1+RAM", .mbc1, true, false, false⟩,
   ⟨0x03, "MBC1+RAM+BATTERY", .mbc1, true, true, false⟩,
   ⟨0x05, "MBC2", .unsupported, false, false, false⟩,
   ⟨0x06, "MBC2+BATTERY", .unsupported, false, true, false⟩,
   ⟨0x08, "ROM+RAM", .romOnly, true, false, false⟩,
   ⟨0x09, "ROM+RAM+BATTERY", .romOnly, true, true, false⟩,
   ⟨0x0B, "MMM01", .unsupported, false, false, false⟩,
   ⟨0x0C, "MMM01+RAM", .unsupported, true, false, false⟩,
   ⟨0x0D, "MMM01+RAM+BATTERY", .unsupported, true, true, false⟩]

/-- Default `TYPE_TABLE`, codes 0x0F to 0x1E (R219). -/
def typeRowsMid : List TypeRow :=
  [⟨0x0F, "MBC3+TIMER+BATTERY", .mbc3, false, true, true⟩,
   ⟨0x10, "MBC3+TIMER+RAM+BATTERY", .mbc3, true, true, true⟩,
   ⟨0x11, "MBC3", .mbc3, false, false, false⟩,
   ⟨0x12, "MBC3+RAM", .mbc3, true, false, false⟩,
   ⟨0x13, "MBC3+RAM+BATTERY", .mbc3, true, true, false⟩,
   ⟨0x19, "MBC5", .mbc5, false, false, false⟩,
   ⟨0x1A, "MBC5+RAM", .mbc5, true, false, false⟩,
   ⟨0x1B, "MBC5+RAM+BATTERY", .mbc5, true, true, false⟩,
   ⟨0x1C, "MBC5+RUMBLE", .mbc5, false, false, false⟩,
   ⟨0x1D, "MBC5+RUMBLE+RAM", .mbc5, true, false, false⟩,
   ⟨0x1E, "MBC5+RUMBLE+RAM+BATTERY", .mbc5, true, true, false⟩]

/-- Default `TYPE_TABLE`, codes 0x20 to 0xFF (R219). -/
def typeRowsHigh : List TypeRow :=
  [⟨0x20, "MBC6", .unsupported, false, false, false⟩,
   ⟨0x22, "MBC7+SENSOR+RUMBLE+RAM+BATTERY", .unsupported, true, true, false⟩,
   ⟨0xFC, "POCKET CAMERA", .unsupported, false, false, false⟩,
   ⟨0xFD, "BANDAI TAMA5", .unsupported, false, false, false⟩,
   ⟨0xFE, "HuC3", .unsupported, false, false, false⟩,
   ⟨0xFF, "HuC1+RAM+BATTERY", .unsupported, true, true, false⟩]

/-- Default `CMD_ID`: 0 to 5 in the order of the spec's listing (R6; 92_eei_decisions.md D30). -/
def defaultCommandIds : CommandIds :=
  { parseHeader := 0x00, readRom := 0x01, readRam := 0x02, writeRam := 0x03, readRtc := 0x04, writeRtc := 0x05 }

/-- The parameters at their defaults (R6, R37 to R39; the rumble types of 70_reset_and_hazards.md R336). -/
def defaultParams : Params :=
  { levels := defaultLevels, pos := defaultPositions, tSettleNs := 1000, headerBase := 0x0100,
    m1Ramg := 0x0000, m1Bank1 := 0x2000, m1Bank2 := 0x4000, m1Mode := 0x6000,
    m3Ramg := 0x0000, m3Romb := 0x2000, m3Ramb := 0x4000, m3Latch := 0x6000,
    m5Ramg := 0x0000, m5Romb0 := 0x2000, m5Romb1 := 0x3000, m5Ramb := 0x4000,
    ramEnable := 0x0A, rtcBase := 0x08, logo := defaultLogo,
    typeTable := typeRowsLow ++ typeRowsMid ++ typeRowsHigh, rumbleTypes := [0x1C, 0x1D, 0x1E],
    cmdId := defaultCommandIds }

end Sys2Proof.Machine
end

