-- ==== Sys2Proof/Syntax.lean ====
section
/-! DEFINITION. The operations of GBCR-CORE as syntax: one constructor for each row of spec/opcode_table.json
(00_scope.md R2, 30_encoding.md R116), with the operands the row names. Formats: CMD, INT, STATUS, REGW. -/

namespace Sys2Proof

/-- Which of the spec's formats a word is in (30_encoding.md R100). The formats share numbers (a CMD value 0x10 is an
unknown command, an INT label 0x10 is `reset`, R115), so a word means something only together with its format. REGW words
also need the variant module that is running, since one address is a different register in each. -/
inductive Format where
  | cmd
  | int
  | status
  | regw (v : Variant)
deriving DecidableEq, Repr

/-- What the dispatch loop presents to the idle sequencer: a word and the format it is in (R34, R108, log 14, log 15). -/
structure Selection where
  format : Format
  word   : BitVec 32
deriving DecidableEq, Repr

inductive Instr where
  -- format CMD: the six host commands (R244 to R249)
  | parseHeader
  | readRom
  | readRam
  | writeRam
  | readRtc
  | writeRtc
  -- format CMD: the six mask rows of the unknown selectors (R250), each with its selector
  | unknown0607 (cmd : Byte)
  | unknown080F (cmd : Byte)
  | unknown101F (cmd : Byte)
  | unknown203F (cmd : Byte)
  | unknown407F (cmd : Byte)
  | unknown80FF (cmd : Byte)
  -- format INT: BusDriver (R132 to R135)
  | reset
  | shiftOutAddress (addr : Addr)
  | shiftOutData (byte : Byte)
  | shiftInData
  -- format INT: common cartridge primitives and cells (R150 to R153)
  | registerWrite (address : Addr) (value : Byte)
  | resetCartridge (variant : Variant)
  | readCell (addr : Addr)
  | writeCell (addr : Addr) (byte : Byte)
  -- format INT: MBC1 (R170 to R173)
  | mbc1ReadRom (bank : BankOperand)
  | mbc1ReadHeader
  | mbc1ReadRam (bank : BankOperand)
  | mbc1WriteRam (bank : BankOperand)
  -- format INT: MBC3 (R180 to R184)
  | mbc3ReadRom (bank : BankOperand)
  | mbc3ReadRam (bank : BankOperand)
  | mbc3WriteRam (bank : BankOperand)
  | mbc3ReadRtc
  | mbc3WriteRtc
  -- format INT: MBC5 (R200 to R202)
  | mbc5ReadRom (bank : BankOperand)
  | mbc5ReadRam (bank : BankOperand)
  | mbc5WriteRam (bank : BankOperand)
  -- format INT: HeaderParser (R211)
  | parse
  -- format STATUS (R281 to R289)
  | statusOk
  | statusUnknownCommand
  | statusInvalidNumRomBanks
  | statusInvalidNumRamBanks
  | statusInvalidCartridgeType
  | statusInvalidRamWriteSize
  | statusCartridgeHasNoRam
  | statusCartridgeHasNoRtc
  | statusInvalidRtcWriteSize
  -- format REGW (R103, R37 to R39), each with the value field of its pattern
  | regwM1Ramg (g : BitVec 4)
  | regwM1Bank1 (b : BitVec 5)
  | regwM1Bank2 (h : BitVec 2)
  | regwM1Mode (m : BitVec 1)
  | regwM3Ramg (g : BitVec 4)
  | regwM3Romb (b : BitVec 8)
  | regwM3Ramb (sel : BitVec 8)
  | regwM3Latch (l : BitVec 1)
  | regwM5Ramg (g : BitVec 4)
  | regwM5Romb0 (b : BitVec 8)
  | regwM5Romb1 (h : BitVec 1)
  | regwM5Ramb (sel : BitVec 8)
deriving DecidableEq, Repr

end Sys2Proof
end

