-- ==== Sys2Proof/WellFormed.lean ====
section
/-! DEFINITION. Which instructions are well formed: the operand types already bound every field to its width, so the one
check left is that the selector of an unknown-command row lies in that row's range (spec/opcode_table.json, 30_encoding.md
R109). `Params.wf` is the check on the parameters under which the encodings are unambiguous. -/

namespace Sys2Proof

/-- The selector of an unknown-command row lies in the row's range; every other instruction is well formed as it stands. -/
def Instr.wf : Instr → Bool
  | .unknown0607 c => decide (0x06 ≤ c.toNat) && decide (c.toNat ≤ 0x07)
  | .unknown080F c => decide (0x08 ≤ c.toNat) && decide (c.toNat ≤ 0x0F)
  | .unknown101F c => decide (0x10 ≤ c.toNat) && decide (c.toNat ≤ 0x1F)
  | .unknown203F c => decide (0x20 ≤ c.toNat) && decide (c.toNat ≤ 0x3F)
  | .unknown407F c => decide (0x40 ≤ c.toNat) && decide (c.toNat ≤ 0x7F)
  | .unknown80FF c => decide (0x80 ≤ c.toNat)
  | .parseHeader | .readRom | .readRam | .writeRam | .readRtc | .writeRtc => true
  | .reset | .shiftOutAddress _ | .shiftOutData _ | .shiftInData => true
  | .registerWrite _ _ | .resetCartridge _ | .readCell _ | .writeCell _ _ => true
  | .mbc1ReadRom _ | .mbc1ReadHeader | .mbc1ReadRam _ | .mbc1WriteRam _ => true
  | .mbc3ReadRom _ | .mbc3ReadRam _ | .mbc3WriteRam _ | .mbc3ReadRtc | .mbc3WriteRtc => true
  | .mbc5ReadRom _ | .mbc5ReadRam _ | .mbc5WriteRam _ | .parse => true
  | .statusOk | .statusUnknownCommand | .statusInvalidNumRomBanks | .statusInvalidNumRamBanks => true
  | .statusInvalidCartridgeType | .statusInvalidRamWriteSize | .statusCartridgeHasNoRam => true
  | .statusCartridgeHasNoRtc | .statusInvalidRtcWriteSize => true
  | .regwM1Ramg _ | .regwM1Bank1 _ | .regwM1Bank2 _ | .regwM1Mode _ => true
  | .regwM3Ramg _ | .regwM3Romb _ | .regwM3Ramb _ | .regwM3Latch _ => true
  | .regwM5Ramg _ | .regwM5Romb0 _ | .regwM5Romb1 _ | .regwM5Ramb _ => true

/-- The six selector bytes, in the order of the spec's listing (30_encoding.md R108). -/
def CommandIds.toList (c : CommandIds) : List Byte :=
  [c.parseHeader, c.readRom, c.readRam, c.writeRam, c.readRtc, c.writeRtc]

/-- `CMD_ID` numbers the six commands 0 to 5 in some order: the six bytes are distinct and below 6, since every value from
0x06 on is no command (R108, R109). -/
def CommandIds.wf (c : CommandIds) : Bool := decide c.toList.Nodup && c.toList.all fun b => decide (b.toNat < 6)

/-- The four register addresses of each variant's map are distinct (10_state.md R36 to R39: each names one register), so
that a REGW word names one register of its variant; and `CMD_ID` is a numbering of the commands. -/
def Params.wf (p : Params) : Bool :=
  p.cmdId.wf &&
  decide ([p.m1Ramg, p.m1Bank1, p.m1Bank2, p.m1Mode].Nodup) &&
  decide ([p.m3Ramg, p.m3Romb, p.m3Ramb, p.m3Latch].Nodup) &&
  decide ([p.m5Ramg, p.m5Romb0, p.m5Romb1, p.m5Ramb].Nodup)

/-- The fourteen bit positions of the signal word are distinct (10_state.md R22). DESIGN CHOICE (log 35): the two reserved bits
are the two positions no named field has, wherever `BSS_POS` leaves them; by default they are 14 and 15 (R21, R22), and
another `BSS_POS` may give one of these to a field. So no field stands at a reserved bit. -/
def Positions.wf (q : Positions) : Bool :=
  decide ([q.addrSer, q.addrClk, q.addrLatch, q.doutSer, q.doutClk, q.doutLatch, q.doutOe, q.dinSer, q.dinClk,
    q.dinLatch, q.dinLoad, q.cs, q.rd, q.wr].Nodup)

end Sys2Proof
end

