-- ==== Sys2Proof/Decode.lean ====
section
/-! DEFINITION. The decoder, total on any word of any format and rejecting by name, and after it the encoder, both
written from 30_encoding.md R103, R106, R108, R116 and spec/opcode_table.json. Layout of a word (log 14): bits 7..0 the
selector, label, status or data byte; bits 23..8 the 16-bit operand, or the bus address of a REGW word (R103: address
bits above data bits); bits 31..24 the second operand byte. Bits a row does not use are 0. -/

namespace Sys2Proof

/-- Why a presented word names no operation (R107, R109, R117). Each is a refusal: safe. -/
inductive DecodeReject where
  /-- A selector below 0x06 that `CMD_ID` gives no command; none is left over where `Params.wf` holds (R108, R109). -/
  | noSuchCommand
  /-- An INT label that R116 does not list (R117(c)). -/
  | noSuchLabel
  /-- A variant operand other than 0, 1, 2. -/
  | noSuchVariant
  /-- A status value that R106 does not list (R107). -/
  | noSuchStatus
  /-- A REGW address that is no register of the variant's map (R36). -/
  | noSuchRegister
  /-- A bit outside the row's fields is 1 (R40: zeros elsewhere in the byte; log 14). -/
  | strayBits
deriving DecidableEq, Repr

/-- What the decoder answers. -/
inductive Decoded where
  | instr (i : Instr)
  | rejected (r : DecodeReject)
deriving DecidableEq, Repr

/-- Bits 7..0 of a word. -/
def labelOf (w : BitVec 32) : Byte := w.extractLsb' 0 8
/-- Bits 23..8 of a word. -/
def operandOf (w : BitVec 32) : BitVec 16 := w.extractLsb' 8 16
/-- Bits 31..24 of a word. -/
def valueOf (w : BitVec 32) : Byte := w.extractLsb' 24 8
/-- A word from its three fields. -/
def packWord (value : Byte) (operand : BitVec 16) (label : Byte) : BitVec 32 := value ++ operand ++ label

/-- An instruction whose word uses the low byte only. -/
def byteOnly (w : BitVec 32) (i : Instr) : Decoded :=
  if operandOf w = 0 ∧ valueOf w = 0 then .instr i else .rejected .strayBits

/-- An instruction whose word uses the low byte and an operand of 8 bits. -/
def withByte (w : BitVec 32) (f : Byte → Instr) : Decoded :=
  if (operandOf w).toNat < 256 ∧ valueOf w = 0 then .instr (f ((operandOf w).setWidth 8)) else .rejected .strayBits

/-- An instruction whose word uses the low byte and the 16-bit operand. -/
def withOperand (w : BitVec 32) (f : BitVec 16 → Instr) : Decoded :=
  if valueOf w = 0 then .instr (f (operandOf w)) else .rejected .strayBits

/-- The variant a `reset_cartridge` word names (log 14). -/
def variantOfNumber (n : BitVec 16) : Option Variant :=
  if n = 0 then some .mbc1 else if n = 1 then some .mbc3 else if n = 2 then some .mbc5 else none

def numberOfVariant : Variant → BitVec 16
  | .mbc1 => 0 | .mbc3 => 1 | .mbc5 => 2

/-- The command a selector byte is, under `CMD_ID` (R6, R108). -/
def CommandIds.command (ids : CommandIds) (c : Byte) : Option Instr :=
  if c = ids.parseHeader then some .parseHeader else if c = ids.readRom then some .readRom
  else if c = ids.readRam then some .readRam else if c = ids.writeRam then some .writeRam
  else if c = ids.readRtc then some .readRtc else if c = ids.writeRtc then some .writeRtc else none

/-- The row of a selector that is no command (R109); the rows cover 0x06 to 0xFF. -/
def unknownRow (c : Byte) : Option Instr :=
  if c.toNat < 0x06 then none
  else if c.toNat < 0x08 then some (.unknown0607 c) else if c.toNat < 0x10 then some (.unknown080F c)
  else if c.toNat < 0x20 then some (.unknown101F c) else if c.toNat < 0x40 then some (.unknown203F c)
  else if c.toNat < 0x80 then some (.unknown407F c) else some (.unknown80FF c)

/-- The instruction a selector byte names: six commands, and six rows that cover the rest (R108, R109). -/
def commandOf (ids : CommandIds) (c : Byte) : Option Instr :=
  match ids.command c with
  | some i => some i
  | none => unknownRow c

/-- Format CMD (R108): total on the selector byte where `CMD_ID` is a numbering of the commands. -/
def decodeCmd (ids : CommandIds) (w : BitVec 32) : Decoded :=
  match commandOf ids (labelOf w) with
  | some i => byteOnly w i
  | none => .rejected .noSuchCommand

/-- Format INT, labels of the BusDriver layer (R116). -/
def decodeBusDriver (w : BitVec 32) : Decoded :=
  let l := labelOf w
  if l = 0x10 then byteOnly w .reset
  else if l = 0x11 then withOperand w .shiftOutAddress
  else if l = 0x12 then withByte w .shiftOutData
  else if l = 0x13 then byteOnly w .shiftInData
  else .rejected .noSuchLabel

/-- `reset_cartridge(variant)`: the operand is the variant's number (log 14). -/
def decodeResetCartridge (w : BitVec 32) : Decoded :=
  if valueOf w = 0 then
    (match variantOfNumber (operandOf w) with
     | some v => .instr (.resetCartridge v)
     | none => .rejected .noSuchVariant)
  else .rejected .strayBits

/-- Format INT, labels of the common cartridge operations (R116). -/
def decodeCartridge (w : BitVec 32) : Decoded :=
  let l := labelOf w
  if l = 0x20 then .instr (.registerWrite (operandOf w) (valueOf w))
  else if l = 0x21 then decodeResetCartridge w
  else if l = 0x22 then withOperand w .readCell
  else if l = 0x23 then .instr (.writeCell (operandOf w) (valueOf w))
  else .rejected .noSuchLabel

/-- Format INT, labels of the MBC1 operations (R116). -/
def decodeMbc1 (w : BitVec 32) : Decoded :=
  let l := labelOf w
  if l = 0x30 then withOperand w .mbc1ReadRom
  else if l = 0x31 then byteOnly w .mbc1ReadHeader
  else if l = 0x32 then withOperand w .mbc1ReadRam
  else if l = 0x33 then withOperand w .mbc1WriteRam
  else .rejected .noSuchLabel

/-- Format INT, labels of the MBC3 operations (R116). -/
def decodeMbc3 (w : BitVec 32) : Decoded :=
  let l := labelOf w
  if l = 0x40 then withOperand w .mbc3ReadRom
  else if l = 0x41 then withOperand w .mbc3ReadRam
  else if l = 0x42 then withOperand w .mbc3WriteRam
  else if l = 0x43 then byteOnly w .mbc3ReadRtc
  else if l = 0x44 then byteOnly w .mbc3WriteRtc
  else .rejected .noSuchLabel

/-- Format INT, labels of the MBC5 operations and of `parse` (R116). -/
def decodeMbc5 (w : BitVec 32) : Decoded :=
  let l := labelOf w
  if l = 0x50 then withOperand w .mbc5ReadRom
  else if l = 0x51 then withOperand w .mbc5ReadRam
  else if l = 0x52 then withOperand w .mbc5WriteRam
  else if l = 0x60 then byteOnly w .parse
  else .rejected .noSuchLabel

/-- Format INT (R116): one block of labels for each layer. -/
def decodeInt (w : BitVec 32) : Decoded :=
  if (labelOf w).toNat < 0x20 then decodeBusDriver w
  else if (labelOf w).toNat < 0x30 then decodeCartridge w
  else if (labelOf w).toNat < 0x40 then decodeMbc1 w
  else if (labelOf w).toNat < 0x50 then decodeMbc3 w
  else decodeMbc5 w

/-- Format STATUS (R106); every other value is unassigned (R107). -/
def decodeStatus (w : BitVec 32) : Decoded :=
  let s := labelOf w
  if s = 0 then byteOnly w .statusOk
  else if s = 1 then byteOnly w .statusUnknownCommand
  else if s = 10 then byteOnly w .statusInvalidNumRomBanks
  else if s = 11 then byteOnly w .statusInvalidNumRamBanks
  else if s = 12 then byteOnly w .statusInvalidCartridgeType
  else if s = 21 then byteOnly w .statusInvalidRamWriteSize
  else if s = 22 then byteOnly w .statusCartridgeHasNoRam
  else if s = 23 then byteOnly w .statusCartridgeHasNoRtc
  else if s = 24 then byteOnly w .statusInvalidRtcWriteSize
  else .rejected .noSuchStatus

/-- The value field of a REGW word: k bits of the data byte, the rest of the byte 0 (R40, R103). -/
def field (k : Nat) (w : BitVec 32) (f : BitVec k → Instr) : Decoded :=
  if (labelOf w).toNat < 2 ^ k then .instr (f ((labelOf w).setWidth k)) else .rejected .strayBits

/-- The register of variant v a REGW word writes, by its address (R37 to R39). -/
def decodeRegister (p : Params) (v : Variant) (w : BitVec 32) : Decoded :=
  let a := operandOf w
  match v with
  | .mbc1 =>
    if a = p.m1Ramg then field 4 w .regwM1Ramg
    else if a = p.m1Bank1 then field 5 w .regwM1Bank1
    else if a = p.m1Bank2 then field 2 w .regwM1Bank2
    else if a = p.m1Mode then field 1 w .regwM1Mode
    else .rejected .noSuchRegister
  | .mbc3 =>
    if a = p.m3Ramg then field 4 w .regwM3Ramg
    else if a = p.m3Romb then field 8 w .regwM3Romb
    else if a = p.m3Ramb then field 8 w .regwM3Ramb
    else if a = p.m3Latch then field 1 w .regwM3Latch
    else .rejected .noSuchRegister
  | .mbc5 =>
    if a = p.m5Ramg then field 4 w .regwM5Ramg
    else if a = p.m5Romb0 then field 8 w .regwM5Romb0
    else if a = p.m5Romb1 then field 1 w .regwM5Romb1
    else if a = p.m5Ramb then field 8 w .regwM5Ramb
    else .rejected .noSuchRegister

/-- Format REGW (R103). -/
def decodeRegw (p : Params) (v : Variant) (w : BitVec 32) : Decoded :=
  if valueOf w = 0 then decodeRegister p v w else .rejected .strayBits

/-- The decoder: the operation a presented word names, under the parameters of the machine. -/
def decode (p : Params) (sel : Selection) : Decoded :=
  match sel.format with
  | .cmd => decodeCmd p.cmdId sel.word
  | .int => decodeInt sel.word
  | .status => decodeStatus sel.word
  | .regw v => decodeRegw p v sel.word

/-- A CMD or STATUS word. -/
def byteWord (b : Byte) : BitVec 32 := packWord 0 0 b
/-- An INT word with a 16-bit operand. -/
def operandWord (l : Byte) (a : BitVec 16) : BitVec 32 := packWord 0 a l
/-- A REGW word: the address bits above the data bits (R103). -/
def regWord (a : Addr) (d : Byte) : BitVec 32 := packWord 0 a d

/-- The encoder: the format and word of an instruction, from the same tables (R103, R106, R108, R116). -/
def encode (p : Params) : Instr → Selection
  | .parseHeader => ⟨.cmd, byteWord p.cmdId.parseHeader⟩
  | .readRom => ⟨.cmd, byteWord p.cmdId.readRom⟩
  | .readRam => ⟨.cmd, byteWord p.cmdId.readRam⟩
  | .writeRam => ⟨.cmd, byteWord p.cmdId.writeRam⟩
  | .readRtc => ⟨.cmd, byteWord p.cmdId.readRtc⟩
  | .writeRtc => ⟨.cmd, byteWord p.cmdId.writeRtc⟩
  | .unknown0607 c => ⟨.cmd, byteWord c⟩
  | .unknown080F c => ⟨.cmd, byteWord c⟩
  | .unknown101F c => ⟨.cmd, byteWord c⟩
  | .unknown203F c => ⟨.cmd, byteWord c⟩
  | .unknown407F c => ⟨.cmd, byteWord c⟩
  | .unknown80FF c => ⟨.cmd, byteWord c⟩
  | .reset => ⟨.int, byteWord 0x10⟩
  | .shiftOutAddress a => ⟨.int, operandWord 0x11 a⟩
  | .shiftOutData b => ⟨.int, operandWord 0x12 (b.setWidth 16)⟩
  | .shiftInData => ⟨.int, byteWord 0x13⟩
  | .registerWrite a v => ⟨.int, packWord v a 0x20⟩
  | .resetCartridge v => ⟨.int, operandWord 0x21 (numberOfVariant v)⟩
  | .readCell a => ⟨.int, operandWord 0x22 a⟩
  | .writeCell a b => ⟨.int, packWord b a 0x23⟩
  | .mbc1ReadRom b => ⟨.int, operandWord 0x30 b⟩
  | .mbc1ReadHeader => ⟨.int, byteWord 0x31⟩
  | .mbc1ReadRam b => ⟨.int, operandWord 0x32 b⟩
  | .mbc1WriteRam b => ⟨.int, operandWord 0x33 b⟩
  | .mbc3ReadRom b => ⟨.int, operandWord 0x40 b⟩
  | .mbc3ReadRam b => ⟨.int, operandWord 0x41 b⟩
  | .mbc3WriteRam b => ⟨.int, operandWord 0x42 b⟩
  | .mbc3ReadRtc => ⟨.int, byteWord 0x43⟩
  | .mbc3WriteRtc => ⟨.int, byteWord 0x44⟩
  | .mbc5ReadRom b => ⟨.int, operandWord 0x50 b⟩
  | .mbc5ReadRam b => ⟨.int, operandWord 0x51 b⟩
  | .mbc5WriteRam b => ⟨.int, operandWord 0x52 b⟩
  | .parse => ⟨.int, byteWord 0x60⟩
  | .statusOk => ⟨.status, byteWord 0⟩
  | .statusUnknownCommand => ⟨.status, byteWord 1⟩
  | .statusInvalidNumRomBanks => ⟨.status, byteWord 10⟩
  | .statusInvalidNumRamBanks => ⟨.status, byteWord 11⟩
  | .statusInvalidCartridgeType => ⟨.status, byteWord 12⟩
  | .statusInvalidRamWriteSize => ⟨.status, byteWord 21⟩
  | .statusCartridgeHasNoRam => ⟨.status, byteWord 22⟩
  | .statusCartridgeHasNoRtc => ⟨.status, byteWord 23⟩
  | .statusInvalidRtcWriteSize => ⟨.status, byteWord 24⟩
  | .regwM1Ramg g => ⟨.regw .mbc1, regWord p.m1Ramg (g.setWidth 8)⟩
  | .regwM1Bank1 b => ⟨.regw .mbc1, regWord p.m1Bank1 (b.setWidth 8)⟩
  | .regwM1Bank2 h => ⟨.regw .mbc1, regWord p.m1Bank2 (h.setWidth 8)⟩
  | .regwM1Mode m => ⟨.regw .mbc1, regWord p.m1Mode (m.setWidth 8)⟩
  | .regwM3Ramg g => ⟨.regw .mbc3, regWord p.m3Ramg (g.setWidth 8)⟩
  | .regwM3Romb b => ⟨.regw .mbc3, regWord p.m3Romb b⟩
  | .regwM3Ramb b => ⟨.regw .mbc3, regWord p.m3Ramb b⟩
  | .regwM3Latch l => ⟨.regw .mbc3, regWord p.m3Latch (l.setWidth 8)⟩
  | .regwM5Ramg g => ⟨.regw .mbc5, regWord p.m5Ramg (g.setWidth 8)⟩
  | .regwM5Romb0 b => ⟨.regw .mbc5, regWord p.m5Romb0 b⟩
  | .regwM5Romb1 h => ⟨.regw .mbc5, regWord p.m5Romb1 (h.setWidth 8)⟩
  | .regwM5Ramb b => ⟨.regw .mbc5, regWord p.m5Ramb b⟩

/-- The formats a bare table word of nbits bits is tried in (log 15): the six commands first, then the labels of the
internal operations and the status codes, then the rows of the unknown selectors; 24-bit words as register writes. -/
def tableFormats (nbits w : Nat) : List Format :=
  if nbits ≤ 8 then (if w < 6 then [.cmd] else [.int, .status, .cmd])
  else if nbits ≤ 24 then [.regw .mbc1, .regw .mbc3, .regw .mbc5, .int]
  else [.int]

/-- The first of the formats in which the word decodes; the word in the last one tried where none does. -/
def firstDecoding (p : Params) (w : BitVec 32) : List Format → Selection
  | [] => ⟨.cmd, w⟩
  | f :: fs =>
    match decode p ⟨f, w⟩ with
    | .instr _ => ⟨f, w⟩
    | .rejected _ => match fs with
      | [] => ⟨f, w⟩
      | g :: gs => firstDecoding p w (g :: gs)

/-- A bare table word as the dispatch loop would present it. -/
def tableSelection (p : Params) (nbits w : Nat) : Selection :=
  let x := w % 2 ^ nbits
  firstDecoding p (BitVec.ofNat 32 x) (tableFormats nbits x)

/-- The instruction the decoder reads from a table word whose bits are w, under the default parameters. -/
def decodeTableWord (nbits w : Nat) : Option Instr :=
  match decode Machine.defaultParams (tableSelection Machine.defaultParams nbits w) with
  | .instr i => some i
  | .rejected _ => none

end Sys2Proof
end

