-- ==== Sys2Proof/Machine/Memory.lean ====
section
/-! DEFINITION. A memory of bytes as plain data: a list of (index, byte) in one canonical form, indexes strictly rising.
An index that is not listed has no value of the memory's own (what a read of it answers is said where the memory is
used), so every listed entry differs from an unlisted one and equal memories are equal lists. -/

namespace Sys2Proof.Machine

/-- A memory: cells in rising order of index. -/
abbrev Memory := List Host.Cell

/-- The byte listed at an index, if one is. -/
def Memory.read : Memory → Nat → Option Byte
  | [], _ => none
  | (a, b) :: m, k => if a = k then some b else Memory.read m k

/-- The memory with byte v at index k, every other index as before. -/
def Memory.write : Memory → Nat → Byte → Memory
  | [], k, v => [(k, v)]
  | (a, b) :: m, k, v =>
    if k < a then (k, v) :: (a, b) :: m
    else if k = a then (k, v) :: m
    else (a, b) :: Memory.write m k v

/-- Bytes written one after another from an index on. -/
def Memory.writeBytes : Memory → Nat → List Byte → Memory
  | m, _, [] => m
  | m, k, b :: bs => Memory.writeBytes (Memory.write m k b) (k + 1) bs

/-- The canonical form: indexes strictly rising. -/
def Memory.wf : Memory → Bool
  | [] => true
  | [_] => true
  | (a, _) :: (b, c) :: m => decide (a < b) && Memory.wf ((b, c) :: m)

/-- Every listed index is below n. -/
def Memory.within (n : Nat) (m : Memory) : Bool := m.all fun c => decide (c.1 < n)

end Sys2Proof.Machine
end

