-- ==== Sys2Proof/Machine/Cartridge.lean ====
section
/-! DEFINITION. The environment at the cartridge bus (20_memory.md R68, R70): either a cartridge about which nothing is
assumed, or one of the four reference cartridges of R95 to R98. The block is told nothing about it but the bytes it
answers (R47). DESIGN CHOICE (log 33): R63 gives no meaning to a bus access at 0x8000 to 0x9FFF or 0xC000 to 0xFFFF; every
reference cartridge here drives no byte there, so a draw is read, and every `accept` ignores a write there. Nor does R98 say
what a write at 0x6000 to 0x7FFF does to REF-MBC5, and that too is ignored (log 33). -/

namespace Sys2Proof.Machine

/-- One bus write event `CartWrite(addr, cs, data)` (R68). -/
structure BusWrite where
  addr : Addr
  cs   : Bool
  data : Byte
deriving DecidableEq, Repr

/-- `REF-ROM` (R95); it has no registers, so power-up gives it none. ROM byte (bank, off) at index bank * 16384 + off, RAM byte
at bank * 8192 + off. DESIGN CHOICE (log 36): its NB is not held; R95 reduces no bank by it, and banks 0 and 1, all that the
addresses below 0x8000 name, are taken to exist. -/
structure RefRom where
  nr  : Nat
  rom : Memory
  ram : Memory
deriving DecidableEq, Repr

/-- `REF-MBC1` (R96). -/
structure RefMbc1 where
  nb    : Nat
  nr    : Nat
  rom   : Memory
  ram   : Memory
  ramg  : BitVec 4
  bank1 : BitVec 5
  bank2 : BitVec 2
  mode  : BitVec 1
deriving DecidableEq, Repr

/-- The five clock registers of `REF-MBC3`, in the order of 10_state.md R41. -/
structure RtcRegs where
  seconds : Byte
  minutes : Byte
  hours   : Byte
  dayLow  : Byte
  dayHigh : Byte
deriving DecidableEq, Repr

/-- `REF-MBC3` (R97). -/
structure RefMbc3 where
  nb         : Nat
  nr         : Nat
  rom        : Memory
  ram        : Memory
  ramg       : BitVec 4
  romb       : BitVec 7
  ramb       : BitVec 4
  latch      : BitVec 1
  rtcLive    : RtcRegs
  rtcLatched : RtcRegs
deriving DecidableEq, Repr

/-- `REF-MBC5` (R98). -/
structure RefMbc5 where
  nb     : Nat
  nr     : Nat
  rom    : Memory
  ram    : Memory
  ramg   : BitVec 8
  romb0  : BitVec 8
  romb1  : BitVec 1
  ramb   : BitVec 4
  rumble : Bool
  motor  : Bool
deriving DecidableEq, Repr

/-- What is in the slot. `unknown` is any cartridge, or none: every byte it answers is a free value (R70, U9, U10). -/
inductive Cartridge where
  | unknown
  | rom (c : RefRom)
  | mbc1 (c : RefMbc1)
  | mbc3 (c : RefMbc3)
  | mbc5 (c : RefMbc5)
deriving DecidableEq, Repr

/-- RTCREG[k] (10_state.md R41). -/
def RtcRegs.get (r : RtcRegs) (k : Nat) : Option Byte :=
  if k = 0 then some r.seconds else if k = 1 then some r.minutes else if k = 2 then some r.hours
  else if k = 3 then some r.dayLow else if k = 4 then some r.dayHigh else none

/-- The address lies in the RAM window 0xA000 to 0xBFFF (R62). -/
def inRamWindow (a : Addr) : Bool := decide (0xA000 ≤ a.toNat) && decide (a.toNat < 0xC000)

/-- A ROM byte of a reference cartridge: listed, or the free value of its index; the same at every read (R89, log 27). -/
def romByte (rom : Memory) (i : Nat) : Byte := (Memory.read rom i).getD (Config.cartridgeRom i)

/-- A RAM byte of a reference cartridge: listed, or the free value of its index until it is written (R89, log 27). -/
def ramByte (ram : Memory) (i : Nat) : Byte := (Memory.read ram i).getD (Config.cartridgeRam i)

/-- Index of a RAM byte: bank reduced modulo the number of banks, which is above 0 wherever this is used (log 27). -/
def ramIndex (bank nr : Nat) (a : Addr) : Nat := bank % nr * 8192 + (a.toNat - 0xA000)

/-- Index of a ROM byte: bank reduced modulo the number of banks. DESIGN CHOICE (log 36): for NB = 0, where "mod NB" of R96 to
R98 has no value, Lean's bank % 0 = bank leaves the bank as it is. -/
def romIndex (bank nb off : Nat) : Nat := bank % nb * 16384 + off

/-- `CartRead` of `REF-ROM` (R95). R95 gives the RAM window for NR = 1 only; DESIGN CHOICE (log 33): with any other NR the
cartridge drives no byte there. -/
def RefRom.answer (c : RefRom) (a : Addr) (cs : Bool) : Option Byte :=
  if a.toNat < 0x8000 then some (romByte c.rom a.toNat)
  else if inRamWindow a && cs && c.nr == 1 then some (ramByte c.ram (a.toNat - 0xA000))
  else none

/-- `CartWrite` of `REF-ROM`: register writes are ignored, RAM stores (R95). DESIGN CHOICE (log 33): with NR other than 1, and
at the addresses R63 leaves open, a write is ignored. -/
def RefRom.accept (c : RefRom) (w : BusWrite) : RefRom :=
  if inRamWindow w.addr && w.cs && c.nr == 1 then { c with ram := Memory.write c.ram (w.addr.toNat - 0xA000) w.data } else c

/-- The RAM bank an `REF-MBC1` shows (R96). -/
def RefMbc1.ramBank (c : RefMbc1) : Nat := if c.mode = 1 then c.bank2.toNat else 0

/-- The RAM of an `REF-MBC1` answers: selected, gate open, RAM present (R96). -/
def RefMbc1.ramOpen (c : RefMbc1) (a : Addr) (cs : Bool) : Bool :=
  inRamWindow a && cs && c.ramg == 0xA && decide (0 < c.nr)

/-- `CartRead` of `REF-MBC1` (R96). -/
def RefMbc1.answer (c : RefMbc1) (a : Addr) (cs : Bool) : Option Byte :=
  if a.toNat < 0x4000 then
    some (romByte c.rom (romIndex (if c.mode = 1 then c.bank2.toNat * 32 else 0) c.nb a.toNat))
  else if a.toNat < 0x8000 then
    some (romByte c.rom (romIndex (c.bank2.toNat * 32 + c.bank1.toNat) c.nb (a.toNat - 0x4000)))
  else if c.ramOpen a cs then some (ramByte c.ram (ramIndex c.ramBank c.nr a))
  else none

/-- `CartWrite` of `REF-MBC1` (R96). DESIGN CHOICE (log 33): at the addresses R63 leaves open a write is ignored. -/
def RefMbc1.accept (c : RefMbc1) (w : BusWrite) : RefMbc1 :=
  if w.addr.toNat < 0x2000 then { c with ramg := w.data.setWidth 4 }
  else if w.addr.toNat < 0x4000 then
    { c with bank1 := if w.data.setWidth 5 = (0 : BitVec 5) then 1 else w.data.setWidth 5 }
  else if w.addr.toNat < 0x6000 then { c with bank2 := w.data.setWidth 2 }
  else if w.addr.toNat < 0x8000 then { c with mode := w.data.setWidth 1 }
  else if c.ramOpen w.addr w.cs then { c with ram := Memory.write c.ram (ramIndex c.ramBank c.nr w.addr) w.data }
  else c

/-- The RAM window of an `REF-MBC3` is selected and its gate open (R97). -/
def RefMbc3.windowOpen (c : RefMbc3) (a : Addr) (cs : Bool) : Bool := inRamWindow a && cs && c.ramg == 0xA

/-- `CartRead` of `REF-MBC3` (R97). -/
def RefMbc3.answer (c : RefMbc3) (a : Addr) (cs : Bool) : Option Byte :=
  if a.toNat < 0x4000 then some (romByte c.rom a.toNat)
  else if a.toNat < 0x8000 then some (romByte c.rom (romIndex c.romb.toNat c.nb (a.toNat - 0x4000)))
  else if c.windowOpen a cs then
    (if c.ramb.toNat < 4 then (if c.nr = 0 then none else some (ramByte c.ram (ramIndex c.ramb.toNat c.nr a)))
     else if 8 ≤ c.ramb.toNat then c.rtcLatched.get (c.ramb.toNat - 8) else none)
  else none

/-- `CartWrite` of `REF-MBC3` below 0x8000 (R97): gate, ROM bank, RAM bank or clock register, latch. -/
def RefMbc3.acceptRegister (c : RefMbc3) (w : BusWrite) : RefMbc3 :=
  if w.addr.toNat < 0x2000 then { c with ramg := w.data.setWidth 4 }
  else if w.addr.toNat < 0x4000 then
    { c with romb := if w.data.setWidth 7 = (0 : BitVec 7) then 1 else w.data.setWidth 7 }
  else if w.addr.toNat < 0x6000 then { c with ramb := w.data.setWidth 4 }
  else { c with
    rtcLatched := if c.latch = 0 ∧ w.data.setWidth 1 = (1 : BitVec 1) then c.rtcLive else c.rtcLatched
    latch := w.data.setWidth 1 }

/-- `CartWrite` of `REF-MBC3`. R97 gives no effect for a write into the open window while a clock register, or no RAM
bank, is selected (U21): from then on nothing is assumed of the cartridge (log 27). DESIGN CHOICE (log 33): at the
addresses R63 leaves open a write is ignored. -/
def RefMbc3.accept (c : RefMbc3) (w : BusWrite) : Cartridge :=
  if w.addr.toNat < 0x8000 then .mbc3 (c.acceptRegister w)
  else if c.windowOpen w.addr w.cs then
    (if c.ramb.toNat < 4 then
      (if c.nr = 0 then .mbc3 c
       else .mbc3 { c with ram := Memory.write c.ram (ramIndex c.ramb.toNat c.nr w.addr) w.data })
     else .unknown)
  else .mbc3 c

/-- The RAM of an `REF-MBC5` answers (R98). -/
def RefMbc5.ramOpen (c : RefMbc5) (a : Addr) (cs : Bool) : Bool :=
  inRamWindow a && cs && c.ramg == 0x0A && decide (0 < c.nr)

/-- `CartRead` of `REF-MBC5` (R98). -/
def RefMbc5.answer (c : RefMbc5) (a : Addr) (cs : Bool) : Option Byte :=
  if a.toNat < 0x4000 then some (romByte c.rom a.toNat)
  else if a.toNat < 0x8000 then
    some (romByte c.rom (romIndex (c.romb1.toNat * 256 + c.romb0.toNat) c.nb (a.toNat - 0x4000)))
  else if c.ramOpen a cs then some (ramByte c.ram (ramIndex c.ramb.toNat c.nr a))
  else none

/-- `CartWrite` of `REF-MBC5` (R98); bit 3 of the RAM-bank register drives the motor of a rumble cartridge (R76).
DESIGN CHOICE (log 33): R98 lists no write at 0x6000 to 0x7FFF, where `reset_cartridge(MBC1)` makes one in every header read,
and R63 leaves the addresses outside the windows open; a write at either is ignored. -/
def RefMbc5.accept (c : RefMbc5) (w : BusWrite) : RefMbc5 :=
  if w.addr.toNat < 0x2000 then { c with ramg := w.data }
  else if w.addr.toNat < 0x3000 then { c with romb0 := w.data }
  else if w.addr.toNat < 0x4000 then { c with romb1 := w.data.setWidth 1 }
  else if w.addr.toNat < 0x6000 then
    { c with ramb := w.data.setWidth 4, motor := if c.rumble then w.data.getLsbD 3 else c.motor }
  else if c.ramOpen w.addr w.cs then { c with ram := Memory.write c.ram (ramIndex c.ramb.toNat c.nr w.addr) w.data }
  else c

/-- `CartRead(addr, cs)` (R70): the byte the cartridge drives, none where the spec fixes none (a free value is drawn). -/
def Cartridge.answer : Cartridge → Addr → Bool → Option Byte
  | .unknown, _, _ => none
  | .rom c, a, cs => c.answer a cs
  | .mbc1 c, a, cs => c.answer a cs
  | .mbc3 c, a, cs => c.answer a cs
  | .mbc5 c, a, cs => c.answer a cs

/-- The cartridge after `CartWrite(addr, cs, data)` (R68, R73). -/
def Cartridge.accept : Cartridge → BusWrite → Cartridge
  | .unknown, _ => .unknown
  | .rom c, w => .rom (c.accept w)
  | .mbc1 c, w => .mbc1 (c.accept w)
  | .mbc3 c, w => c.accept w
  | .mbc5 c, w => .mbc5 (c.accept w)

/-! ### Power-up -/

/-- The clock registers at power-up: 0 (R97: "power-up romb = 1, others 0"). -/
def RtcRegs.zero : RtcRegs := { seconds := 0, minutes := 0, hours := 0, dayLow := 0, dayHigh := 0 }

/-- `REF-MBC1` at power-up: "all 0 except bank1 = 1" (R96). Its memories are what it was made with. -/
def RefMbc1.powerUp (c : RefMbc1) : RefMbc1 := { c with ramg := 0, bank1 := 1, bank2 := 0, mode := 0 }

/-- `REF-MBC3` at power-up: "romb = 1, others 0", the clock registers among them (R97). -/
def RefMbc3.powerUp (c : RefMbc3) : RefMbc3 :=
  { c with ramg := 0, romb := 1, ramb := 0, latch := 0, rtcLive := .zero, rtcLatched := .zero }

/-- `REF-MBC5` at power-up: "romb0 = 1, others 0" (R98); with bit 3 of the RAM-bank register 0 the motor is off (R76). -/
def RefMbc5.powerUp (c : RefMbc5) : RefMbc5 := { c with ramg := 0, romb0 := 1, romb1 := 0, ramb := 0, motor := false }

/-- The cartridge's own power-up, reset (c) of 70_reset_and_hazards.md R320: "every controller powers up already presenting
bank 0" (R72). -/
def Cartridge.powerUp : Cartridge → Cartridge
  | .unknown => .unknown
  | .rom c => .rom c
  | .mbc1 c => .mbc1 c.powerUp
  | .mbc3 c => .mbc3 c.powerUp
  | .mbc5 c => .mbc5 c.powerUp

/-- The live clock of an MBC3 cartridge stands at r from now on; nothing else has one (R97 `rtc_live`). -/
def Cartridge.clockAt (r : RtcRegs) : Cartridge → Cartridge
  | .unknown => .unknown
  | .rom c => .rom c
  | .mbc1 c => .mbc1 c
  | .mbc3 c => .mbc3 { c with rtcLive := r }
  | .mbc5 c => .mbc5 c

/-- The cartridge is an MBC5 one with a motor, or one whose own header carries a type the table marks as rumble
(70_reset_and_hazards.md R336; log 21). -/
def Cartridge.rumbles (p : Params) : Cartridge → Bool
  | .unknown => false
  | .rom _ => false
  | .mbc1 _ => false
  | .mbc3 _ => false
  | .mbc5 c => c.rumble || decide (romByte c.rom (p.headerBase.toNat + 0x47) ∈ p.rumbleTypes)

end Sys2Proof.Machine
end

