-- ==== Sys2Proof/Machine/Signals.lean ====
section
/-! DEFINITION. The signal register BSS (10_state.md R21 to R28): its 13 stored output fields, the five strobes and their
levels, the safe value, and the packed 16-bit word that GpioWrite puts on the pins. DIN_SER and the two reserved bits are
not stored (R23, R26; log 1). -/

namespace Sys2Proof.Machine

/-- The output fields of BSS (R22). `Drive` is defined for these only (R130). -/
inductive OutField where
  | addrSer | addrClk | addrLatch | doutSer | doutClk | doutLatch | doutOe
  | dinClk | dinLatch | dinLoad | cs | rd | wr
deriving DecidableEq, Repr

/-- The strobes: the lines with an asserted and a deasserted level (R11, R24). -/
inductive Strobe where
  | cs | rd | wr | doutOe | dinLoad
deriving DecidableEq, Repr

/-- The pin level of every output field; true is a high pin (R24). -/
structure Bss where
  addrSer   : Bool
  addrClk   : Bool
  addrLatch : Bool
  doutSer   : Bool
  doutClk   : Bool
  doutLatch : Bool
  doutOe    : Bool
  dinClk    : Bool
  dinLatch  : Bool
  dinLoad   : Bool
  cs        : Bool
  rd        : Bool
  wr        : Bool
deriving DecidableEq, Repr

/-- `BSS.f`. -/
def Bss.get (b : Bss) : OutField → Bool
  | .addrSer => b.addrSer
  | .addrClk => b.addrClk
  | .addrLatch => b.addrLatch
  | .doutSer => b.doutSer
  | .doutClk => b.doutClk
  | .doutLatch => b.doutLatch
  | .doutOe => b.doutOe
  | .dinClk => b.dinClk
  | .dinLatch => b.dinLatch
  | .dinLoad => b.dinLoad
  | .cs => b.cs
  | .rd => b.rd
  | .wr => b.wr

/-- `BSS.f <- v`. -/
def Bss.set (b : Bss) (f : OutField) (v : Bool) : Bss :=
  match f with
  | .addrSer => { b with addrSer := v }
  | .addrClk => { b with addrClk := v }
  | .addrLatch => { b with addrLatch := v }
  | .doutSer => { b with doutSer := v }
  | .doutClk => { b with doutClk := v }
  | .doutLatch => { b with doutLatch := v }
  | .doutOe => { b with doutOe := v }
  | .dinClk => { b with dinClk := v }
  | .dinLatch => { b with dinLatch := v }
  | .dinLoad => { b with dinLoad := v }
  | .cs => { b with cs := v }
  | .rd => { b with rd := v }
  | .wr => { b with wr := v }

/-- The field of a strobe. -/
def Strobe.field : Strobe → OutField
  | .cs => .cs
  | .rd => .rd
  | .wr => .wr
  | .doutOe => .doutOe
  | .dinLoad => .dinLoad

/-- `ASSERT_LEVEL(f)` (R24). -/
def levelOf (l : Levels) : Strobe → Bool
  | .cs => l.cs
  | .rd => l.rd
  | .wr => l.wr
  | .doutOe => l.doutOe
  | .dinLoad => l.dinLoad

/-- The strobe stands at its asserted level. -/
def Bss.asserted (b : Bss) (l : Levels) (f : Strobe) : Bool := b.get f.field == levelOf l f

/-- `SAFE`: every strobe deasserted, every clock, latch and serial field 0 (R25). -/
def safeBss (l : Levels) : Bss :=
  { addrSer := false, addrClk := false, addrLatch := false, doutSer := false, doutClk := false, doutLatch := false,
    doutOe := !l.doutOe, dinClk := false, dinLatch := false, dinLoad := !l.dinLoad, cs := !l.cs, rd := !l.rd, wr := !l.wr }

/-- One field of the packed word. -/
def bitAt (pos : Fin 16) (v : Bool) : BitVec 16 := (BitVec.ofBool v).setWidth 16 <<< pos.val

/-- The 16-bit GPIO word of BSS: each field at its position, DIN_SER and the reserved bits, which are the two positions no
field has (log 35), 0 (R22, R23, R26). -/
def gpioWord (q : Positions) (b : Bss) : BitVec 16 :=
  bitAt q.addrSer b.addrSer ||| bitAt q.addrClk b.addrClk ||| bitAt q.addrLatch b.addrLatch |||
  bitAt q.doutSer b.doutSer ||| bitAt q.doutClk b.doutClk ||| bitAt q.doutLatch b.doutLatch |||
  bitAt q.doutOe b.doutOe ||| bitAt q.dinClk b.dinClk ||| bitAt q.dinLatch b.dinLatch |||
  bitAt q.dinLoad b.dinLoad ||| bitAt q.cs b.cs ||| bitAt q.rd b.rd ||| bitAt q.wr b.wr

/-- A 0 to 1 edge between two consecutive levels of one pin (R28). -/
def rises (old new : Bool) : Bool := !old && new

end Sys2Proof.Machine
end

