-- ==== Sys2Proof/Machine/State.lean ====
section
/-! DEFINITION. The state of the machine as plain data: everything 10_state.md and 20_memory.md give the block (R52), the
environment it answers to (cartridge, streams, dispatch loop: R20, R51), and the model's own counters. -/

namespace Sys2Proof.Machine

/-- What `write_ram` keeps while it is suspended in `RxByte`: the module it dispatches to and the bank count (R33). -/
structure Upload where
  variant   : Variant
  bankCount : Nat
deriving DecidableEq, Repr

/-- Which memory a streaming command reads (46_command_protocol.md R245, R246). -/
inductive ReadKind where
  | rom | ram
deriving DecidableEq, Repr

/-- What an operation held in `TxByte` goes on with once its bytes are out (R34, R241). -/
inductive AfterSend where
  /-- nothing follows: a STATUS row run on its own returns (log 17) -/
  | returned
  /-- the command ends (46_command_protocol.md R242) -/
  | ended
  /-- the last `left` of the n banks of a payload are read and sent (R245, R246) -/
  | nextBank (kind : ReadKind) (v : Variant) (n left : Nat)
  /-- `write_ram`: the length bytes (R247) -/
  | length (up : Upload)
  /-- `write_ram`: the data byte at `off` of `bank` (R247) -/
  | data (up : Upload) (len : Length) (bank off : Nat)
  /-- `write_ram`: the whole bank is committed (R247) -/
  | commit (up : Upload) (len : Length) (bank : Nat)
deriving DecidableEq, Repr

/-- The control position of the sequencer between steps (10_state.md R34). An operation is suspended only in `RxByte`, before
one of the four length bytes or before a data byte, or in `TxByte` with bytes still to send (60_exceptions.md R297); the
working values of R33 stand in it. -/
inductive Control where
  | idle
  | awaitLength (up : Upload) (got : List Byte)
  | awaitData (up : Upload) (len : Length) (bank off : Nat)
  | sending (rest : List Byte) (next : AfterSend)
deriving DecidableEq, Repr

structure State where
  /-- the parameters (00_scope.md R6); no step changes them (log 2) -/
  params       : Params
  /-- the signal register BSS, mirrored onto the pins (R21, R28) -/
  bss          : Bss
  /-- shift stage and output latch of the address shift register (R29) -/
  asr          : BitVec 16
  alat         : BitVec 16
  /-- shift stage and output latch of the data-out shift register (R30) -/
  dsr          : BitVec 8
  dlat         : BitVec 8
  /-- the data-in shift register (R31) -/
  isr          : BitVec 8
  /-- the 16384-byte BankBuffer (R43) -/
  bankBuffer   : Memory
  /-- the ReportBuf (R44) -/
  reportBuf    : Memory
  /-- TX: all bytes the block has sent, oldest first; nothing leaves it (R46) -/
  tx           : List Byte
  /-- MODEL's own: how many of them, from the oldest on, `hostDrains` has taken (20_memory.md R84, 46_command_protocol.md R254);
  no operation reads it (log 11) -/
  txDrained    : Nat
  /-- RX: bytes the host has made available and the block has not yet taken, oldest first (R46) -/
  rx           : List Byte
  /-- room the transport still has for bytes sent: none, the host drains by itself and `TxByte` never blocks; k, `TxByte`
  blocks after k more bytes (20_memory.md R84, 60_exceptions.md R297; log 11) -/
  txSpace      : Option Nat
  /-- control position (R34) -/
  control      : Control
  /-- selector of the command in progress (R33) -/
  selector     : Option Byte
  /-- the parsed descriptor, while one exists (R33, R45) -/
  descriptor   : Option Descriptor
  /-- the byte a bus primitive assembled and no one has taken yet (R33) -/
  v            : Option Byte
  /-- the selectors the dispatch loop presents, oldest first: all the host can select (R34, R108, 60_exceptions.md R300;
  log 16) -/
  pending      : List Byte
  /-- MODEL's own: operations a test bench drives directly, in any format, oldest first; empty at reset, and nothing the host
  does fills it (log 26) -/
  bench        : List Selection
  /-- the cartridge in the slot (R47, R51; log 6) -/
  cart         : Cartridge
  /-- the bus write events delivered, oldest first (20_memory.md R68; log 7) -/
  busWrites    : List BusWrite
  /-- the recorded BusContention fault, never cleared (60_exceptions.md R296) -/
  contention   : Bool
  /-- the flag of 70_reset_and_hazards.md R336 -/
  rumbleBreach : Bool
  /-- MODEL's own: index of the next free value (log 5) -/
  draws        : Nat
  /-- MODEL's own: settle waits made (R130, R330; log 22) -/
  settles      : Nat
deriving DecidableEq, Repr

/-- The reasons a step is no step of the machine. -/
inductive Fault where
  /-- Two drivers on the data bus (60_exceptions.md R296, 93 U8): raised by every operation in whose course RD and
  DOUT_OE are asserted in one BSS value, and by every operation started after one was recorded. Safe: the model stops. -/
  | busContention
  /-- The command in progress waits in `RxByte` with RX empty (R297, U12 "stuck"): raised by `step`. Safe: the state
  stands as it is and goes on when the host has sent a byte. -/
  | heldForHostByte
  /-- The operation in progress waits in `TxByte` on a transport with no room (R297, U12 "stuck"): raised by `step`. Safe: the
  state stands as it is and goes on when the host has drained. -/
  | heldForHostSpace
  /-- The sequencer is idle and the dispatch loop presents nothing (R34): raised by `step`. Safe. -/
  | waitingForSelector
deriving DecidableEq, Repr

/-- The reasons the model has no transition. -/
inductive Refusal where
  /-- An instruction whose meaning is not written; raised by exec's arms only. Safe. -/
  | notModelled (mnemonic : String)
  /-- An operation started while a command is suspended (20_memory.md R92, 93 U14 "refuse"): raised by every meaning.
  `step` never starts one. Safe. -/
  | commandInProgress
  /-- The presented word names no operation (R107, R117): raised by `step`. Safe. -/
  | noSuchOperation (why : DecodeReject)
deriving DecidableEq, Repr

/-- The state after a successful bring-up that ended with `BusDriver.reset()` (70_reset_and_hazards.md R321, 10_state.md
R50). Registers the spec gives no value hold free values (log 3); memories list nothing (log 4); parameters stand at
their defaults (log 2); nothing is presented, the host drains TX (log 11), and nothing is known of the
cartridge. -/
def State.reset : State :=
  { params := defaultParams
    bss := safeBss defaultParams.levels
    asr := Config.powerUpAsr, alat := Config.powerUpAlat
    dsr := Config.powerUpDsr, dlat := Config.powerUpDlat
    isr := Config.powerUpIsr
    bankBuffer := [], reportBuf := []
    tx := [], txDrained := 0, rx := [], txSpace := none
    control := .idle, selector := none, descriptor := none, v := none
    pending := [], bench := [], cart := .unknown, busWrites := []
    contention := false, rumbleBreach := false, draws := 0, settles := 0 }

end Sys2Proof.Machine
end

