-- ==== Sys2Proof/Machine/Ops.lean ====
section
/-! DEFINITION. The shared operations: the bus reconstructor's answer to one GPIO write (10_state.md R28 to R32), the
micro-steps `Drive` and `Sample` (40_busdriver.md R130, R131) and their sequences, the buffers and byte streams, and
`raise`, the one exception entry of this hardware (60_exceptions.md R290). -/

namespace Sys2Proof.Machine

/-- An operation's answer. -/
abbrev Result := Host.Outcome State Fault Refusal

/-! ### Views of the state -/

/-- The strobe is asserted. -/
def State.asserted (s : State) (f : Strobe) : Bool := s.bss.asserted s.params.levels f

/-- The pin levels: the word GpioWrite put there last (R28). -/
def State.gpio (s : State) : BitVec 16 := gpioWord s.params.pos s.bss

/-- The level of the DIN_SER pin: ISR[7] at all times (R26, R31). -/
def State.dinSer (s : State) : Bool := s.isr.getLsbD 7

/-- The byte the cartridge drives for the address on the bus (R70); a free value where nothing fixes it (U9, U10). -/
def State.cartridgeByte (s : State) : Byte :=
  (s.cart.answer s.alat (s.asserted .cs)).getD (Config.freeByte s.draws)

/-- The data bus D (R32): DLAT while DOUT_OE is asserted, else the cartridge's byte while RD is asserted, else floating.
With two drivers (U8) or none (U7) the value is free. -/
def State.dataBus (s : State) : Byte :=
  if s.asserted .doutOe then (if s.asserted .rd then Config.freeByte s.draws else s.dlat)
  else if s.asserted .rd then s.cartridgeByte
  else Config.freeByte s.draws

/-- BankBuffer[i] (R43); a byte nothing has written is a free value of its index (U5). -/
def State.readBuffer (s : State) (i : Nat) : Byte :=
  (Memory.read s.bankBuffer i).getD (Config.powerUpBankBuffer i)

/-- ReportBuf[i] (R44). -/
def State.readReport (s : State) (i : Nat) : Byte :=
  (Memory.read s.reportBuf i).getD (Config.powerUpReportBuf i)

/-- The least time the settle waits made so far have taken (R330). -/
def State.minElapsedNs (s : State) : Nat := s.settles * s.params.tSettleNs

/-! ### One GPIO write -/

/-- The address shift register at a GPIO write (R29). -/
def clockAddress (new : Bss) (s : State) : State :=
  { s with
    asr := if rises s.bss.addrClk new.addrClk then s.asr.shiftConcat new.addrSer else s.asr
    alat := if rises s.bss.addrLatch new.addrLatch then s.asr else s.alat }

/-- The data-out shift register at a GPIO write (R30). -/
def clockData (new : Bss) (s : State) : State :=
  { s with
    dsr := if rises s.bss.doutClk new.doutClk then s.dsr.shiftConcat new.doutSer else s.dsr
    dlat := if rises s.bss.doutLatch new.doutLatch then s.dsr else s.dlat }

/-- The pins take the new levels; two drivers on D are recorded and never forgotten (R28, R296). -/
def setPins (new : Bss) (s : State) : State :=
  { s with
    bss := new
    contention := s.contention ||
      (new.asserted s.params.levels .doutOe && new.asserted s.params.levels .rd) }

/-- The data-in shift register: it follows D while DIN_LOAD is asserted, otherwise a rising DIN_CLK shifts it by one place
and brings in a free bit (R31, U6). -/
def clockInput (rise : Bool) (s : State) : State :=
  if s.asserted .dinLoad then { s with isr := s.dataBus, draws := s.draws + 1 }
  else if rise then { s with isr := s.isr.shiftConcat (Config.freeBit s.draws), draws := s.draws + 1 }
  else s

/-- `GpioWrite(BSS)` with everything the pins' edges and levels do (R28 to R32). -/
def gpioWrite (new : Bss) (s : State) : State :=
  clockInput (rises s.bss.dinClk new.dinClk) (setPins new (clockData new (clockAddress new s)))

/-- `Settle()`: one more wait of at least `T_SETTLE` (R130, R330). -/
def settle (s : State) : State := { s with settles := s.settles + 1 }

/-! ### The bus write event -/

/-- The event a WR pulse delivers (20_memory.md R68). -/
def State.writeEvent (s : State) : BusWrite := { addr := s.alat, cs := s.asserted .cs, data := s.dlat }

/-- The type is one the table marks as rumble (70_reset_and_hazards.md R336): the descriptor in use names such a type, or the
cartridge in the slot is of one, whoever drives the bus (log 21). -/
def State.rumbleType (s : State) : Bool :=
  (match s.descriptor with
   | some d => decide (d.cartType ∈ s.params.rumbleTypes)
   | none => false) || s.cart.rumbles s.params

/-- A write to `M5_RAMB` with bit 3 set on a rumble type: a breach of the caller's duty (R336). The level of CS does not
matter: the register takes the write either way (20_memory.md R98). -/
def State.breaches (s : State) (w : BusWrite) : Bool :=
  s.rumbleType && decide (w.addr = s.params.m5Ramb) && w.data.getLsbD 3

/-- `CartWrite`: the cartridge takes the event (R68). -/
def deliver (w : BusWrite) (s : State) : State :=
  { s with
    cart := s.cart.accept w
    busWrites := s.busWrites ++ [w]
    rumbleBreach := s.rumbleBreach || s.breaches w }

/-! ### Micro-steps -/

/-- One step of the sequencer inside an operation. -/
inductive Micro where
  /-- `Drive(f, level)` (R130). -/
  | drive (f : OutField) (level : Bool)
  /-- the one GPIO write of `reset()` (R132) -/
  | safe
  /-- `v <- 0` (R135) -/
  | clearV
  /-- `v[i] <- Sample()` (R131, R135) -/
  | sample (i : Nat)
  /-- `BankBuffer[off] <- v`: the caller takes the byte a read cell returned (R152) -/
  | store (off : Nat)
deriving DecidableEq, Repr

/-- `Drive(f, level)`: one field changes, the word is written, the sequencer waits (R130). Asserting WR is the pulse that
delivers the bus write event (R68, R134; log 7). -/
def drive (f : OutField) (level : Bool) (s : State) : State :=
  let t := settle (gpioWrite (s.bss.set f level) s)
  if f = .wr ∧ level = t.params.levels.wr then deliver t.writeEvent t else t

/-- `BSS <- SAFE; GpioWrite(BSS); Settle()` (R132). -/
def driveSafe (s : State) : State := settle (gpioWrite (safeBss s.params.levels) s)

/-- `v[i] <- Sample()`: bit i of the byte being assembled takes the level of DIN_SER (R131). -/
def sampleBit (i : Nat) (s : State) : State :=
  match s.v with
  | some b => { s with v := some (b ||| ((BitVec.ofBool s.dinSer).setWidth 8 <<< i)) }
  | none => s

/-- `BankBuffer[off] <- v`. -/
def storeV (off : Nat) (s : State) : State :=
  match s.v with
  | some b => { s with bankBuffer := Memory.write s.bankBuffer off b, v := none }
  | none => s

def micro (m : Micro) (s : State) : State :=
  match m with
  | .drive f level => drive f level s
  | .safe => driveSafe s
  | .clearV => { s with v := some 0 }
  | .sample i => sampleBit i s
  | .store off => storeV off s

/-- A sequence of micro-steps, each complete before the next begins (20_memory.md R90). -/
def run : List Micro → State → State
  | [], s => s
  | m :: ms, s => run ms (micro m s)

/-- `Assert(f)` (R9, R130). -/
def assertLine (p : Params) (f : Strobe) : Micro := .drive f.field (levelOf p.levels f)

/-- `Deassert(f)` (R9, R130). -/
def deassertLine (p : Params) (f : Strobe) : Micro := .drive f.field (!levelOf p.levels f)

/-! ### Streams and frames -/

/-- `TxByte` of each byte in turn on a transport with room for them: they stand in TX, and the room is less by them (R84). -/
def txBytes (bs : List Byte) (s : State) : State :=
  { s with tx := s.tx ++ bs, txSpace := s.txSpace.map (· - bs.length) }

/-- The transport has room for n bytes; always, where the host drains by itself (R84; log 11). -/
def State.roomFor (s : State) (n : Nat) : Bool :=
  match s.txSpace with
  | none => true
  | some k => decide (n ≤ k)

/-- `TxByte` blocks (R84, 60_exceptions.md R297): what the transport has room for is sent, the rest waits. -/
def holdSending (bs : List Byte) (next : AfterSend) (s : State) : State :=
  let k := s.txSpace.getD 0
  { txBytes (bs.take k) s with control := .sending (bs.drop k) next }

/-- Bytes sent, and then k; or sent in part and held, where the transport has no room, with `next` standing for k. -/
def sendThen (bs : List Byte) (next : AfterSend) (k : State → State) (s : State) : State :=
  if s.roomFor bs.length then k (txBytes bs s) else holdSending bs next s

/-- Format STATUS (30_encoding.md R106): "Status codes (fixed, stable numeric values)". -/
def statusCode : Status → Byte
  | .ok => 0
  | .unknownCommand => 1
  | .invalidNumRomBanks => 10
  | .invalidNumRamBanks => 11
  | .invalidCartridgeType => 12
  | .invalidRamWriteSize => 21
  | .cartridgeHasNoRam => 22
  | .cartridgeHasNoRtc => 23
  | .invalidRtcWriteSize => 24

/-- The four bytes of a length, least significant first (R82, R104). -/
def lengthBytes (len : Length) : List Byte :=
  [len.extractLsb' 0 8, len.extractLsb' 8 8, len.extractLsb' 16 8, len.extractLsb' 24 8]

/-- The bytes of `EmitHeader(s, len)`, the start of a frame (R104, R240): the status byte, then the length only when it is
above 0. With length 0 they are those of `EmitStatus(s)`. -/
def frameHeader (st : Status) (len : Length) : List Byte :=
  statusCode st :: (if len = 0 then [] else lengthBytes len)

/-- The bytes of `SendBuffer(n)`: BankBuffer[0..n-1] in order (R241). -/
def State.bufferBytes (s : State) (n : Nat) : List Byte := (List.range n).map s.readBuffer

/-! ### Beginning and ending, and the exception entry -/

/-- A command starts: its selector is kept, no descriptor and no byte exists yet (R33, R242, R243). -/
def startCommand (c : Byte) (s : State) : State :=
  { s with selector := some c, descriptor := none, v := none }

/-- A command ends: the sequencer is idle and no working value survives (R33, R34, R242). -/
def endCommand (s : State) : State :=
  { s with control := .idle, selector := none, descriptor := none, v := none }

/-- `raise S` (R290), the exception entry: one status byte, then the end of the command. Nothing is saved, no mode
changes and there is no handler; nothing is returned from: the next command's `reset_cartridge` is the recovery (R293). The
byte may wait in `TxByte` like any other (R297). -/
def raise (st : Status) (s : State) : State := sendThen [statusCode st] .ended endCommand s

/-- An operation begins only when none is in progress (20_memory.md R92, U14) and no contention is recorded (R296). -/
def begin (s : State) (k : State → Result) : Result :=
  if s.contention then .fault .busContention
  else match s.control with
    | .idle => k s
    | .awaitLength _ _ => .refused .commandInProgress
    | .awaitData _ _ _ _ => .refused .commandInProgress
    | .sending _ _ => .refused .commandInProgress

/-- An operation that may have met two drivers on D ends: a recorded contention is the fault (R296). -/
def conclude (s : State) : Result := if s.contention then .fault .busContention else .next s

end Sys2Proof.Machine
end

