-- ==== Sys2Proof/Machine/Operands.lean ====
section
/-! DEFINITION. The operand formats: bank operands (30_encoding.md R111), the host's length word (R110), the effective
address (R113), and payload lengths (R114). -/

namespace Sys2Proof.Machine

/-- BANK7: the 5-bit low field, `zext_8(bank[4:0])`. -/
def bank7Low (bank : BankOperand) : Byte := (bank.extractLsb' 0 5).setWidth 8

/-- BANK7: the 2-bit high field, `zext_8(bank[6:5])`. -/
def bank7High (bank : BankOperand) : Byte := (bank.extractLsb' 5 2).setWidth 8

/-- BANK8: `bank[7:0]`. -/
def bank8 (bank : BankOperand) : Byte := bank.extractLsb' 0 8

/-- BANK9: the low register, `bank[7:0]`. -/
def bank9Low (bank : BankOperand) : Byte := bank.extractLsb' 0 8

/-- BANK9: the high register, `zext_8(bank[8])`. -/
def bank9High (bank : BankOperand) : Byte := (bank.extractLsb' 8 1).setWidth 8

/-- RBANK: `bank[7:0]`. -/
def ramBank8 (bank : BankOperand) : Byte := bank.extractLsb' 0 8

/-- RBANK on MBC1: `zext_8(bank[1:0])`. -/
def ramBank2 (bank : BankOperand) : Byte := (bank.extractLsb' 0 2).setWidth 8

/-- The 16-bit operand for a bank counter, which is at most 511 (R9, R33). -/
def bankOperand (bank : Nat) : BankOperand := BitVec.ofNat 16 bank

/-- HLEN: `b3 ++ b2 ++ b1 ++ b0` (R110). -/
def hostLength (b0 b1 b2 b3 : Byte) : Length := b3 ++ b2 ++ b1 ++ b0

/-- `addr = base + off`, formed in 16 bits (R113). -/
def effectiveAddress (base : Addr) (off : Nat) : Addr := base + BitVec.ofNat 16 off

/-- `bank_count * unit` as a 32-bit payload length (R114(c)). -/
def payloadLength (banks unit : Nat) : Length := BitVec.ofNat 32 (banks * unit)

/-- Window bases (00_scope.md R5). -/
def winFixed : Addr := 0x0000
def winSwitch : Addr := 0x4000
def winRam : Addr := 0xA000

/-- Unit sizes and the header length (R5). -/
def romBankSize : Nat := 16384
def ramBankSize : Nat := 8192
def headerLen : Nat := 0x50

end Sys2Proof.Machine
end

