-- ==== Sys2Proof/Machine/BusDriver.lean ====
section
/-! DEFINITION. The BusDriver operations (40_busdriver.md R132 to R135) as sequences of micro-steps, and their meanings. -/

namespace Sys2Proof.Machine

/-- Bits k-1 down to 0 presented on a serial line, each followed by clock low, clock high (R133, R134). -/
def shiftBits (ser clk : OutField) (bit : Nat → Bool) : Nat → List Micro
  | 0 => []
  | k + 1 => .drive ser (bit k) :: .drive clk false :: .drive clk true :: shiftBits ser clk bit k

/-- `shift_out_address(addr)` (R133): a SERA word, then the latch pulse. -/
def shiftOutAddressSeq (addr : Addr) : List Micro :=
  shiftBits .addrSer .addrClk addr.getLsbD 16 ++
    [.drive .addrClk false, .drive .addrLatch true, .drive .addrLatch false]

/-- `shift_out_data(byte)` (R134): a SERD word, the latch pulse, then output-enable around write-strobe. -/
def shiftOutDataSeq (p : Params) (byte : Byte) : List Micro :=
  shiftBits .doutSer .doutClk byte.getLsbD 8 ++
    [.drive .doutClk false, .drive .doutLatch true, .drive .doutLatch false,
     assertLine p .doutOe, assertLine p .wr, deassertLine p .wr, deassertLine p .doutOe]

/-- Bits k-1 down to 0 sampled, each before its clock pulse (R135). -/
def sampleBits : Nat → List Micro
  | 0 => []
  | k + 1 => .sample k :: .drive .dinClk false :: .drive .dinClk true :: sampleBits k

/-- `shift_in_data()` (R135): load pulse, eight samples, clock to rest; the result is `v`. -/
def shiftInDataSeq (p : Params) : List Micro :=
  [assertLine p .dinLoad, deassertLine p .dinLoad, .clearV] ++ sampleBits 8 ++ [.drive .dinClk false]

/-- `reset` (R132). -/
def execReset (s : State) : Result := begin s fun s => .next (driveSafe s)

/-- `shift_out_address` (R133). -/
def execShiftOutAddress (addr : Addr) (s : State) : Result :=
  begin s fun s => conclude (run (shiftOutAddressSeq addr) s)

/-- `shift_out_data` (R134). -/
def execShiftOutData (byte : Byte) (s : State) : Result :=
  begin s fun s => conclude (run (shiftOutDataSeq s.params byte) s)

/-- `shift_in_data` (R135). -/
def execShiftInData (s : State) : Result :=
  begin s fun s => conclude (run (shiftInDataSeq s.params) s)

end Sys2Proof.Machine
end

