-- ==== Sys2Proof/Machine/CartridgeCommon.lean ====
section
/-! DEFINITION. The common cartridge primitives and bus cells (41_cartridge_common.md R150 to R153), as sequences and as
meanings, and the window transfers the variants of files 42 to 44 are built from (R155). -/

namespace Sys2Proof.Machine

/-- `register_write(address, value)` (R150). -/
def registerWriteSeq (p : Params) (address : Addr) (value : Byte) : List Micro :=
  shiftOutAddressSeq address ++ shiftOutDataSeq p value

/-- `REGS(V)`: the four register addresses of a variant, in the order `reset_cartridge` zeroes them (R151). -/
def variantRegs (p : Params) : Variant → List Addr
  | .mbc1 => [p.m1Ramg, p.m1Bank1, p.m1Bank2, p.m1Mode]
  | .mbc3 => [p.m3Ramg, p.m3Romb, p.m3Ramb, p.m3Latch]
  | .mbc5 => [p.m5Ramg, p.m5Romb0, p.m5Romb1, p.m5Ramb]

/-- Register writes one after another. -/
def registerWritesSeq (p : Params) : List (Addr × Byte) → List Micro
  | [] => []
  | (a, d) :: ws => registerWriteSeq p a d ++ registerWritesSeq p ws

/-- `reset_cartridge(V)` (R151). -/
def resetCartridgeSeq (p : Params) (v : Variant) : List Micro :=
  .safe :: (registerWritesSeq p ((variantRegs p v).map fun r => (r, 0)) ++ [.safe])

/-- `read_cell(addr)` (R152); the result is `v`. -/
def readCellSeq (p : Params) (addr : Addr) : List Micro :=
  assertLine p .rd :: (shiftOutAddressSeq addr ++ shiftInDataSeq p ++ [deassertLine p .rd])

/-- `write_cell(addr, byte)` (R153). -/
def writeCellSeq (p : Params) (addr : Addr) (byte : Byte) : List Micro := registerWriteSeq p addr byte

/-- `for off = 0 to n-1: BankBuffer[off] <- read_cell(base + off)`. -/
def readWindowSeq (p : Params) (base : Addr) : Nat → List Micro
  | 0 => []
  | n + 1 => readWindowSeq p base n ++ (readCellSeq p (effectiveAddress base n) ++ [.store n])

/-- `for off = 0 to n-1: write_cell(base + off, BankBuffer[off])`; the data stand in BankBuffer before the first cell and
no cell changes them. -/
def writeWindowSeq (p : Params) (base : Addr) (data : Nat → Byte) : Nat → List Micro
  | 0 => []
  | n + 1 => writeWindowSeq p base data n ++ writeCellSeq p (effectiveAddress base n) (data n)

/-- The shape every ROM read has (R170, R180, R200): reset the cartridge, select, read a window, close with `reset()`. -/
def readRomShape (p : Params) (v : Variant) (select : List (Addr × Byte)) (base : Addr) : List Micro :=
  resetCartridgeSeq p v ++ registerWritesSeq p select ++ readWindowSeq p base romBankSize ++ [.safe]

/-- The shape every RAM read has (R172, R181, R201): chip-select asserted around the whole stream. -/
def readRamShape (p : Params) (v : Variant) (select : List (Addr × Byte)) : List Micro :=
  resetCartridgeSeq p v ++ registerWritesSeq p select ++
    (assertLine p .cs :: (readWindowSeq p winRam ramBankSize ++ [deassertLine p .cs, .safe]))

/-- The shape every RAM write has (R173, R182, R202). -/
def writeRamShape (p : Params) (v : Variant) (select : List (Addr × Byte)) (data : Nat → Byte) : List Micro :=
  resetCartridgeSeq p v ++ registerWritesSeq p select ++
    (assertLine p .cs :: (writeWindowSeq p winRam data ramBankSize ++ [deassertLine p .cs, .safe]))

/-- `register_write` (R150). -/
def execRegisterWrite (address : Addr) (value : Byte) (s : State) : Result :=
  begin s fun s => conclude (run (registerWriteSeq s.params address value) s)

/-- `reset_cartridge` (R151). It opens with `reset()`, so it meets no second driver (R293). -/
def execResetCartridge (v : Variant) (s : State) : Result :=
  begin s fun s => .next (run (resetCartridgeSeq s.params v) s)

/-- `read_cell` (R152). -/
def execReadCell (addr : Addr) (s : State) : Result :=
  begin s fun s => conclude (run (readCellSeq s.params addr) s)

/-- `write_cell` (R153). -/
def execWriteCell (addr : Addr) (byte : Byte) (s : State) : Result :=
  begin s fun s => conclude (run (writeCellSeq s.params addr byte) s)

end Sys2Proof.Machine
end

