-- ==== Sys2Proof/Machine/Flags.lean ====
section
/-! DEFINITION. The block has no condition codes (10_state.md R35). What its commands branch on are predicates over the
descriptor, computed here: the bank counts (45_header_parser.md R220, R221), the family's module (46 R251), and the checks
of the commands in their order of priority (60_exceptions.md R291). -/

namespace Sys2Proof.Machine

/-- `rom_banks`: 2^(code+1) for codes 0 to 8, Error otherwise (R220). -/
def romBanksOf (code : Byte) : BankCount :=
  if code.toNat ≤ 8 then .banks (2 ^ (code.toNat + 1)) else .error

/-- `RAMMAP`: 0, 2, 3, 4, 5 give 0, 1, 4, 16, 8 banks; every other code is Error (R221). -/
def ramBanksOf (code : Byte) : BankCount :=
  if code = 0 then .banks 0
  else if code = 2 then .banks 1
  else if code = 3 then .banks 4
  else if code = 4 then .banks 16
  else if code = 5 then .banks 8
  else .error

/-- `V(family)`: RomOnly is served by the MBC1 module; Unsupported has none (R174, R251). -/
def moduleOf : Family → Option Variant
  | .mbc1 => some .mbc1
  | .romOnly => some .mbc1
  | .mbc3 => some .mbc3
  | .mbc5 => some .mbc5
  | .unsupported => none

/-- What the checks of a command give: the status to raise, or the module and bank count to go on with. -/
inductive Checked where
  | raised (st : Status)
  | passed (v : Variant) (banks : Nat)
deriving DecidableEq, Repr

/-- The last check of each transfer command: the family has a module (R285). -/
def familyCheck (d : Descriptor) (n : Nat) : Checked :=
  match moduleOf d.family with
  | none => .raised .invalidCartridgeType
  | some v => .passed v n

/-- The checks of `read_rom`: ROM-size domain, then family (R245, R291). -/
def romCheck (d : Descriptor) : Checked :=
  match d.romBanks with
  | .error => .raised .invalidNumRomBanks
  | .banks n => familyCheck d n

/-- The checks of `read_ram` and `write_ram`: code 0 or 1, then the domain, then the family (R246, R247, R291). -/
def ramCheck (d : Descriptor) : Checked :=
  if d.ramSizeCode = 0 ∨ d.ramSizeCode = 1 then .raised .cartridgeHasNoRam
  else match d.ramBanks with
    | .error => .raised .invalidNumRamBanks
    | .banks n => familyCheck d n

/-- The test of `read_rtc`: an RTC-capable MBC3 variant (R248). -/
def rtcCapable (d : Descriptor) : Bool := decide (d.family = .mbc3) && d.hasRtc

/-- ASCII 0x20 to 0x7E inclusive (R214). -/
def printable (b : Byte) : Bool := decide (0x20 ≤ b.toNat) && decide (b.toNat ≤ 0x7E)

end Sys2Proof.Machine
end

