-- ==== Sys2Proof/Machine/HeaderParser.lean ====
section
/-! DEFINITION. HeaderParser (45_header_parser.md R210 to R229): `parse`, a pure function of the 80 header bytes and the
table parameters, and the report renderer `REPORT`. -/

namespace Sys2Proof.Machine

/-- n bytes of the header from an offset on (R210). -/
def headerBytes (b : Nat → Byte) (offset n : Nat) : List Byte := (List.range n).map fun i => b (offset + i)

/-- The longest prefix of the title bytes that is printable (R214). -/
def titleOf (b : Nat → Byte) : List Byte := (headerBytes b 0x34 16).takeWhile printable

/-- The CGB flag: the last title byte (R215, conflict C3). -/
def cgbOf (last : Byte) : CgbFlag := if last = 0x80 then .compatible else if last = 0xC0 then .exclusive else .plain

/-- The manufacturer code: title bytes 11 to 14 when there is a CGB flag, otherwise absent (R216). -/
def manufacturerOf (b : Nat → Byte) : Option (List Byte) :=
  if cgbOf (b 0x43) = .plain then none else some (headerBytes b 0x3F 4)

/-- The row of a code without one (R222). -/
def unrecognizedRow (code : Byte) : TypeRow := ⟨code, "unrecognized", .unsupported, false, false, false⟩

/-- `TYPE_TABLE(code)` (R219, R222). -/
def typeRowOf (table : List TypeRow) (code : Byte) : TypeRow :=
  (table.find? fun r => r.code == code).getD (unrecognizedRow code)

/-- `OLD_LICENSEE(b)` with its explicit default (R218). -/
def oldLicenseeName (b : Byte) : String := (Config.oldLicensee b).getD "not recognized"

/-- `NEW_LICENSEE(c1, c2)` with its explicit default (R217). -/
def newLicenseeName (c1 c2 : Byte) : String := (Config.newLicensee c1 c2).getD "not recognized"

/-- `parse(b)` (R211): total; it reads b[0..0x4F] and nothing else. -/
def parseHeader (p : Params) (b : Nat → Byte) : Descriptor :=
  let row := typeRowOf p.typeTable (b 0x47)
  { entryPoint := headerBytes b 0x00 4
    logoValid := decide (headerBytes b 0x04 48 = p.logo)
    title := titleOf b
    cgb := cgbOf (b 0x43)
    manufacturer := manufacturerOf b
    newLicensee := (b 0x44, b 0x45)
    newLicenseeName := newLicenseeName (b 0x44) (b 0x45)
    sgbFlag := b 0x46
    cartType := b 0x47
    typeLabel := row.label
    family := row.family
    hasRam := row.hasRam
    hasBattery := row.hasBattery
    hasRtc := row.hasRtc
    romSizeCode := b 0x48
    romBanks := romBanksOf (b 0x48)
    ramSizeCode := b 0x49
    ramBanks := ramBanksOf (b 0x49)
    destination := b 0x4A
    oldLicensee := b 0x4B
    oldLicenseeName := oldLicenseeName (b 0x4B)
    romVersion := b 0x4C
    headerChecksum := b 0x4D
    globalChecksum := (b 0x4E, b 0x4F) }

/-- The display string of the CGB flag; the source words only one of the three (R215). -/
def cgbDisplay : CgbFlag → Option String
  | .compatible => some "CGB supported, but backwards compatible"
  | .exclusive => none
  | .plain => none

/-- `REPORT_MAX`, at least 1 (R6, R225; log 20). -/
def reportMax : Nat := max 1 Config.reportMaxWord.toNat

/-- `REPORT(d)`: a byte string of length 1 to `REPORT_MAX` that depends on d alone (R225; log 20). -/
def renderReport (d : Descriptor) : List Byte :=
  Config.reportHead d :: (Config.reportTail d).take (reportMax - 1)

/-- The descriptor of the header in BankBuffer[0..0x4F] (R211, R243). -/
def State.bufferDescriptor (s : State) : Descriptor := parseHeader s.params s.readBuffer

/-- `parse` on BankBuffer, the result kept as the descriptor (R211; log 19). -/
def parseBuffer (s : State) : State := { s with descriptor := some s.bufferDescriptor }

/-- `HeaderParser.parse` (R211). -/
def execParse (s : State) : Result := begin s fun s => .next (parseBuffer s)

end Sys2Proof.Machine
end

