-- ==== Sys2Proof/Machine/Mbc1.lean ====
section
/-! DEFINITION. The MBC1 variant, also the module of the RomOnly family (42_mbc1.md R170 to R174). -/

namespace Sys2Proof.Machine

/-- The three writes of `MBC1.read_rom`: mode, low field, high field (R170). -/
def mbc1RomSelect (p : Params) (bank : BankOperand) : List (Addr × Byte) :=
  [(p.m1Mode, 0x01), (p.m1Bank1, bank7Low bank), (p.m1Bank2, bank7High bank)]

/-- The fixed window when the low five bits are zero, otherwise the switchable one (R170). -/
def mbc1RomBase (bank : BankOperand) : Addr := if bank7Low bank = 0 then winFixed else winSwitch

/-- `MBC1.read_rom(bank)` (R170). -/
def mbc1ReadRomSeq (p : Params) (bank : BankOperand) : List Micro :=
  readRomShape p .mbc1 (mbc1RomSelect p bank) (mbc1RomBase bank)

/-- `MBC1.read_header()` (R171): no bank selection, the 0x50-byte header window. -/
def mbc1ReadHeaderSeq (p : Params) : List Micro :=
  resetCartridgeSeq p .mbc1 ++ readWindowSeq p p.headerBase headerLen ++ [.safe]

/-- The three writes of the MBC1 RAM operations: gate, mode 1, RAM bank in the high register (R172; log 23). -/
def mbc1RamSelect (p : Params) (bank : BankOperand) : List (Addr × Byte) :=
  [(p.m1Ramg, p.ramEnable), (p.m1Mode, 0x01), (p.m1Bank2, ramBank2 bank)]

/-- `MBC1.read_ram(bank)` (R172). -/
def mbc1ReadRamSeq (p : Params) (bank : BankOperand) : List Micro := readRamShape p .mbc1 (mbc1RamSelect p bank)

/-- `MBC1.write_ram(bank)` (R173). -/
def mbc1WriteRamSeq (p : Params) (bank : BankOperand) (data : Nat → Byte) : List Micro :=
  writeRamShape p .mbc1 (mbc1RamSelect p bank) data

def execMbc1ReadRom (bank : BankOperand) (s : State) : Result :=
  begin s fun s => .next (run (mbc1ReadRomSeq s.params bank) s)

def execMbc1ReadHeader (s : State) : Result :=
  begin s fun s => .next (run (mbc1ReadHeaderSeq s.params) s)

def execMbc1ReadRam (bank : BankOperand) (s : State) : Result :=
  begin s fun s => .next (run (mbc1ReadRamSeq s.params bank) s)

def execMbc1WriteRam (bank : BankOperand) (s : State) : Result :=
  begin s fun s => .next (run (mbc1WriteRamSeq s.params bank s.readBuffer) s)

end Sys2Proof.Machine
end

