-- ==== Sys2Proof/Machine/Mbc3.lean ====
section
/-! DEFINITION. The MBC3 variant with its real-time clock (43_mbc3.md R180 to R185). -/

namespace Sys2Proof.Machine

/-- The one write of `MBC3.read_rom` (R180). -/
def mbc3RomSelect (p : Params) (bank : BankOperand) : List (Addr × Byte) := [(p.m3Romb, bank8 bank)]

/-- The fixed window only for the value 0 of the combined register (R180, conflict C5). -/
def mbc3RomBase (bank : BankOperand) : Addr := if bank8 bank = 0 then winFixed else winSwitch

/-- `MBC3.read_rom(bank)` (R180). -/
def mbc3ReadRomSeq (p : Params) (bank : BankOperand) : List Micro :=
  readRomShape p .mbc3 (mbc3RomSelect p bank) (mbc3RomBase bank)

/-- Gate and RAM bank (R181, R182). -/
def mbc3RamSelect (p : Params) (bank : BankOperand) : List (Addr × Byte) :=
  [(p.m3Ramg, p.ramEnable), (p.m3Ramb, ramBank8 bank)]

/-- `MBC3.read_ram(bank)` (R181). -/
def mbc3ReadRamSeq (p : Params) (bank : BankOperand) : List Micro := readRamShape p .mbc3 (mbc3RamSelect p bank)

/-- `MBC3.write_ram(bank)` (R182). -/
def mbc3WriteRamSeq (p : Params) (bank : BankOperand) (data : Nat → Byte) : List Micro :=
  writeRamShape p .mbc3 (mbc3RamSelect p bank) data

/-- `for k = 0 to n-1`: select RTC register k, then one read cell at 0xA000 with chip-select around it (R183). -/
def rtcCellsSeq (p : Params) : Nat → List Micro
  | 0 => []
  | n + 1 => rtcCellsSeq p n ++
      (registerWriteSeq p p.m3Ramb (p.rtcBase + BitVec.ofNat 8 n) ++
        (assertLine p .cs :: (readCellSeq p winRam ++ [.store n, deassertLine p .cs])))

/-- `MBC3.read_rtc()` (R183): gate, latch 0 then 1, the five registers. -/
def mbc3ReadRtcSeq (p : Params) : List Micro :=
  resetCartridgeSeq p .mbc3 ++
    registerWritesSeq p [(p.m3Ramg, p.ramEnable), (p.m3Latch, 0x00), (p.m3Latch, 0x01)] ++
    rtcCellsSeq p 5 ++ [.safe]

def execMbc3ReadRom (bank : BankOperand) (s : State) : Result :=
  begin s fun s => .next (run (mbc3ReadRomSeq s.params bank) s)

def execMbc3ReadRam (bank : BankOperand) (s : State) : Result :=
  begin s fun s => .next (run (mbc3ReadRamSeq s.params bank) s)

def execMbc3WriteRam (bank : BankOperand) (s : State) : Result :=
  begin s fun s => .next (run (mbc3WriteRamSeq s.params bank s.readBuffer) s)

def execMbc3ReadRtc (s : State) : Result :=
  begin s fun s => .next (run (mbc3ReadRtcSeq s.params) s)

/-- `MBC3.write_rtc()` (R184): "It performs no bus activity and changes no state". -/
def execMbc3WriteRtc (s : State) : Result := begin s fun s => .next s

end Sys2Proof.Machine
end

