-- ==== Sys2Proof/Machine/Mbc5.lean ====
section
/-! DEFINITION. The MBC5 variant (44_mbc5.md R200 to R203). -/

namespace Sys2Proof.Machine

/-- The two writes of `MBC5.read_rom`: low eight bits, then bit 8 (R200). -/
def mbc5RomSelect (p : Params) (bank : BankOperand) : List (Addr × Byte) :=
  [(p.m5Romb0, bank9Low bank), (p.m5Romb1, bank9High bank)]

/-- `MBC5.read_rom(bank)` (R200): the switchable window for every bank. -/
def mbc5ReadRomSeq (p : Params) (bank : BankOperand) : List Micro :=
  readRomShape p .mbc5 (mbc5RomSelect p bank) winSwitch

/-- Gate and RAM bank; bit 3 is neither checked nor masked (R201). -/
def mbc5RamSelect (p : Params) (bank : BankOperand) : List (Addr × Byte) :=
  [(p.m5Ramg, p.ramEnable), (p.m5Ramb, ramBank8 bank)]

/-- `MBC5.read_ram(bank)` (R201). -/
def mbc5ReadRamSeq (p : Params) (bank : BankOperand) : List Micro := readRamShape p .mbc5 (mbc5RamSelect p bank)

/-- `MBC5.write_ram(bank)` (R202). -/
def mbc5WriteRamSeq (p : Params) (bank : BankOperand) (data : Nat → Byte) : List Micro :=
  writeRamShape p .mbc5 (mbc5RamSelect p bank) data

def execMbc5ReadRom (bank : BankOperand) (s : State) : Result :=
  begin s fun s => .next (run (mbc5ReadRomSeq s.params bank) s)

def execMbc5ReadRam (bank : BankOperand) (s : State) : Result :=
  begin s fun s => .next (run (mbc5ReadRamSeq s.params bank) s)

def execMbc5WriteRam (bank : BankOperand) (s : State) : Result :=
  begin s fun s => .next (run (mbc5WriteRamSeq s.params bank s.readBuffer) s)

end Sys2Proof.Machine
end

