-- ==== Sys2Proof/Machine/Command.lean ====
section
/-! DEFINITION. CommandProtocol (46_command_protocol.md R240 to R255): the six host commands and the answer to an unknown
selector. A command is suspended in `RxByte` and `TxByte`, and only there (60_exceptions.md R297): `write_ram` is written as
what the sequencer does with one received byte, and what follows a send is a value (`AfterSend`) that the hold keeps. -/

namespace Sys2Proof.Machine

/-! ### Variant dispatch (R251) -/

def readRomSeq (p : Params) (v : Variant) (bank : BankOperand) : List Micro :=
  match v with
  | .mbc1 => mbc1ReadRomSeq p bank
  | .mbc3 => mbc3ReadRomSeq p bank
  | .mbc5 => mbc5ReadRomSeq p bank

def readRamSeq (p : Params) (v : Variant) (bank : BankOperand) : List Micro :=
  match v with
  | .mbc1 => mbc1ReadRamSeq p bank
  | .mbc3 => mbc3ReadRamSeq p bank
  | .mbc5 => mbc5ReadRamSeq p bank

def writeRamSeq (p : Params) (v : Variant) (bank : BankOperand) (data : Nat → Byte) : List Micro :=
  match v with
  | .mbc1 => mbc1WriteRamSeq p bank data
  | .mbc3 => mbc3WriteRamSeq p bank data
  | .mbc5 => mbc5WriteRamSeq p bank data

/-! ### The header, and the streaming of banks -/

/-- `ReadDescriptor()` (R243): the header by the MBC1 path, then `parse`. -/
def readDescriptor (s : State) : State := parseBuffer (run (mbc1ReadHeaderSeq s.params) s)

/-- The operation that reads one bank of a payload (R245, R246). -/
def ReadKind.seq : ReadKind → Params → Variant → BankOperand → List Micro
  | .rom => readRomSeq
  | .ram => readRamSeq

/-- The size of one bank of a payload. -/
def ReadKind.unit : ReadKind → Nat
  | .rom => romBankSize
  | .ram => ramBankSize

/-- What one bank of an n-bank payload sends once it stands in BankBuffer: status and length before the first bank only,
then the bank (R245, R246, R252). -/
def bankBytes (kind : ReadKind) (n bank : Nat) (s : State) : List Byte :=
  (if bank = 0 then frameHeader .ok (payloadLength n kind.unit) else []) ++ s.bufferBytes kind.unit

/-- `for bank = 0 to n-1`, its last `left` turns: each bank is read, then sent whole before the next is read; after the last
the command ends (R81, R241, R245, R246, R252). -/
def streamFrom (kind : ReadKind) (v : Variant) (n : Nat) : Nat → State → State
  | 0, s => endCommand s
  | left + 1, s =>
    let t := run (kind.seq s.params v (bankOperand (n - (left + 1)))) s
    sendThen (bankBytes kind n (n - (left + 1)) t) (.nextBank kind v n left) (streamFrom kind v n left) t

/-! ### `parse_header` (R244) -/

/-- `for i: ReportBuf[i] <- r[i]`. -/
def writeReport (r : List Byte) (s : State) : State := { s with reportBuf := Memory.writeBytes s.reportBuf 0 r }

/-- The bytes of `for i = 0 to n-1: TxByte(ReportBuf[i])`. -/
def State.reportBytes (s : State) (n : Nat) : List Byte := (List.range n).map s.readReport

/-- The report rendered into ReportBuf and sent as one frame; then the command ends. -/
def sendReport (r : List Byte) (s : State) : State :=
  let t := writeReport r s
  sendThen (frameHeader .ok (BitVec.ofNat 32 r.length) ++ t.reportBytes r.length) .ended endCommand t

/-- `parse_header` once the descriptor is there. -/
def answerReport (t : State) : State := sendReport (renderReport t.bufferDescriptor) t

def parseHeaderCommand (s : State) : State := answerReport (readDescriptor s)

def execParseHeader (s : State) : Result := begin s fun s => .next (parseHeaderCommand (startCommand s.params.cmdId.parseHeader s))

/-! ### `read_rom` (R245) and `read_ram` (R246) -/

/-- `read_rom` once the descriptor is there. -/
def answerRom (t : State) : State :=
  match romCheck t.bufferDescriptor with
  | .raised st => raise st t
  | .passed v n => streamFrom .rom v n n t

def readRomCommand (s : State) : State := answerRom (readDescriptor s)

def execReadRom (s : State) : Result := begin s fun s => .next (readRomCommand (startCommand s.params.cmdId.readRom s))

/-- `read_ram` once the descriptor is there. -/
def answerRam (t : State) : State :=
  match ramCheck t.bufferDescriptor with
  | .raised st => raise st t
  | .passed v n => streamFrom .ram v n n t

def readRamCommand (s : State) : State := answerRam (readDescriptor s)

def execReadRam (s : State) : Result := begin s fun s => .next (readRamCommand (startCommand s.params.cmdId.readRam s))

/-! ### `write_ram` (R247) -/

/-- A whole bank has come: it is committed to the cartridge; after the last one the command ends (R247). DESIGN CHOICE (log 34):
RAM code 4 on an MBC3 type hands `MBC3.write_ram` the banks 8 to 12, which select clock registers; R182 says the command layer
must not cause that write, R247's loop has no guard, and the loop is followed as R247 gives it (U21). -/
def commitBank (up : Upload) (len : Length) (bank : Nat) (s : State) : State :=
  let t := run (writeRamSeq s.params up.variant (bankOperand bank) s.readBuffer) s
  if bank + 1 < up.bankCount then { t with control := .awaitData up len (bank + 1) 0 } else endCommand t

/-- What follows the bytes an operation has sent (R34). -/
def proceed (next : AfterSend) (s : State) : State :=
  match next with
  | .returned => { s with control := .idle }
  | .ended => endCommand s
  | .nextBank kind v n left => streamFrom kind v n left s
  | .length up => { s with control := .awaitLength up [] }
  | .data up len bank off => { s with control := .awaitData up len bank off }
  | .commit up len bank => commitBank up len bank s

/-- Bytes sent, and what follows them; held in `TxByte` where the transport has no room. -/
def transmit (bs : List Byte) (next : AfterSend) (s : State) : State := sendThen bs next (proceed next) s

/-- The fourth length byte has come: the length is compared, and either refused or acknowledged a second time (R247, R286). -/
def lengthReceived (up : Upload) (len : Length) (s : State) : State :=
  if len = payloadLength up.bankCount ramBankSize then transmit (frameHeader .ok 0) (.data up len 0 0) s
  else raise .invalidRamWriteSize s

/-- One length byte (R110): kept until there are four; not echoed. -/
def acceptLengthByte (up : Upload) (got : List Byte) (x : Byte) (s : State) : State :=
  match got with
  | [b0, b1, b2] => lengthReceived up (hostLength b0 b1 b2 x) s
  | _ => { s with control := .awaitLength up (got ++ [x]) }

/-- What follows the echo of the data byte at `off`: the next one, or the commit of the whole bank (R247). -/
def afterEcho (up : Upload) (len : Length) (bank off : Nat) : AfterSend :=
  if off + 1 < ramBankSize then .data up len bank (off + 1) else .commit up len bank

/-- `BankBuffer[i] <- x`. -/
def storeByte (off : Nat) (x : Byte) (s : State) : State := { s with bankBuffer := Memory.write s.bankBuffer off x }

/-- One data byte: stored, and echoed before anything else happens (R247). -/
def acceptDataByte (up : Upload) (len : Length) (bank off : Nat) (x : Byte) (s : State) : State :=
  transmit [x] (afterEcho up len bank off) (storeByte off x s)

/-- The position is in `RxByte`. -/
def Control.takes : Control → Bool
  | .idle => false
  | .awaitLength _ _ => true
  | .awaitData _ _ _ _ => true
  | .sending _ _ => false

/-- What the suspended command does with the next byte of RX, up to its next `RxByte` or `TxByte` that blocks, or its end. -/
def acceptByte (x : Byte) (s : State) : State :=
  match s.control with
  | .idle => s
  | .awaitLength up got => acceptLengthByte up got x s
  | .awaitData up len bank off => acceptDataByte up len bank off x s
  | .sending _ _ => s

/-- `RxByte` after `RxByte` for as long as the command asks for bytes and RX has one (20_memory.md R84); bytes the command does
not take stay in RX (R247). -/
def takeBytes : List Byte → State → State
  | [], s => { s with rx := [] }
  | x :: xs, s => if s.control.takes then takeBytes xs (acceptByte x s) else { s with rx := x :: xs }

/-- The suspended command goes on with what RX holds. -/
def resumeCommand (s : State) : State := takeBytes s.rx s

/-- `write_ram` once the descriptor is there: the first acknowledgement, then the length (R247). -/
def answerUpload (t : State) : State :=
  match ramCheck t.bufferDescriptor with
  | .raised st => raise st t
  | .passed v n => resumeCommand (transmit (frameHeader .ok 0) (.length { variant := v, bankCount := n }) t)

def writeRamCommand (s : State) : State := answerUpload (readDescriptor s)

def execWriteRam (s : State) : Result := begin s fun s => .next (writeRamCommand (startCommand s.params.cmdId.writeRam s))

/-! ### `read_rtc` (R248), `write_rtc` (R249), unknown selectors (R250) -/

/-- `read_rtc` once the descriptor is there. -/
def answerRtc (t : State) : State :=
  if rtcCapable t.bufferDescriptor then
    let u := run (mbc3ReadRtcSeq t.params) t
    transmit (frameHeader .ok 5 ++ u.bufferBytes 5) .ended u
  else raise .cartridgeHasNoRtc t

def readRtcCommand (s : State) : State := answerRtc (readDescriptor s)

def execReadRtc (s : State) : Result := begin s fun s => .next (readRtcCommand (startCommand s.params.cmdId.readRtc s))

def execWriteRtc (s : State) : Result := begin s fun s => .next (raise .invalidRtcWriteSize (startCommand s.params.cmdId.writeRtc s))

/-- The response to a selector that is no command (R109, R250). -/
def unknownSelector (c : Byte) (s : State) : Result :=
  begin s fun s => .next (raise .unknownCommand (startCommand c s))

def execUnknown0607 (c : Byte) (s : State) : Result := unknownSelector c s
def execUnknown080F (c : Byte) (s : State) : Result := unknownSelector c s
def execUnknown101F (c : Byte) (s : State) : Result := unknownSelector c s
def execUnknown203F (c : Byte) (s : State) : Result := unknownSelector c s
def execUnknown407F (c : Byte) (s : State) : Result := unknownSelector c s
def execUnknown80FF (c : Byte) (s : State) : Result := unknownSelector c s

end Sys2Proof.Machine
end

