-- ==== Sys2Proof/Machine/RegisterRows.lean ====
section
/-! DEFINITION. The REGW rows of the operation table: `register_write` of each MBC register (30_encoding.md R103; 10_state.md
R37 to R39), the value field zero-extended to the data byte (R40). -/

namespace Sys2Proof.Machine

/-- One REGW transaction: `register_write` at the register's address. -/
def regwTransaction (reg : Params → Addr) (d : Byte) (s : State) : Result :=
  begin s fun s => conclude (run (registerWriteSeq s.params (reg s.params) d) s)

def execRegwM1Ramg (g : BitVec 4) (s : State) : Result := regwTransaction Params.m1Ramg (g.setWidth 8) s
def execRegwM1Bank1 (b : BitVec 5) (s : State) : Result := regwTransaction Params.m1Bank1 (b.setWidth 8) s
def execRegwM1Bank2 (h : BitVec 2) (s : State) : Result := regwTransaction Params.m1Bank2 (h.setWidth 8) s
def execRegwM1Mode (m : BitVec 1) (s : State) : Result := regwTransaction Params.m1Mode (m.setWidth 8) s
def execRegwM3Ramg (g : BitVec 4) (s : State) : Result := regwTransaction Params.m3Ramg (g.setWidth 8) s
def execRegwM3Romb (b : BitVec 8) (s : State) : Result := regwTransaction Params.m3Romb b s
def execRegwM3Ramb (sel : BitVec 8) (s : State) : Result := regwTransaction Params.m3Ramb sel s
def execRegwM3Latch (l : BitVec 1) (s : State) : Result := regwTransaction Params.m3Latch (l.setWidth 8) s
def execRegwM5Ramg (g : BitVec 4) (s : State) : Result := regwTransaction Params.m5Ramg (g.setWidth 8) s
def execRegwM5Romb0 (b : BitVec 8) (s : State) : Result := regwTransaction Params.m5Romb0 b s
def execRegwM5Romb1 (h : BitVec 1) (s : State) : Result := regwTransaction Params.m5Romb1 (h.setWidth 8) s
def execRegwM5Ramb (sel : BitVec 8) (s : State) : Result := regwTransaction Params.m5Ramb sel s

end Sys2Proof.Machine
end

