-- ==== Sys2Proof/Machine/StatusCodes.lean ====
section
/-! DEFINITION. The STATUS rows of the operation table (30_encoding.md R106; 60_exceptions.md R281 to R290): OK is a
one-byte frame after which the command goes on (R240, R281); each other code is `raise` (R290). -/

namespace Sys2Proof.Machine

/-- The emission of a code as an operation on its own (log 17). -/
def raiseAlone (st : Status) (s : State) : Result := begin s fun s => .next (raise st s)

/-- `EmitStatus(OK)` (R240, R281): one byte, and the caller goes on. -/
def execStatusOk (s : State) : Result :=
  begin s fun s => .next (sendThen (frameHeader .ok 0) .returned (fun t => { t with control := .idle }) s)

def execStatusUnknownCommand (s : State) : Result := raiseAlone .unknownCommand s
def execStatusInvalidNumRomBanks (s : State) : Result := raiseAlone .invalidNumRomBanks s
def execStatusInvalidNumRamBanks (s : State) : Result := raiseAlone .invalidNumRamBanks s
def execStatusInvalidCartridgeType (s : State) : Result := raiseAlone .invalidCartridgeType s
def execStatusInvalidRamWriteSize (s : State) : Result := raiseAlone .invalidRamWriteSize s
def execStatusCartridgeHasNoRam (s : State) : Result := raiseAlone .cartridgeHasNoRam s
def execStatusCartridgeHasNoRtc (s : State) : Result := raiseAlone .cartridgeHasNoRtc s
def execStatusInvalidRtcWriteSize (s : State) : Result := raiseAlone .invalidRtcWriteSize s

end Sys2Proof.Machine
end

