-- ==== Sys2Proof/Machine/Dispatch.lean ====
section
/-! DEFINITION. One arm per constructor of Instr, each one call of that instruction's meaning. -/

namespace Sys2Proof.Machine

def exec (i : Instr) (s : State) : Host.Outcome State Fault Refusal :=
  match i with
  | .parseHeader => Sys2Proof.Machine.execParseHeader s
  | .readRom => Sys2Proof.Machine.execReadRom s
  | .readRam => Sys2Proof.Machine.execReadRam s
  | .writeRam => Sys2Proof.Machine.execWriteRam s
  | .readRtc => Sys2Proof.Machine.execReadRtc s
  | .writeRtc => Sys2Proof.Machine.execWriteRtc s
  | .unknown0607 cmd => Sys2Proof.Machine.execUnknown0607 cmd s
  | .unknown080F cmd => Sys2Proof.Machine.execUnknown080F cmd s
  | .unknown101F cmd => Sys2Proof.Machine.execUnknown101F cmd s
  | .unknown203F cmd => Sys2Proof.Machine.execUnknown203F cmd s
  | .unknown407F cmd => Sys2Proof.Machine.execUnknown407F cmd s
  | .unknown80FF cmd => Sys2Proof.Machine.execUnknown80FF cmd s
  | .reset => Sys2Proof.Machine.execReset s
  | .shiftOutAddress addr => Sys2Proof.Machine.execShiftOutAddress addr s
  | .shiftOutData byte => Sys2Proof.Machine.execShiftOutData byte s
  | .shiftInData => Sys2Proof.Machine.execShiftInData s
  | .registerWrite address value => Sys2Proof.Machine.execRegisterWrite address value s
  | .resetCartridge variant => Sys2Proof.Machine.execResetCartridge variant s
  | .readCell addr => Sys2Proof.Machine.execReadCell addr s
  | .writeCell addr byte => Sys2Proof.Machine.execWriteCell addr byte s
  | .mbc1ReadRom bank => Sys2Proof.Machine.execMbc1ReadRom bank s
  | .mbc1ReadHeader => Sys2Proof.Machine.execMbc1ReadHeader s
  | .mbc1ReadRam bank => Sys2Proof.Machine.execMbc1ReadRam bank s
  | .mbc1WriteRam bank => Sys2Proof.Machine.execMbc1WriteRam bank s
  | .mbc3ReadRom bank => Sys2Proof.Machine.execMbc3ReadRom bank s
  | .mbc3ReadRam bank => Sys2Proof.Machine.execMbc3ReadRam bank s
  | .mbc3WriteRam bank => Sys2Proof.Machine.execMbc3WriteRam bank s
  | .mbc3ReadRtc => Sys2Proof.Machine.execMbc3ReadRtc s
  | .mbc3WriteRtc => Sys2Proof.Machine.execMbc3WriteRtc s
  | .mbc5ReadRom bank => Sys2Proof.Machine.execMbc5ReadRom bank s
  | .mbc5ReadRam bank => Sys2Proof.Machine.execMbc5ReadRam bank s
  | .mbc5WriteRam bank => Sys2Proof.Machine.execMbc5WriteRam bank s
  | .parse => Sys2Proof.Machine.execParse s
  | .statusOk => Sys2Proof.Machine.execStatusOk s
  | .statusUnknownCommand => Sys2Proof.Machine.execStatusUnknownCommand s
  | .statusInvalidNumRomBanks => Sys2Proof.Machine.execStatusInvalidNumRomBanks s
  | .statusInvalidNumRamBanks => Sys2Proof.Machine.execStatusInvalidNumRamBanks s
  | .statusInvalidCartridgeType => Sys2Proof.Machine.execStatusInvalidCartridgeType s
  | .statusInvalidRamWriteSize => Sys2Proof.Machine.execStatusInvalidRamWriteSize s
  | .statusCartridgeHasNoRam => Sys2Proof.Machine.execStatusCartridgeHasNoRam s
  | .statusCartridgeHasNoRtc => Sys2Proof.Machine.execStatusCartridgeHasNoRtc s
  | .statusInvalidRtcWriteSize => Sys2Proof.Machine.execStatusInvalidRtcWriteSize s
  | .regwM1Ramg g => Sys2Proof.Machine.execRegwM1Ramg g s
  | .regwM1Bank1 b => Sys2Proof.Machine.execRegwM1Bank1 b s
  | .regwM1Bank2 h => Sys2Proof.Machine.execRegwM1Bank2 h s
  | .regwM1Mode m => Sys2Proof.Machine.execRegwM1Mode m s
  | .regwM3Ramg g => Sys2Proof.Machine.execRegwM3Ramg g s
  | .regwM3Romb b => Sys2Proof.Machine.execRegwM3Romb b s
  | .regwM3Ramb sel => Sys2Proof.Machine.execRegwM3Ramb sel s
  | .regwM3Latch l => Sys2Proof.Machine.execRegwM3Latch l s
  | .regwM5Ramg g => Sys2Proof.Machine.execRegwM5Ramg g s
  | .regwM5Romb0 b => Sys2Proof.Machine.execRegwM5Romb0 b s
  | .regwM5Romb1 h => Sys2Proof.Machine.execRegwM5Romb1 h s
  | .regwM5Ramb sel => Sys2Proof.Machine.execRegwM5Ramb sel s

end Sys2Proof.Machine
end

