-- ==== Sys2Proof/Machine/Step.lean ====
section
/-! DEFINITION. One step of the machine: a suspended command goes on, or the idle sequencer runs the command of the next
selector the dispatch loop presents. There is no fetch and no program counter (10_state.md R34, 20_memory.md R93). -/

namespace Sys2Proof.Machine

/-- The command in `RxByte` takes what RX holds; with RX empty it has no step (20_memory.md R84, 60_exceptions.md R297). -/
def stepHeld (s : State) : Host.Outcome State Fault Refusal :=
  match s.rx with
  | [] => .fault .heldForHostByte
  | _ :: _ => .next (resumeCommand s)

/-- The operation in `TxByte` sends what the transport has room for and goes on; with no room it has no step (R84, R297). -/
def stepSending (rest : List Byte) (next : AfterSend) (s : State) : Host.Outcome State Fault Refusal :=
  if s.txSpace = some 0 then .fault .heldForHostSpace else .next (resumeCommand (transmit rest next s))

/-- The operation a word names, or a refusal where it names none (R107, R117). -/
def stepWord (sel : Selection) (s : State) : Host.Outcome State Fault Refusal :=
  match decode s.params sel with
  | .instr i => exec i s
  | .rejected why => .refused (.noSuchOperation why)

/-- A selector as a word of format CMD (R108). -/
def selectorWord (c : Byte) : Selection := ⟨.cmd, byteWord c⟩

/-- The idle sequencer runs one operation: what the test bench drives directly, if it drives something (log 26), else the
command of the first presented selector (R34, R108, R300). -/
def stepIdle (s : State) : Host.Outcome State Fault Refusal :=
  match s.bench with
  | sel :: rest => stepWord sel { s with bench := rest }
  | [] =>
    match s.pending with
    | [] => .fault .waitingForSelector
    | c :: rest => stepWord (selectorWord c) { s with pending := rest }

def step (s : State) : Host.Outcome State Fault Refusal :=
  if s.contention then .fault .busContention
  else match s.control with
    | .idle => stepIdle s
    | .awaitLength _ _ => stepHeld s
    | .awaitData _ _ _ _ => stepHeld s
    | .sending rest next => stepSending rest next s

/-- s with the word next on the test bench of an idle sequencer, so that the next step runs it (log 16, log 26). -/
def State.withFetchWord (s : State) (nbits w : Nat) : State :=
  { s with control := .idle, contention := false, bench := tableSelection s.params nbits w :: s.bench }

end Sys2Proof.Machine
end

