-- ==== Sys2Proof/Machine/Environment.lean ====
section
/-! DEFINITION. What the outside world can do between two steps (10_state.md R20, R46; 46_command_protocol.md R254;
70_reset_and_hazards.md R320, R328). None of it is a step of the sequencer. -/

namespace Sys2Proof.Machine

/-! ### The host -/

/-- The host makes bytes available (R46). -/
def State.hostSends (bs : List Byte) (s : State) : State := { s with rx := s.rx ++ bs }

/-- Room for more: without bound where either part is. -/
def addRoom (a b : Option Nat) : Option Nat :=
  match a, b with
  | some m, some n => some (m + n)
  | some _, none => none
  | none, some _ => none
  | none, none => none

/-- The transport makes room for more bytes; `none`: from now on the host drains by itself (20_memory.md R84). -/
def State.hostGrants (room : Option Nat) (s : State) : State := { s with txSpace := addRoom s.txSpace room }

/-- The bytes sent that the host has not drained, oldest first. -/
def State.undrained (s : State) : List Byte := s.tx.drop s.txDrained

/-- The host drains the next n bytes the block has sent, or all there are, and each leaves room for another (R84, R254; log 11).
TX stays: it is what the block has sent (R46). -/
def State.hostDrains (n : Nat) (s : State) : State :=
  let k := min n s.undrained.length
  { s with txDrained := s.txDrained + k, txSpace := addRoom s.txSpace (some k) }

/-- The transport has room for k bytes and no more until the host drains (R84, 60_exceptions.md R297). -/
def State.transportBounded (k : Nat) (s : State) : State := { s with txSpace := some k }

/-- The dispatch loop presents a selector after those already presented: the one way the host selects anything (R34, R108,
60_exceptions.md R300). -/
def State.present (c : Byte) (s : State) : State := { s with pending := s.pending ++ [c] }

/-! ### The cartridge -/

/-- Another cartridge, or none, stands in the slot, and powers up there (R320(c), 20_memory.md R72, R96 to R98); only between
commands (R328, U24). -/
def State.insertCartridge (c : Cartridge) (s : State) : State :=
  match s.control with
  | .idle => { s with cart := c.powerUp }
  | .awaitLength _ _ => s
  | .awaitData _ _ _ _ => s
  | .sending _ _ => s

/-- The cartridge in the slot loses its power and has it back: it powers up with the memories it holds (R320(c)). -/
def State.powerCycle (s : State) : State := s.insertCartridge s.cart

/-- The clock of the cartridge in the slot has moved to r (20_memory.md R97 `rtc_live`; log 6). -/
def State.clockMoves (r : RtcRegs) (s : State) : State := { s with cart := s.cart.clockAt r }

end Sys2Proof.Machine
end

