-- ==== Sys2Proof/Safety.lean ====
section
/-! DEFINITION. The terms claims are made in: the safe value invariant INV-SAFE (10_state.md R25), which operations are
cartridge-level (00_scope.md R10), the invariant of the machine, what a finished operation has done to the bus and to
BankBuffer, and how a command is put together from its operations. Addresses, sizes and register lists are spelled out
here from the spec and not taken from the definitions the meanings use. -/

namespace Sys2Proof.Machine

/-- INV-SAFE: BSS equals SAFE (R25). -/
def State.AtRest (s : State) : Prop := s.bss = safeBss s.params.levels

/-- An operation can begin: no command is in progress and no contention is recorded (R34, R92, R296). -/
structure State.Free (s : State) : Prop where
  clean : s.contention = false
  idle  : s.control = .idle

/-- BSS equals SAFE but for the two serial output lines, which a primitive leaves at the last bit it presented
(40_busdriver.md R136). -/
def State.RestsButSerial (s : State) : Prop :=
  { s.bss with addrSer := false, doutSer := false } = safeBss s.params.levels

/-- DIN_LOAD deasserted and the two latch lines low: how every operation leaves them (R25, R133 to R135). -/
structure State.LinesRest (s : State) : Prop where
  load      : s.asserted .dinLoad = false
  addrLatch : s.bss.addrLatch = false
  doutLatch : s.bss.doutLatch = false

/-- "A cartridge-level operation is any operation of the CartridgeProtocol layer or above" (R10): an operation of files 42
to 46 or `reset_cartridge`. The cells and `register_write` are the pieces these are built from and are not
cartridge-level on their own (95_test_vectors.md P1: "`register_write` is not a cartridge-level operation on its own"). -/
def cartridgeLevel : Instr → Bool
  | .parseHeader | .readRom | .readRam | .writeRam | .readRtc | .writeRtc => true
  | .unknown0607 _ | .unknown080F _ | .unknown101F _ | .unknown203F _ | .unknown407F _ | .unknown80FF _ => true
  | .resetCartridge _ => true
  | .mbc1ReadRom _ | .mbc1ReadHeader | .mbc1ReadRam _ | .mbc1WriteRam _ => true
  | .mbc3ReadRom _ | .mbc3ReadRam _ | .mbc3WriteRam _ | .mbc3ReadRtc | .mbc3WriteRtc => true
  | .mbc5ReadRom _ | .mbc5ReadRam _ | .mbc5WriteRam _ | .parse => true
  | .reset | .shiftOutAddress _ | .shiftOutData _ | .shiftInData => false
  | .registerWrite _ _ | .readCell _ | .writeCell _ _ => false
  | .statusOk | .statusUnknownCommand | .statusInvalidNumRomBanks | .statusInvalidNumRamBanks => false
  | .statusInvalidCartridgeType | .statusInvalidRamWriteSize | .statusCartridgeHasNoRam => false
  | .statusCartridgeHasNoRtc | .statusInvalidRtcWriteSize => false
  | .regwM1Ramg _ | .regwM1Bank1 _ | .regwM1Bank2 _ | .regwM1Mode _ => false
  | .regwM3Ramg _ | .regwM3Romb _ | .regwM3Ramb _ | .regwM3Latch _ => false
  | .regwM5Ramg _ | .regwM5Romb0 _ | .regwM5Romb1 _ | .regwM5Ramb _ => false

/-- The operations that begin with `reset_cartridge`: every banked access, and every command that reads the header
(70_reset_and_hazards.md R324, 46_command_protocol.md R243). -/
def startsWithReset : Instr → Bool
  | .parseHeader | .readRom | .readRam | .writeRam | .readRtc => true
  | .resetCartridge _ => true
  | .mbc1ReadRom _ | .mbc1ReadHeader | .mbc1ReadRam _ | .mbc1WriteRam _ => true
  | .mbc3ReadRom _ | .mbc3ReadRam _ | .mbc3WriteRam _ | .mbc3ReadRtc => true
  | .mbc5ReadRom _ | .mbc5ReadRam _ | .mbc5WriteRam _ => true
  | .writeRtc | .mbc3WriteRtc | .parse => false
  | .unknown0607 _ | .unknown080F _ | .unknown101F _ | .unknown203F _ | .unknown407F _ | .unknown80FF _ => false
  | .reset | .shiftOutAddress _ | .shiftOutData _ | .shiftInData => false
  | .registerWrite _ _ | .readCell _ | .writeCell _ _ => false
  | .statusOk | .statusUnknownCommand | .statusInvalidNumRomBanks | .statusInvalidNumRamBanks => false
  | .statusInvalidCartridgeType | .statusInvalidRamWriteSize | .statusCartridgeHasNoRam => false
  | .statusCartridgeHasNoRtc | .statusInvalidRtcWriteSize => false
  | .regwM1Ramg _ | .regwM1Bank1 _ | .regwM1Bank2 _ | .regwM1Mode _ => false
  | .regwM3Ramg _ | .regwM3Romb _ | .regwM3Ramb _ | .regwM3Latch _ => false
  | .regwM5Ramg _ | .regwM5Romb0 _ | .regwM5Romb1 _ | .regwM5Ramb _ => false

/-- The host drains TX by itself, so that `TxByte` never blocks: under which 20_memory.md R84 lets a claim take a send as
finished (log 11). -/
def State.Drains (s : State) : Prop := s.txSpace = none

/-- The bank counts `write_ram` can be suspended with (R221, R247). -/
def Upload.legal (up : Upload) : Bool :=
  up.bankCount == 1 || up.bankCount == 4 || up.bankCount == 8 || up.bankCount == 16

/-- The bank counts of a payload: 2^(code+1) for code 0 to 8, or one of the RAM counts above 0 (R220, R221). -/
def ReadKind.counts : ReadKind → Nat → Bool
  | .rom, n => decide (n ∈ [2, 4, 8, 16, 32, 64, 128, 256, 512])
  | .ram, n => decide (n ∈ [1, 4, 8, 16])

/-- The working values of a `write_ram` in its data loop are in their ranges (R33, R247). -/
def Upload.within (up : Upload) (len : Length) (bank off : Nat) : Bool :=
  up.legal && decide (len = payloadLength up.bankCount ramBankSize) && decide (bank < up.bankCount) &&
    decide (off < ramBankSize)

/-- So are those of an operation held in `TxByte` (R33). -/
def AfterSend.legal : AfterSend → Bool
  | .returned => true
  | .ended => true
  | .nextBank kind _ n left => kind.counts n && decide (left < n)
  | .length up => up.legal
  | .data up len bank off => up.within len bank off
  | .commit up len bank => up.within len bank 0

/-- The working values of a suspended command are in their ranges, and one held in `TxByte` has a byte to send (R33, R297). -/
def Control.legal : Control → Bool
  | .idle => true
  | .awaitLength up got => up.legal && decide (got.length < 4)
  | .awaitData up len bank off => up.within len bank off
  | .sending rest next => decide (rest ≠ []) && next.legal

/-- The command of this selector runs, with its descriptor and with the bus at rest (R33, R242). -/
structure State.Runs (s : State) (c : Byte) : Prop where
  rest       : s.AtRest
  selector   : s.selector = some c
  descriptor : s.descriptor.isSome = true

/-- The selector of the command that streams this memory (R245, R246). -/
def ReadKind.selector (ids : CommandIds) : ReadKind → Byte
  | .rom => ids.readRom
  | .ram => ids.readRam

/-- What an operation held in `TxByte` is: a STATUS row run on its own, which has no selector; anything that ends with what it
sends; or the one command that goes on so (R33, R297). -/
def State.OwnsSend (s : State) : AfterSend → Prop
  | .returned => s.selector = none
  | .ended => True
  | .nextBank kind _ _ _ => s.Runs (kind.selector s.params.cmdId)
  | .length _ => s.Runs s.params.cmdId.writeRam
  | .data _ _ _ _ => s.Runs s.params.cmdId.writeRam
  | .commit _ _ _ => s.Runs s.params.cmdId.writeRam

/-- Who stands at the control position: an idle sequencer has no selector, and only `write_ram` waits in `RxByte`
(60_exceptions.md R297). -/
def State.OwnsPosition (s : State) : Prop :=
  match s.control with
  | .idle => s.selector = none
  | .awaitLength _ _ => s.Runs s.params.cmdId.writeRam
  | .awaitData _ _ _ _ => s.Runs s.params.cmdId.writeRam
  | .sending _ next => s.OwnsSend next

/-- The memories of a reference cartridge are in canonical form. -/
def Cartridge.wf : Cartridge → Bool
  | .unknown => true
  | .rom c => Memory.wf c.rom && Memory.wf c.ram
  | .mbc1 c => Memory.wf c.rom && Memory.wf c.ram
  | .mbc3 c => Memory.wf c.rom && Memory.wf c.ram
  | .mbc5 c => Memory.wf c.rom && Memory.wf c.ram

/-- The invariant of the machine. (That the pins rest between operations, but for the serial lines, is R25 with R136.) -/
structure State.Inv (s : State) : Prop where
  /-- no two drivers ever stood on the data bus (R296, R331) -/
  clean      : s.contention = false
  /-- between operations every strobe is off, every clock and latch line low (R25, R136) -/
  rests      : s.RestsButSerial
  /-- BankBuffer is canonical and holds indexes 0 to 16383 only (R43) -/
  bufferWf   : Memory.wf s.bankBuffer = true
  bufferSize : Memory.within romBankSize s.bankBuffer = true
  /-- ReportBuf is canonical and stays within its capacity (R44) -/
  reportWf   : Memory.wf s.reportBuf = true
  reportSize : Memory.within reportMax s.reportBuf = true
  /-- the working values of a suspended command are legal (R33, R247) -/
  legal      : s.control.legal = true
  /-- the position belongs to the command that can stand there (R33, R242, R297) -/
  position   : s.OwnsPosition
  /-- the host has drained no byte that was not sent (R46) -/
  drained    : s.txDrained ≤ s.tx.length
  /-- the cartridge's memories are canonical -/
  cartWf     : s.cart.wf = true

/-! ### What a finished operation has done -/

/-- Register writes as the bus write events they deliver: CS deasserted (20_memory.md R68, R71). -/
def registerEvents (ws : List (Addr × Byte)) : List BusWrite := ws.map fun w => ⟨w.1, false, w.2⟩

/-- The bytes of one RAM bank as the bus write events of its 8192 write cells: CS asserted (R62, R68, R71). -/
def ramEvents (data : Nat → Byte) : List BusWrite :=
  (List.range 8192).map fun i => ⟨0xA000 + BitVec.ofNat 16 i, true, data i⟩

/-- A cartridge after a list of bus write events (R68). -/
def cartAfter (c : Cartridge) (es : List BusWrite) : Cartridge := es.foldl Cartridge.accept c

/-- What no operation of files 40 to 44 touches. -/
structure SameElsewhere (s t : State) : Prop where
  params     : t.params = s.params
  reportBuf  : t.reportBuf = s.reportBuf
  tx         : t.tx = s.tx
  txDrained  : t.txDrained = s.txDrained
  rx         : t.rx = s.rx
  control    : t.control = s.control
  selector   : t.selector = s.selector
  descriptor : t.descriptor = s.descriptor
  pending    : t.pending = s.pending
  bench      : t.bench = s.bench
  txSpace    : t.txSpace = s.txSpace
  contention : t.contention = s.contention

/-- A finished operation of files 41 to 44 has delivered these events and no other, has left BSS at SAFE, and took n settle
waits. -/
structure BusDone (s t : State) (es : List BusWrite) (n : Nat) : Prop where
  rest    : t.bss = safeBss s.params.levels
  events  : t.busWrites = s.busWrites ++ es
  cart    : t.cart = cartAfter s.cart es
  breach  : t.rumbleBreach = (s.rumbleBreach || es.any s.breaches)
  settles : t.settles = s.settles + n
  same    : SameElsewhere s t

/-- The latches after the last address and the last data byte an operation shifted out. -/
structure Latched (t : State) (a : Addr) (d : Byte) : Prop where
  asr  : t.asr = a
  alat : t.alat = a
  dsr  : t.dsr = d
  dlat : t.dlat = d

/-- BankBuffer[i] holds the byte the cartridge drives for base + i, for each i below n; where nothing fixes that byte it is
a draw made by this operation, and nothing is said of its value (R70, R81). Bytes from n on are as before (R43). -/
def WindowInBuffer (s t : State) (base : Addr) (n : Nat) (cs : Bool) : Prop :=
  ∀ i, (i < n → ∃ k, s.draws ≤ k ∧ k < t.draws ∧
      t.readBuffer i = (t.cart.answer (base + BitVec.ofNat 16 i) cs).getD (Config.freeByte k)) ∧
    (n ≤ i → t.readBuffer i = s.readBuffer i)

/-- What an operation that reads nothing leaves alone as well. -/
structure NothingRead (s t : State) : Prop where
  isr        : t.isr = s.isr
  v          : t.v = s.v
  draws      : t.draws = s.draws
  bankBuffer : t.bankBuffer = s.bankBuffer

/-- The four zero writes of `reset_cartridge(V)`, in order (41_cartridge_common.md R151). -/
def registerZeros (p : Params) : Variant → List (Addr × Byte)
  | .mbc1 => [(p.m1Ramg, 0), (p.m1Bank1, 0), (p.m1Bank2, 0), (p.m1Mode, 0)]
  | .mbc3 => [(p.m3Ramg, 0), (p.m3Romb, 0), (p.m3Ramb, 0), (p.m3Latch, 0)]
  | .mbc5 => [(p.m5Ramg, 0), (p.m5Romb0, 0), (p.m5Romb1, 0), (p.m5Ramb, 0)]

/-- The register writes that open a RAM bank, in order (42 R172, 43 R181, 44 R201). -/
def ramBankWrites (p : Params) (bank : BankOperand) : Variant → List (Addr × Byte)
  | .mbc1 => [(p.m1Ramg, p.ramEnable), (p.m1Mode, 0x01), (p.m1Bank2, (bank.extractLsb' 0 2).setWidth 8)]
  | .mbc3 => [(p.m3Ramg, p.ramEnable), (p.m3Ramb, bank.extractLsb' 0 8)]
  | .mbc5 => [(p.m5Ramg, p.ramEnable), (p.m5Ramb, bank.extractLsb' 0 8)]

/-- Settle waits of a RAM bank transfer outside its cells: 330 for `reset_cartridge`, 82 for each register write, one for
each drive of CS, one for `reset()` (70_reset_and_hazards.md R341). -/
def ramBankSettles : Variant → Nat
  | .mbc1 => 330 + 246 + 2 + 1
  | .mbc3 => 330 + 164 + 2 + 1
  | .mbc5 => 330 + 164 + 2 + 1

/-- Every event of `V.write_ram(bank)` (42 R173, 43 R182, 44 R202). -/
def ramBankEvents (p : Params) (v : Variant) (bank : BankOperand) (data : Nat → Byte) : List BusWrite :=
  registerEvents (registerZeros p v ++ ramBankWrites p bank v) ++ ramEvents data

/-- The state `register_write(a, d)` leaves: one event with CS as it stood, the latches, the serial lines at the last bit,
the clocks and latch lines low, DOUT_OE and WR off, 82 settle waits (41_cartridge_common.md R150). -/
def State.wrote (s : State) (a : Addr) (d : Byte) : State :=
  { s with
    bss := { s.bss with addrSer := a.getLsbD 0, addrClk := false, addrLatch := false,
                        doutSer := d.getLsbD 0, doutClk := false, doutLatch := false,
                        doutOe := !s.params.levels.doutOe, wr := !s.params.levels.wr }
    asr := a
    alat := a
    dsr := d
    dlat := d
    cart := s.cart.accept ⟨a, s.asserted .cs, d⟩
    busWrites := s.busWrites ++ [⟨a, s.asserted .cs, d⟩]
    rumbleBreach := s.rumbleBreach || s.breaches ⟨a, s.asserted .cs, d⟩
    settles := s.settles + 82 }

/-! ### How a command is put together -/

/-- One operation after another. -/
def andThen (r : Result) (k : State → Result) : Result :=
  match r with
  | .next s => k s
  | .fault f => .fault f
  | .refused f => .refused f

/-- The first thing of every command with selector c: its working values begin, `MBC1.read_header` and `parse` run, h is the
state then and d the descriptor (46_command_protocol.md R243, 10_state.md R33). -/
structure Described (c : Byte) (s h : State) (d : Descriptor) : Prop where
  ran  : andThen (exec .mbc1ReadHeader { s with selector := some c, descriptor := none, v := none }) (exec .parse) = .next h
  desc : h.descriptor = some d

/-- A command that has sent these bytes last and has ended: idle, with no working value left (R33, R34, R290). -/
def State.ended (s : State) (sent : List Byte) : State :=
  { s with tx := s.tx ++ sent, control := .idle, selector := none, descriptor := none, v := none }

/-- The module a family is served by; RomOnly by MBC1, Unsupported by none (R174, R251). -/
def servedBy : Family → Option Variant
  | .mbc1 | .romOnly => some .mbc1
  | .mbc3 => some .mbc3
  | .mbc5 => some .mbc5
  | .unsupported => none

/-- `V.read_rom(bank)`. -/
def readRomOf : Variant → BankOperand → Instr
  | .mbc1 => .mbc1ReadRom
  | .mbc3 => .mbc3ReadRom
  | .mbc5 => .mbc5ReadRom

/-- `V.read_ram(bank)`. -/
def readRamOf : Variant → BankOperand → Instr
  | .mbc1 => .mbc1ReadRam
  | .mbc3 => .mbc3ReadRam
  | .mbc5 => .mbc5ReadRam

/-- `V.write_ram(bank)`. -/
def writeRamOf : Variant → BankOperand → Instr
  | .mbc1 => .mbc1WriteRam
  | .mbc3 => .mbc3WriteRam
  | .mbc5 => .mbc5WriteRam

/-- Status and length of an OK frame with a payload of len bytes: five bytes, the length least significant byte first
(R82, R104). -/
def okHeader (len : Nat) : List Byte :=
  [0x00, BitVec.ofNat 8 len, BitVec.ofNat 8 (len / 256), BitVec.ofNat 8 (len / 65536), BitVec.ofNat 8 (len / 16777216)]

/-- Banks 0 to k-1 of a payload, each read by its operation and then sent whole; the frame's status and length go out once,
after bank 0 has been read and before its first byte (R245, R246, R252). -/
inductive Streamed (op : BankOperand → Instr) (unit len : Nat) : Nat → State → State → Prop where
  | start (s : State) : Streamed op unit len 0 s s
  | bank (k : Nat) (s u r : State) (before : Streamed op unit len k s u)
      (ran : exec (op (BitVec.ofNat 16 k)) u = .next r) :
      Streamed op unit len (k + 1) s
        { r with tx := r.tx ++ (if k = 0 then okHeader len else []) ++ (List.range unit).map r.readBuffer }

/-- A register-write row of the operation table as an address and a data byte: the value field at the low end of the byte,
zeros elsewhere (30_encoding.md R103, 10_state.md R37 to R40). -/
def registerRow (p : Params) : Instr → Option (Addr × Byte)
  | .regwM1Ramg g => some (p.m1Ramg, BitVec.ofNat 8 g.toNat)
  | .regwM1Bank1 b => some (p.m1Bank1, BitVec.ofNat 8 b.toNat)
  | .regwM1Bank2 h => some (p.m1Bank2, BitVec.ofNat 8 h.toNat)
  | .regwM1Mode m => some (p.m1Mode, BitVec.ofNat 8 m.toNat)
  | .regwM3Ramg g => some (p.m3Ramg, BitVec.ofNat 8 g.toNat)
  | .regwM3Romb b => some (p.m3Romb, b)
  | .regwM3Ramb b => some (p.m3Ramb, b)
  | .regwM3Latch l => some (p.m3Latch, BitVec.ofNat 8 l.toNat)
  | .regwM5Ramg g => some (p.m5Ramg, BitVec.ofNat 8 g.toNat)
  | .regwM5Romb0 b => some (p.m5Romb0, b)
  | .regwM5Romb1 h => some (p.m5Romb1, BitVec.ofNat 8 h.toNat)
  | .regwM5Ramb b => some (p.m5Ramb, b)
  | .parseHeader | .readRom | .readRam | .writeRam | .readRtc | .writeRtc => none
  | .unknown0607 _ | .unknown080F _ | .unknown101F _ | .unknown203F _ | .unknown407F _ | .unknown80FF _ => none
  | .reset | .shiftOutAddress _ | .shiftOutData _ | .shiftInData => none
  | .registerWrite _ _ | .resetCartridge _ | .readCell _ | .writeCell _ _ => none
  | .mbc1ReadRom _ | .mbc1ReadHeader | .mbc1ReadRam _ | .mbc1WriteRam _ => none
  | .mbc3ReadRom _ | .mbc3ReadRam _ | .mbc3WriteRam _ | .mbc3ReadRtc | .mbc3WriteRtc => none
  | .mbc5ReadRom _ | .mbc5ReadRam _ | .mbc5WriteRam _ | .parse => none
  | .statusOk | .statusUnknownCommand | .statusInvalidNumRomBanks | .statusInvalidNumRamBanks => none
  | .statusInvalidCartridgeType | .statusInvalidRamWriteSize | .statusCartridgeHasNoRam => none
  | .statusCartridgeHasNoRtc | .statusInvalidRtcWriteSize => none

/-! ### The pins -/

/-- The levels a serial line has at the rising edges of its clock while a sequence of micro-steps runs, first edge first
(30_encoding.md R101, R102). -/
def bitsClocked (ser clk : OutField) : List Micro → State → List Bool
  | [], _ => []
  | m :: ms, s =>
    let t := micro m s
    (if rises (s.bss.get clk) (t.bss.get clk) then [t.bss.get ser] else []) ++ bitsClocked ser clk ms t

/-- The GPIO words of a sequence of micro-steps, one for each Drive or reset write (95_test_vectors.md). -/
def gpioTrace : List Micro → State → List (BitVec 16)
  | [], _ => []
  | m :: ms, s =>
    let t := micro m s
    (match m with
     | .drive _ _ => [t.gpio]
     | .safe => [t.gpio]
     | .clearV => []
     | .sample _ => []
     | .store _ => []) ++ gpioTrace ms t

end Sys2Proof.Machine
end

