-- ==== Sys2Proof/Certificates/Slice0/Obligations.lean ====
section
/-! DEFINITION. The statements for the provers. The terms they share are in Sys2Proof/Safety.lean. An equation
`exec i s = .next t` with t written out as an update of s states the result, the completion and the whole frame at once:
every field t does not name is as in s. -/

open Sys2Proof Sys2Proof.Machine

/-! ### Encodings -/

/-- Decoding an encoded well-formed instruction gives it back, with every operand at every value (30_encoding.md R103, R106,
R108, R111, R116; the layout of INT operands is the model's, log 14). -/
def Obligations.DecodeOfEncode : Prop :=
  ∀ (p : Params) (i : Instr), p.wf = true → i.wf = true → decode p (encode p i) = .instr i

/-- What decodes is well formed, and encoding it gives back the very word and format: no word means two things in one
format, and no bit is ignored (log 14). -/
def Obligations.EncodeOfDecode : Prop :=
  ∀ (p : Params) (sel : Selection) (i : Instr), decode p sel = .instr i → i.wf = true ∧ encode p i = sel

/-- The selector space is total where the parameter `CMD_ID` numbers the six commands (Params.wf, log 25): every byte names an
operation, each of the six bytes its command, and no byte from 0x06 on is one (R6, R108, R109). `write_rtc` answers
INVALID_RTC_WRITE_SIZE always, and every byte from 0x06 on UNKNOWN_COMMAND; these read no header and take nothing from RX. Beside
TX they clear the working values descriptor and v, in which an internal operation run alone before can have left something
(log 29; R249, R250). The host drains TX (log 11). -/
def Obligations.SelectorSpaceIsTotal : Prop :=
  ∀ (p : Params) (c : Byte), p.wf = true → ∃ i, decode p ⟨.cmd, c.setWidth 32⟩ = .instr i ∧
    (c = p.cmdId.parseHeader → i = .parseHeader) ∧ (c = p.cmdId.readRom → i = .readRom) ∧
    (c = p.cmdId.readRam → i = .readRam) ∧ (c = p.cmdId.writeRam → i = .writeRam) ∧
    (c = p.cmdId.readRtc → i = .readRtc) ∧ (c = p.cmdId.writeRtc → i = .writeRtc) ∧
    (c = p.cmdId.writeRtc → ∀ s : State, s.Free → s.Drains → exec i s = .next (s.ended [0x18])) ∧
    (6 ≤ c.toNat → ∀ s : State, s.Free → s.Drains → exec i s = .next (s.ended [0x01]))

/-- A few words written out from the tables of R106, R108, R116 and R37 to R39 (R120: `register_write(M1_MODE, 1)` is 0x6000
then 0x01). The places of the operands in the two INT words 0x05200020 and 0x0001A550 are the model's own layout, for which
R115 gives no bits (log 14), and the CMD words take CMD_ID at its default (log 25). -/
def Obligations.SpecWordsDecode : Prop :=
  decode defaultParams ⟨.cmd, 0x00000003#32⟩ = .instr .writeRam ∧
  decode defaultParams ⟨.cmd, 0x00000010#32⟩ = .instr (.unknown101F 0x10) ∧
  decode defaultParams ⟨.int, 0x00000010#32⟩ = .instr .reset ∧
  decode defaultParams ⟨.int, 0x05200020#32⟩ = .instr (.registerWrite 0x2000 0x05) ∧
  decode defaultParams ⟨.int, 0x0001A550#32⟩ = .instr (.mbc5ReadRom 0x01A5) ∧
  decode defaultParams ⟨.status, 0x00000015#32⟩ = .instr .statusInvalidRamWriteSize ∧
  decode defaultParams ⟨.regw .mbc1, 0x00600001#32⟩ = .instr (.regwM1Mode 1) ∧
  decode defaultParams ⟨.regw .mbc3, 0x00600001#32⟩ = .instr (.regwM3Latch 1) ∧
  decode defaultParams ⟨.regw .mbc5, 0x00300001#32⟩ = .instr (.regwM5Romb1 1)

/-! ### The step -/

/-- An idle sequencer runs the command of the first presented selector, which is consumed; what the host selects so is a row of
format CMD and nothing below it (R34, R108, R300; log 16). Only what a test bench drives directly, the model's own input, can
be an operation of another format (log 26). -/
def Obligations.StepRunsTheDecodedOperation : Prop :=
  ∀ (s : State) (i : Instr), s.Free →
    (∀ c rest, s.bench = [] → s.pending = c :: rest → decode s.params ⟨.cmd, c.setWidth 32⟩ = .instr i →
      step s = exec i { s with pending := rest } ∧ (encode s.params i).format = .cmd) ∧
    (∀ sel rest, s.bench = sel :: rest → decode s.params sel = .instr i → step s = exec i { s with bench := rest })

/-- A status value that R106 does not list and an INT label that R116 does not list name no operation: the step is refused
(R107, R117). -/
def Obligations.UnassignedWordsAreRefused : Prop :=
  ∀ (s : State) (sel : Selection) (rest : List Selection), s.Free → s.bench = sel :: rest →
    ((sel.format = .status ∧ sel.word.toNat ∉ [0, 1, 10, 11, 12, 21, 22, 23, 24]) ∨
      (sel.format = .int ∧ (sel.word.extractLsb' 0 8).toNat ∉
        [0x10, 0x11, 0x12, 0x13, 0x20, 0x21, 0x22, 0x23, 0x30, 0x31, 0x32, 0x33, 0x40, 0x41, 0x42, 0x43, 0x44, 0x50,
          0x51, 0x52, 0x60])) →
    ∃ why, step s = .refused (.noSuchOperation why)

/-- A command waiting in `RxByte` with RX empty has no step, and one byte from the host gives it one; an operation waiting in
`TxByte` on a transport without room has no step, and room, which the host makes by draining TX, gives it one; an idle sequencer
with nothing presented has no step (20_memory.md R84, 60_exceptions.md R297, 10_state.md R34; a hold is a fault of `step`, log 10;
how room is counted is log 11). -/
def Obligations.StepWaitsForTheHost : Prop :=
  ∀ s : State, s.contention = false →
    (s.control.takes = true → s.rx = [] →
      step s = .fault .heldForHostByte ∧ ∀ b, ∃ t, step (s.hostSends [b]) = .next t) ∧
    (∀ rest next, s.control = .sending rest next → s.txSpace = some 0 →
      step s = .fault .heldForHostSpace ∧ (∀ room, room ≠ some 0 → ∃ t, step (s.hostGrants room) = .next t) ∧
      (∀ n, 0 < n → s.txDrained < s.tx.length → ∃ t, step (s.hostDrains n) = .next t)) ∧
    (s.control = .idle → s.pending = [] → s.bench = [] → step s = .fault .waitingForSelector)

/-- While a command is suspended no other operation starts: each is refused, a step goes on with the suspended one and leaves what
is presented alone, and the cartridge is not exchanged (20_memory.md R92, 70_reset_and_hazards.md R328, 60_exceptions.md R300;
93_implementation_defined.md U14, U24). -/
def Obligations.OneOperationAtATime : Prop :=
  ∀ s : State, s.contention = false → s.control ≠ .idle →
    (∀ i, exec i s = .refused .commandInProgress) ∧
    (∀ t, step s = .next t → t.pending = s.pending ∧ t.bench = s.bench) ∧
    (∀ c, s.insertCartridge c = s)

/-! ### The pins and the bus primitives -/

/-- A GPIO write that repeats the levels is not observable, and driving DIN_LATCH moves that line and nothing else (R27,
R28). -/
def Obligations.QuietGpioWrites : Prop :=
  ∀ s : State, s.asserted .dinLoad = false → ¬ (s.asserted .doutOe = true ∧ s.asserted .rd = true) →
    gpioWrite s.bss s = s ∧
    ∀ l, drive .dinLatch l s = { s with bss := { s.bss with dinLatch := l }, settles := s.settles + 1 }

/-- On the wires an address is 16 bits, most significant first, one for each rising edge of ADDR_CLK, then one latch edge; a
data byte is 8 bits, most significant first (R80, R101, R102). -/
def Obligations.SerialWordsAreMsbFirst : Prop :=
  ∀ (s : State) (addr : Addr) (p : Params) (byte : Byte),
    bitsClocked .addrSer .addrClk (shiftOutAddressSeq addr) s = (List.range 16).map (fun k => addr.getLsbD (15 - k)) ∧
    (s.bss.addrLatch = false →
      bitsClocked .addrSer .addrLatch (shiftOutAddressSeq addr) s = [addr.getLsbD 0]) ∧
    bitsClocked .doutSer .doutClk (shiftOutDataSeq p byte) s = (List.range 8).map (fun k => byte.getLsbD (7 - k)) ∧
    (s.bss.doutLatch = false →
      bitsClocked .doutSer .doutLatch (shiftOutDataSeq p byte) s = [byte.getLsbD 0])

/-- `reset()`: SAFE in one GPIO write from any BSS value; BSS only (R132, R323). Under the defaults the word is 0x3C40 (R25). -/
def Obligations.ResetDrivesSafe : Prop :=
  ∀ s : State, s.Free →
    exec .reset s = .next { s with bss := safeBss s.params.levels, settles := s.settles + 1 } ∧
    (s.params = defaultParams → ∀ t, exec .reset s = .next t → t.gpio = 0x3C40#16)

/-- `shift_out_address(addr)`: ASR = ALAT = addr, the three address lines, 51 Drives; RD, CS and DOUT_OE may stand either
way, but not two drivers (R133). -/
def Obligations.ShiftOutAddressLatchesTheAddress : Prop :=
  ∀ (addr : Addr) (s : State), s.Free → s.LinesRest → ¬ (s.asserted .doutOe = true ∧ s.asserted .rd = true) →
    exec (.shiftOutAddress addr) s = .next { s with
      bss := { s.bss with addrSer := addr.getLsbD 0, addrClk := false, addrLatch := false }
      asr := addr
      alat := addr
      settles := s.settles + 51 }

/-- `shift_out_data(byte)` with RD off: DSR = DLAT = byte, exactly one bus write event with the address latched before, the
data lines, 31 Drives (R134, 20_memory.md R68, R69). -/
def Obligations.ShiftOutDataWritesTheByte : Prop :=
  ∀ (byte : Byte) (s : State), s.Free → s.LinesRest → s.asserted .rd = false →
    exec (.shiftOutData byte) s = .next { s with
      bss := { s.bss with doutSer := byte.getLsbD 0, doutClk := false, doutLatch := false,
                          doutOe := !s.params.levels.doutOe, wr := !s.params.levels.wr }
      dsr := byte
      dlat := byte
      cart := s.cart.accept ⟨s.alat, s.asserted .cs, byte⟩
      busWrites := s.busWrites ++ [⟨s.alat, s.asserted .cs, byte⟩]
      rumbleBreach := s.rumbleBreach || s.breaches ⟨s.alat, s.asserted .cs, byte⟩
      settles := s.settles + 31 }

/-- `shift_in_data()`: the result is what D is while DIN_LOAD is asserted: DLAT, or the cartridge's byte, or a draw when D
floats or nothing fixes the byte; DIN_LOAD and DIN_CLK, ISR left with unspecified bits, 19 Drives (R135, R31, R32, R70). -/
def Obligations.ShiftInDataReturnsTheBus : Prop :=
  ∀ s : State, s.Free → ¬ (s.asserted .doutOe = true ∧ s.asserted .rd = true) →
    ∃ (d : Byte) (isr : BitVec 8) (draws : Nat), s.draws < draws ∧
      exec .shiftInData s = .next { s with
        bss := { s.bss with dinLoad := !s.params.levels.dinLoad, dinClk := false }
        isr := isr
        v := some d
        draws := draws
        settles := s.settles + 19 } ∧
      (s.asserted .doutOe = true → d = s.dlat) ∧
      (s.asserted .doutOe = false → s.asserted .rd = true → ∃ k, s.draws ≤ k ∧ k < draws ∧
        d = (s.cart.answer s.alat (s.asserted .cs)).getD (Config.freeByte k)) ∧
      (s.asserted .doutOe = false → s.asserted .rd = false → ∃ k, s.draws ≤ k ∧ k < draws ∧ d = Config.freeByte k)

/-! ### Register writes and cells -/

/-- `register_write(address, value)` = `shift_out_address(address)` followed by `shift_out_data(value)`, from every state;
`write_cell` is the same thing (R150, R153). -/
def Obligations.RegisterWriteIsAddressThenData : Prop :=
  ∀ (a : Addr) (d : Byte) (s : State),
    exec (.registerWrite a d) s = andThen (exec (.shiftOutAddress a) s) (exec (.shiftOutData d)) ∧
    exec (.writeCell a d) s = andThen (exec (.shiftOutAddress a) s) (exec (.shiftOutData d))

/-- `register_write` and `write_cell` complete with RD off and deliver exactly one event with CS as the caller set it (R150,
R153). -/
def Obligations.RegisterWriteDeliversOneEvent : Prop :=
  ∀ (a : Addr) (d : Byte) (s : State), s.Free → s.LinesRest → s.asserted .rd = false →
    exec (.registerWrite a d) s = .next (s.wrote a d) ∧ exec (.writeCell a d) s = .next (s.wrote a d)

/-- The twelve register rows of format REGW: each is `register_write` at its register's address with the value field
zero-extended (30_encoding.md R103, 10_state.md R37 to R40). -/
def Obligations.RegisterRowsWriteTheirRegister : Prop :=
  ∀ (i : Instr) (a : Addr) (d : Byte) (s : State), registerRow s.params i = some (a, d) →
    s.Free → s.LinesRest → s.asserted .rd = false → exec i s = .next (s.wrote a d)

/-- `read_cell(addr)` with DOUT_OE off: the byte the cartridge drives for addr, a draw where nothing fixes it; RD back off, 72
Drives (R152, R70). -/
def Obligations.ReadCellReturnsTheCartridgeByte : Prop :=
  ∀ (a : Addr) (s : State), s.Free → s.LinesRest → s.asserted .doutOe = false →
    ∃ (k : Nat) (isr : BitVec 8) (draws : Nat), s.draws ≤ k ∧ k < draws ∧
      exec (.readCell a) s = .next { s with
        bss := { s.bss with addrSer := a.getLsbD 0, addrClk := false, addrLatch := false,
                            dinLoad := !s.params.levels.dinLoad, dinClk := false, rd := !s.params.levels.rd }
        asr := a
        alat := a
        isr := isr
        v := some ((s.cart.answer a (s.asserted .cs)).getD (Config.freeByte k))
        draws := draws
        settles := s.settles + 72 }

/-- Two drivers on D are a fault of every operation that meets them, and a recorded one is never cleared (R296, R32, R134,
R150). -/
def Obligations.ContentionIsAFault : Prop :=
  (∀ s : State, s.Free → s.asserted .doutOe = true → s.asserted .rd = true →
    (∀ a, exec (.shiftOutAddress a) s = .fault .busContention) ∧ exec .shiftInData s = .fault .busContention) ∧
  (∀ s : State, s.Free → s.asserted .rd = true →
    (∀ d, exec (.shiftOutData d) s = .fault .busContention) ∧
    (∀ a d, exec (.registerWrite a d) s = .fault .busContention ∧ exec (.writeCell a d) s = .fault .busContention) ∧
    (∀ i w, registerRow s.params i = some w → exec i s = .fault .busContention)) ∧
  (∀ s : State, s.Free → s.asserted .doutOe = true → ∀ a, exec (.readCell a) s = .fault .busContention) ∧
  (∀ s : State, s.contention = true → step s = .fault .busContention ∧ ∀ i, exec i s = .fault .busContention)

/-- `reset_cartridge(V)` from any BSS value: four zero writes in order with CS off, SAFE, nothing read; it is the recovery
after a command that stopped with lines asserted (R151, R293). -/
def Obligations.ResetCartridgeZeroesTheRegisters : Prop :=
  ∀ (v : Variant) (s : State), s.Free → ∃ t, exec (.resetCartridge v) s = .next t ∧
    BusDone s t (registerEvents (registerZeros s.params v)) 330 ∧ NothingRead s t ∧
    ∀ w, (registerZeros s.params v).getLast? = some w → Latched t w.1 w.2

/-! ### Variant operations: each from any BSS value -/

/-- `MBC1.read_rom(bank)` (R170, R111). -/
def Obligations.Mbc1ReadRomFillsTheBuffer : Prop :=
  ∀ (bank : BankOperand) (s : State), s.Free → ∃ t, exec (.mbc1ReadRom bank) s = .next t ∧
    BusDone s t (registerEvents (registerZeros s.params .mbc1 ++
      [(s.params.m1Mode, 0x01), (s.params.m1Bank1, (bank.extractLsb' 0 5).setWidth 8),
        (s.params.m1Bank2, (bank.extractLsb' 5 2).setWidth 8)])) (1180222 + 3) ∧
    WindowInBuffer s t (if bank.extractLsb' 0 5 = 0#5 then 0x0000 else 0x4000) 16384 false ∧
    Latched t (if bank.extractLsb' 0 5 = 0#5 then 0x3FFF else 0x7FFF) ((bank.extractLsb' 5 2).setWidth 8) ∧ t.v = none

/-- `MBC3.read_rom(bank)` (R180, R111). -/
def Obligations.Mbc3ReadRomFillsTheBuffer : Prop :=
  ∀ (bank : BankOperand) (s : State), s.Free → ∃ t, exec (.mbc3ReadRom bank) s = .next t ∧
    BusDone s t (registerEvents (registerZeros s.params .mbc3 ++ [(s.params.m3Romb, bank.extractLsb' 0 8)]))
      (1180058 + 3) ∧
    WindowInBuffer s t (if bank.extractLsb' 0 8 = 0#8 then 0x0000 else 0x4000) 16384 false ∧
    Latched t (if bank.extractLsb' 0 8 = 0#8 then 0x3FFF else 0x7FFF) (bank.extractLsb' 0 8) ∧ t.v = none

/-- `MBC5.read_rom(bank)`: the switchable window for every bank (R200, R203, R111). -/
def Obligations.Mbc5ReadRomFillsTheBuffer : Prop :=
  ∀ (bank : BankOperand) (s : State), s.Free → ∃ t, exec (.mbc5ReadRom bank) s = .next t ∧
    BusDone s t (registerEvents (registerZeros s.params .mbc5 ++
      [(s.params.m5Romb0, bank.extractLsb' 0 8), (s.params.m5Romb1, (bank.extractLsb' 8 1).setWidth 8)])) (1180140 + 3) ∧
    WindowInBuffer s t 0x4000 16384 false ∧ Latched t 0x7FFF ((bank.extractLsb' 8 1).setWidth 8) ∧ t.v = none

/-- `MBC1.read_header()`: no bank selection, buffer bytes 0 to 0x4F only (R171). -/
def Obligations.ReadHeaderFillsTheHeader : Prop :=
  ∀ s : State, s.Free → ∃ t, exec .mbc1ReadHeader s = .next t ∧
    BusDone s t (registerEvents (registerZeros s.params .mbc1)) (6088 + 3) ∧
    WindowInBuffer s t s.params.headerBase 0x50 false ∧ Latched t (s.params.headerBase + 0x4F) 0x00 ∧ t.v = none

/-- `MBC1.read_ram`, `MBC3.read_ram`, `MBC5.read_ram`: the gate, the bank, then 8192 cells with CS asserted; buffer bytes 0 to
8191 only (R172, R181, R201; the MBC1 sequence is the spec's decision D19, log 23). -/
def Obligations.ReadRamFillsTheBuffer : Prop :=
  ∀ (v : Variant) (bank : BankOperand) (s : State), s.Free → ∃ t, exec (readRamOf v bank) s = .next t ∧
    BusDone s t (registerEvents (registerZeros s.params v ++ ramBankWrites s.params bank v))
      (ramBankSettles v + 8192 * 72) ∧
    WindowInBuffer s t 0xA000 8192 true ∧
    (∀ w, (ramBankWrites s.params bank v).getLast? = some w → Latched t 0xBFFF w.2) ∧ t.v = none

/-- `MBC1.write_ram`, `MBC3.write_ram`, `MBC5.write_ram`: the gate, the bank, then buffer byte o to 0xA000 + o with CS
asserted, for o = 0 to 8191; BankBuffer is read, not written (R173, R182, R202; the MBC1 sequence is the spec's decision D19,
log 23). -/
def Obligations.WriteRamStoresTheBuffer : Prop :=
  ∀ (v : Variant) (bank : BankOperand) (s : State), s.Free → ∃ t, exec (writeRamOf v bank) s = .next t ∧
    BusDone s t (ramBankEvents s.params v bank s.readBuffer) (ramBankSettles v + 8192 * 82) ∧
    NothingRead s t ∧ Latched t 0xBFFF (s.readBuffer 8191)

/-- `MBC3.read_rtc()`: the gate, the latch sequence 0 then 1, then for each k register RTC_BASE + k selected with CS off and
the byte at 0xA000 read with CS on into BankBuffer[k] (R183, R42). -/
def Obligations.ReadRtcTakesTheSnapshot : Prop :=
  ∀ s : State, s.Free → ∃ t, exec .mbc3ReadRtc s = .next t ∧
    BusDone s t (registerEvents (registerZeros s.params .mbc3 ++
      [(s.params.m3Ramg, s.params.ramEnable), (s.params.m3Latch, 0x00), (s.params.m3Latch, 0x01),
        (s.params.m3Ramb, s.params.rtcBase), (s.params.m3Ramb, s.params.rtcBase + 1), (s.params.m3Ramb, s.params.rtcBase + 2),
        (s.params.m3Ramb, s.params.rtcBase + 3), (s.params.m3Ramb, s.params.rtcBase + 4)])) (1354 + 3) ∧
    (∀ i, (i < 5 → ∃ k, s.draws ≤ k ∧ k < t.draws ∧
        t.readBuffer i = ((cartAfter s.cart (registerEvents (registerZeros s.params .mbc3 ++
          [(s.params.m3Ramg, s.params.ramEnable), (s.params.m3Latch, 0x00), (s.params.m3Latch, 0x01)] ++
          (List.range (i + 1)).map fun j => (s.params.m3Ramb, s.params.rtcBase + BitVec.ofNat 8 j)))).answer 0xA000
            true).getD (Config.freeByte k)) ∧
      (5 ≤ i → t.readBuffer i = s.readBuffer i)) ∧
    Latched t 0xA000 (s.params.rtcBase + 4) ∧ t.v = none

/-- `MBC3.write_rtc()`, INT 0x44, performs no bus activity and changes no state (R184). -/
def Obligations.Mbc3WriteRtcDoesNothing : Prop :=
  (∀ p : Params, decode p ⟨.int, 0x00000044#32⟩ = .instr .mbc3WriteRtc) ∧
  ∀ s : State, s.Free → exec .mbc3WriteRtc s = .next s

/-! ### On the reference cartridges -/

/-- After `reset_cartridge(V)` a reference cartridge of family V has its gate closed and shows bank 0 in the fixed window; MBC1
is in mode 0, the MBC3 latch holds 0, the MBC5 RAM-bank register holds 0 and a rumble motor is off; its memories are as
before (R325; the cartridges are R96 to R98). That it drives no byte at 0x8000 to 0x9FFF and from 0xC000 on, which the clause on
addresses from 0x8000 takes in beside the RAM window, is the model's choice (log 33); so is that a cartridge with NB = 0 answers a ROM byte (log 36). -/
def Obligations.ResetCartridgeGivesPowerUpState : Prop :=
  ∀ s : State, s.Free → s.params = defaultParams →
    (∀ c, s.cart = .mbc1 c → ∃ t, exec (.resetCartridge .mbc1) s = .next t ∧
      t.cart = .mbc1 { c with ramg := 0, bank1 := 1, bank2 := 0, mode := 0 } ∧
      (∀ a : Addr, a.toNat < 0x4000 → t.cart.answer a false = some (romByte c.rom a.toNat)) ∧
      (∀ a : Addr, 0x8000 ≤ a.toNat → t.cart.answer a true = none)) ∧
    (∀ c, s.cart = .mbc3 c → ∃ t, exec (.resetCartridge .mbc3) s = .next t ∧
      t.cart = .mbc3 { c with ramg := 0, romb := 1, ramb := 0, latch := 0 } ∧
      (∀ a : Addr, a.toNat < 0x4000 → t.cart.answer a false = some (romByte c.rom a.toNat)) ∧
      (∀ a : Addr, 0x8000 ≤ a.toNat → t.cart.answer a true = none)) ∧
    (∀ c, s.cart = .mbc5 c → ∃ t, exec (.resetCartridge .mbc5) s = .next t ∧
      t.cart = .mbc5 { c with ramg := 0, romb0 := 0, romb1 := 0, ramb := 0, motor := if c.rumble then false else c.motor } ∧
      (∀ a : Addr, a.toNat < 0x4000 → t.cart.answer a false = some (romByte c.rom a.toNat)) ∧
      (∀ a : Addr, 0x8000 ≤ a.toNat → t.cart.answer a true = none))

/-- Bank selection reaches the bank asked for: `V.read_rom(bank)` on a reference cartridge of family V leaves byte i of bank
`bank` at BankBuffer[i], for every bank the cartridge holds and the format can name; a plain ROM is read by the MBC1
operation (R65, R111, R174; the cartridges are R95 to R98). The byte is the same at every read (R89; a byte the cartridge's list
does not name is a free value of its index, log 27; that a REF-ROM has banks 0 and 1 is the model's choice, log 36). -/
def Obligations.RomBanksReachThemselves : Prop :=
  ∀ (s : State) (bank i : Nat), s.Free → s.params = defaultParams → i < 16384 →
    (∀ c, s.cart = .rom c → bank < 2 →
      ∃ t, exec (.mbc1ReadRom (BitVec.ofNat 16 bank)) s = .next t ∧ t.readBuffer i = romByte c.rom (bank * 16384 + i)) ∧
    (∀ c, s.cart = .mbc1 c → bank < c.nb → c.nb ≤ 128 →
      ∃ t, exec (.mbc1ReadRom (BitVec.ofNat 16 bank)) s = .next t ∧ t.readBuffer i = romByte c.rom (bank * 16384 + i)) ∧
    (∀ c, s.cart = .mbc3 c → bank < c.nb → c.nb ≤ 128 →
      ∃ t, exec (.mbc3ReadRom (BitVec.ofNat 16 bank)) s = .next t ∧ t.readBuffer i = romByte c.rom (bank * 16384 + i)) ∧
    (∀ c, s.cart = .mbc5 c → bank < c.nb → c.nb ≤ 512 →
      ∃ t, exec (.mbc5ReadRom (BitVec.ofNat 16 bank)) s = .next t ∧ t.readBuffer i = romByte c.rom (bank * 16384 + i))

/-- RAM round trip: what `V.write_ram(bank)` wrote from BankBuffer, `V.read_ram(bank)` brings back, whatever BankBuffer has been
filled with in between, on every reference cartridge with RAM (R75, R174; the cartridges are R95 to R98; that REF-MBC3 and
REF-MBC5 store is deduced, log 27, and the MBC1 sequences are the spec's decision D19, log 23). -/
def Obligations.RamRoundTrip : Prop :=
  ∀ (v : Variant) (bank : BankOperand) (s : State) (m : Memory), s.Free → s.params = defaultParams →
    (v = .mbc1 ∧ (∃ c, s.cart = .rom c ∧ c.nr = 1)) ∨ (v = .mbc1 ∧ (∃ c, s.cart = .mbc1 c ∧ 0 < c.nr)) ∨
      (v = .mbc3 ∧ bank.toNat < 4 ∧ (∃ c, s.cart = .mbc3 c ∧ 0 < c.nr)) ∨
      (v = .mbc5 ∧ (∃ c, s.cart = .mbc5 c ∧ 0 < c.nr)) →
    ∃ t u, exec (writeRamOf v bank) s = .next t ∧ exec (readRamOf v bank) { t with bankBuffer := m } = .next u ∧
      ∀ i, i < 8192 → u.readBuffer i = s.readBuffer i

/-- A reference cartridge put in the slot of an idle block powers up: its registers take the values of R96 to R98. It presents
bank 0 in the fixed window and its RAM window is closed, so the header read that follows, which selects no bank, brings the
header of its ROM into BankBuffer (R72, R320(c)). THE MODEL'S CHOICES, which no rule states: that being put in the slot is a
power-up, that the memories are kept, and that losing and regaining power is the same event, so that a RAM keeps its bytes with
a battery and without (log 6, DESIGN CHOICE, unsafe); that no byte is driven at 0x8000 to 0x9FFF and from 0xC000 on, and that
REF-MBC5 ignores the write at 0x6000 which the header read makes (log 33, DESIGN CHOICE, unsafe); that a cartridge with NB = 0,
and a REF-ROM of any NB, answers a ROM byte (log 36). -/
def Obligations.PowerUpPresentsBankZero : Prop :=
  ∀ s : State, s.Free → s.powerCycle = s.insertCartridge s.cart ∧
    (∀ c, s.insertCartridge (.rom c) = { s with cart := .rom c }) ∧
    (∀ c, s.insertCartridge (.mbc1 c) = { s with cart := .mbc1 { c with ramg := 0, bank1 := 1, bank2 := 0, mode := 0 } }) ∧
    (∀ c, s.insertCartridge (.mbc3 c) = { s with cart := .mbc3 { c with
      ramg := 0, romb := 1, ramb := 0, latch := 0, rtcLive := ⟨0, 0, 0, 0, 0⟩, rtcLatched := ⟨0, 0, 0, 0, 0⟩ } }) ∧
    (∀ c, s.insertCartridge (.mbc5 c) = { s with cart := .mbc5 { c with
      ramg := 0, romb0 := 1, romb1 := 0, ramb := 0, motor := false } }) ∧
    (∀ (c : Cartridge) (rom : Memory), (∃ r, c = .rom r ∧ r.rom = rom) ∨ (∃ r, c = .mbc1 r ∧ r.rom = rom) ∨
        (∃ r, c = .mbc3 r ∧ r.rom = rom) ∨ (∃ r, c = .mbc5 r ∧ r.rom = rom) →
      (∀ (a : Addr) (cs : Bool), a.toNat < 0x4000 →
        (s.insertCartridge c).cart.answer a cs = some (romByte rom a.toNat)) ∧
      ((∀ r, c ≠ .rom r) → ∀ (a : Addr) (cs : Bool), 0x8000 ≤ a.toNat → (s.insertCartridge c).cart.answer a cs = none) ∧
      (s.params = defaultParams → ∃ t, exec .mbc1ReadHeader (s.insertCartridge c) = .next t ∧
        ∀ i, i < 0x50 → t.readBuffer i = romByte rom (0x100 + i)))

/-! ### HeaderParser -/

/-- `parse` reads BankBuffer[0..0x4F] and gives a descriptor whose every field is as the rules say, the bank counts among them;
nothing else changes (R210 to R223; that the result stands in the field descriptor is log 19). -/
def Obligations.ParseReadsEveryField : Prop :=
  ∀ s : State, s.Free → ∃ d : Descriptor, exec .parse s = .next { s with descriptor := some d } ∧
    d.entryPoint = (List.range 4).map (fun i => s.readBuffer i) ∧
    (d.logoValid = true ↔ (List.range 48).map (fun i => s.readBuffer (0x04 + i)) = s.params.logo) ∧
    (∃ n, n ≤ 16 ∧ d.title = (List.range n).map (fun i => s.readBuffer (0x34 + i)) ∧
      (∀ i, i < n → 0x20 ≤ (s.readBuffer (0x34 + i)).toNat ∧ (s.readBuffer (0x34 + i)).toNat ≤ 0x7E) ∧
      (n < 16 → ¬ (0x20 ≤ (s.readBuffer (0x34 + n)).toNat ∧ (s.readBuffer (0x34 + n)).toNat ≤ 0x7E))) ∧
    (d.cgb = .compatible ↔ s.readBuffer 0x43 = 0x80) ∧ (d.cgb = .exclusive ↔ s.readBuffer 0x43 = 0xC0) ∧
    (d.cgb = .plain → d.manufacturer = none) ∧
    (d.cgb ≠ .plain → d.manufacturer = some [s.readBuffer 0x3F, s.readBuffer 0x40, s.readBuffer 0x41, s.readBuffer 0x42]) ∧
    d.newLicensee = (s.readBuffer 0x44, s.readBuffer 0x45) ∧
    d.newLicenseeName = (Config.newLicensee (s.readBuffer 0x44) (s.readBuffer 0x45)).getD "not recognized" ∧
    d.sgbFlag = s.readBuffer 0x46 ∧ d.cartType = s.readBuffer 0x47 ∧
    (∀ r, s.params.typeTable.find? (fun r => r.code == s.readBuffer 0x47) = some r →
      d.typeLabel = r.label ∧ d.family = r.family ∧ d.hasRam = r.hasRam ∧ d.hasBattery = r.hasBattery ∧ d.hasRtc = r.hasRtc) ∧
    ((∀ r ∈ s.params.typeTable, r.code ≠ s.readBuffer 0x47) →
      d.typeLabel = "unrecognized" ∧ d.family = .unsupported ∧ d.hasRam = false ∧ d.hasBattery = false ∧ d.hasRtc = false) ∧
    d.romSizeCode = s.readBuffer 0x48 ∧
    ((s.readBuffer 0x48).toNat ≤ 8 → d.romBanks = .banks (2 ^ ((s.readBuffer 0x48).toNat + 1))) ∧
    (8 < (s.readBuffer 0x48).toNat → d.romBanks = .error) ∧
    d.ramSizeCode = s.readBuffer 0x49 ∧
    (s.readBuffer 0x49 = 0 → d.ramBanks = .banks 0) ∧ (s.readBuffer 0x49 = 2 → d.ramBanks = .banks 1) ∧
    (s.readBuffer 0x49 = 3 → d.ramBanks = .banks 4) ∧ (s.readBuffer 0x49 = 4 → d.ramBanks = .banks 16) ∧
    (s.readBuffer 0x49 = 5 → d.ramBanks = .banks 8) ∧
    (s.readBuffer 0x49 = 1 ∨ 5 < (s.readBuffer 0x49).toNat → d.ramBanks = .error) ∧
    d.destination = s.readBuffer 0x4A ∧
    d.oldLicensee = s.readBuffer 0x4B ∧
    d.oldLicenseeName = (Config.oldLicensee (s.readBuffer 0x4B)).getD "not recognized" ∧
    d.romVersion = s.readBuffer 0x4C ∧ d.headerChecksum = s.readBuffer 0x4D ∧
    d.globalChecksum = (s.readBuffer 0x4E, s.readBuffer 0x4F)

/-- `parse` is a function of its 80 bytes and the table parameters alone: it reads no byte beyond them, and of the parameters
`LOGO` and `TYPE_TABLE` only (R229; the licensee tables are constants of the model, log 20). -/
def Obligations.ParseIsPure : Prop :=
  ∀ (p p' : Params) (b b' : Nat → Byte), p.logo = p'.logo → p.typeTable = p'.typeTable →
    (∀ i, i < 0x50 → b i = b' i) → parseHeader p b = parseHeader p' b'

/-- ROM-size codes: 2^(code+1) banks for 0 to 8, and every other code is an Error on which `read_rom` answers
INVALID_NUM_ROM_BANKS, whatever the type (R226, R220, R283, R291). -/
def Obligations.RomSizeCodes : Prop :=
  ∀ (s h : State) (d : Descriptor), s.Drains → Described s.params.cmdId.readRom s h d →
    ((h.readBuffer 0x48).toNat ≤ 8 → d.romBanks = .banks (2 ^ ((h.readBuffer 0x48).toNat + 1))) ∧
    (8 < (h.readBuffer 0x48).toNat → d.romBanks = .error ∧ exec .readRom s = .next (h.ended [0x0A]))

/-- RAM-size codes: {0: 0, 2: 1, 3: 4, 4: 16, 5: 8}; on 0 and 1 `read_ram` and `write_ram` answer CARTRIDGE_HAS_NO_RAM, on 6 to
255 INVALID_NUM_RAM_BANKS, whatever the type (R227, R221, R284, R287, R291). -/
def Obligations.RamSizeCodes : Prop :=
  ∀ (c : Byte) (i : Instr) (s h : State) (d : Descriptor), s.Drains →
    (c = s.params.cmdId.readRam ∧ i = .readRam) ∨ (c = s.params.cmdId.writeRam ∧ i = .writeRam) → Described c s h d →
    (h.readBuffer 0x49 = 0 → d.ramBanks = .banks 0 ∧ exec i s = .next (h.ended [0x16])) ∧
    (h.readBuffer 0x49 = 1 → d.ramBanks = .error ∧ exec i s = .next (h.ended [0x16])) ∧
    (h.readBuffer 0x49 = 2 → d.ramBanks = .banks 1) ∧
    (h.readBuffer 0x49 = 3 → d.ramBanks = .banks 4) ∧
    (h.readBuffer 0x49 = 4 → d.ramBanks = .banks 16) ∧
    (h.readBuffer 0x49 = 5 → d.ramBanks = .banks 8) ∧
    (5 < (h.readBuffer 0x49).toNat → d.ramBanks = .error ∧ exec i s = .next (h.ended [0x0B]))

/-- Rows of the default type table: the three the source prints (0x00, 0x01, 0x13), an RTC row, an Unsupported row that keeps its
label, and a code without a row (R219, R222; the table is a parameter, log 2). -/
def Obligations.TypeTableRows : Prop :=
  typeRowOf defaultParams.typeTable 0x00 = ⟨0x00, "ROM ONLY", .romOnly, false, false, false⟩ ∧
  typeRowOf defaultParams.typeTable 0x01 = ⟨0x01, "MBC1", .mbc1, false, false, false⟩ ∧
  typeRowOf defaultParams.typeTable 0x13 = ⟨0x13, "MBC3+RAM+BATTERY", .mbc3, true, true, false⟩ ∧
  typeRowOf defaultParams.typeTable 0x10 = ⟨0x10, "MBC3+TIMER+RAM+BATTERY", .mbc3, true, true, true⟩ ∧
  typeRowOf defaultParams.typeTable 0x05 = ⟨0x05, "MBC2", .unsupported, false, false, false⟩ ∧
  typeRowOf defaultParams.typeTable 0x04 = ⟨0x04, "unrecognized", .unsupported, false, false, false⟩

/-! ### Operands, frames, statuses -/

/-- The register fields a bank operand is split into reassemble to it: MBC5 for 0 to 511, MBC1 for 0 to 127 (R112). -/
def Obligations.BankOperandsReassemble : Prop :=
  ∀ bank : BankOperand,
    (bank.toNat < 512 → (bank9High bank).toNat * 256 + (bank9Low bank).toNat = bank.toNat) ∧
    (bank.toNat < 128 → (bank7High bank).toNat * 32 + (bank7Low bank).toNat = bank.toNat)

/-- A frame starts with one status byte and, only when the length is above 0, four bytes with the length least significant byte
first; a send puts its bytes at the end of TX and what follows it runs then; `raise` is the status byte and the end of the
command (R240, R82, R290). A transport with less room takes that many bytes, and the operation holds the rest (R297). -/
def Obligations.FramesAreByteExact : Prop :=
  ∀ (st : Status) (len : Length) (s : State),
    frameHeader st 0 = [statusCode st] ∧
    (len ≠ 0 → ∃ b0 b1 b2 b3 : Byte, frameHeader st len = [statusCode st, b0, b1, b2, b3] ∧
      b0.toNat + 256 * b1.toNat + 65536 * b2.toNat + 16777216 * b3.toNat = len.toNat) ∧
    (s.Drains → raise st s = s.ended [statusCode st]) ∧
    ∀ (bs : List Byte) (next : AfterSend),
      (s.Drains → transmit bs next s = proceed next { s with tx := s.tx ++ bs }) ∧
      (∀ room, s.txSpace = some room → bs.length ≤ room →
        transmit bs next s = proceed next { s with tx := s.tx ++ bs, txSpace := some (room - bs.length) }) ∧
      (∀ room, s.txSpace = some room → room < bs.length → transmit bs next s =
        { s with tx := s.tx ++ bs.take room, txSpace := some 0, control := .sending (bs.drop room) next })

/-- The nine STATUS rows: OK sends 0 and the command goes on; each other row sends its code as the one byte of an error frame and
the sequencer is idle (R106, R281 to R290; as operations of their own: log 17). The host drains TX (log 11). -/
def Obligations.StatusRowsSendTheirCode : Prop :=
  ∀ s : State, s.Free → s.Drains →
    exec .statusOk s = .next { s with tx := s.tx ++ [0x00] } ∧
    exec .statusUnknownCommand s = .next (s.ended [0x01]) ∧
    exec .statusInvalidNumRomBanks s = .next (s.ended [0x0A]) ∧
    exec .statusInvalidNumRamBanks s = .next (s.ended [0x0B]) ∧
    exec .statusInvalidCartridgeType s = .next (s.ended [0x0C]) ∧
    exec .statusInvalidRamWriteSize s = .next (s.ended [0x15]) ∧
    exec .statusCartridgeHasNoRam s = .next (s.ended [0x16]) ∧
    exec .statusCartridgeHasNoRtc s = .next (s.ended [0x17]) ∧
    exec .statusInvalidRtcWriteSize s = .next (s.ended [0x18])

/-! ### Commands -/

/-- A command that has begun reads the header and parses it: `Described` holds of exactly one state and descriptor (R243). -/
def Obligations.ReadDescriptorAlwaysCompletes : Prop :=
  ∀ (c : Byte) (s : State), s.Free → ∃ r h,
    exec .mbc1ReadHeader { s with selector := some c, descriptor := none, v := none } = .next r ∧
    h = { r with descriptor := some (parseHeader r.params r.readBuffer) } ∧
    ∀ (h' : State) (d : Descriptor), Described c s h' d ↔ h' = h ∧ d = parseHeader r.params r.readBuffer

/-- `parse_header`: OK with payload length = report length, then the report, which is also in ReportBuf; no header content makes
it fail (R244; the report's bytes are free, log 20; the host drains TX, log 11). -/
def Obligations.ParseHeaderSendsTheReport : Prop :=
  ∀ (s h : State) (d : Descriptor), s.Drains → Described s.params.cmdId.parseHeader s h d →
    1 ≤ (renderReport d).length ∧ (renderReport d).length ≤ reportMax ∧
    ∃ t, exec .parseHeader s = .next t ∧
      t = { h.ended (okHeader (renderReport d).length ++ renderReport d) with reportBuf := t.reportBuf } ∧
      ∀ i, t.readReport i = ((renderReport d)[i]?).getD (h.readReport i)

/-- In `read_rom`, `read_ram` and `write_ram` a type without a module answers INVALID_CARTRIDGE_TYPE once the size check has
passed; nothing is taken from RX and nothing else is done (R285, R251, R291). -/
def Obligations.UnsupportedTypesAreRefused : Prop :=
  ∀ (c : Byte) (i : Instr) (s h : State) (d : Descriptor), s.Drains → Described c s h d → servedBy d.family = none →
    (c = s.params.cmdId.readRom ∧ i = .readRom ∧ (h.readBuffer 0x48).toNat ≤ 8) ∨
      (((c = s.params.cmdId.readRam ∧ i = .readRam) ∨ (c = s.params.cmdId.writeRam ∧ i = .writeRam)) ∧
        2 ≤ (h.readBuffer 0x49).toNat ∧ (h.readBuffer 0x49).toNat ≤ 5) →
    exec i s = .next (h.ended [0x0C])

/-- `read_rom` past its checks: n = 2^(code+1) banks by the family's module, in ascending order, one frame with length n * 16384
and no further framing; at its end the bus rests (R245, R251, R252, R242; the host drains TX, log 11). -/
def Obligations.ReadRomStreamsEveryBank : Prop :=
  ∀ (s h : State) (d : Descriptor) (n : Nat) (v : Variant), s.Drains → Described s.params.cmdId.readRom s h d →
    d.romBanks = .banks n →
    servedBy d.family = some v →
    ∃ u payload, Streamed (readRomOf v) 16384 (n * 16384) n h u ∧ exec .readRom s = .next (u.ended []) ∧
      u.tx = s.tx ++ okHeader (n * 16384) ++ payload ∧ payload.length = n * 16384 ∧ u.AtRest

/-- `read_ram` past its checks: 1, 4, 8 or 16 banks, one frame with length n * 8192 (R246, R251, R252, R242; the host
drains TX, log 11). -/
def Obligations.ReadRamStreamsEveryBank : Prop :=
  ∀ (s h : State) (d : Descriptor) (n : Nat) (v : Variant), s.Drains → Described s.params.cmdId.readRam s h d →
    d.ramSizeCode ≠ 0 → d.ramSizeCode ≠ 1 → d.ramBanks = .banks n → servedBy d.family = some v →
    ∃ u payload, Streamed (readRamOf v) 8192 (n * 8192) n h u ∧ exec .readRam s = .next (u.ended []) ∧
      u.tx = s.tx ++ okHeader (n * 8192) ++ payload ∧ payload.length = n * 8192 ∧ u.AtRest

/-- `write_ram` past its checks with the host silent: the first OK, then the command is held before its first length byte
(R247, R297; V56). -/
def Obligations.WriteRamHoldsForTheLength : Prop :=
  ∀ (s h : State) (d : Descriptor) (n : Nat) (v : Variant), s.Drains → Described s.params.cmdId.writeRam s h d →
    d.ramSizeCode ≠ 0 → d.ramSizeCode ≠ 1 → d.ramBanks = .banks n → servedBy d.family = some v → s.rx = [] →
    ∃ t, exec .writeRam s = .next t ∧
      t = { h with tx := h.tx ++ [0x00], control := .awaitLength { variant := v, bankCount := n } [] } ∧
      step t = .fault .heldForHostByte

/-- A length that is not bank_count * 8192, little-endian over four bytes: INVALID_RAM_WRITE_SIZE, the four bytes taken, no data
byte taken, nothing echoed (R286, R110, R247). -/
def Obligations.WriteRamRefusesAnotherLength : Prop :=
  ∀ (s : State) (up : Upload) (b0 b1 b2 b3 : Byte) (rest : List Byte), s.contention = false → s.Drains → up.legal = true →
    s.control = .awaitLength up [] → s.rx = b0 :: b1 :: b2 :: b3 :: rest →
    b0.toNat + 256 * b1.toNat + 65536 * b2.toNat + 16777216 * b3.toNat ≠ up.bankCount * 8192 →
    step s = .next ({ s with rx := rest }.ended [0x15])

/-- Part of a length, or part of a bank, received: length bytes are kept and not echoed; data bytes are stored and echoed one by
one; nothing reaches the cartridge before the bank is whole (R247, R333; V56). -/
def Obligations.WriteRamTakesAPartOfABank : Prop :=
  ∀ (s : State) (up : Upload), s.contention = false → s.rx ≠ [] →
    (∀ got, s.control = .awaitLength up got → got.length + s.rx.length < 4 →
      step s = .next { s with rx := [], control := .awaitLength up (got ++ s.rx) }) ∧
    (∀ len bank off, s.Drains → s.control = .awaitData up len bank off → off + s.rx.length < 8192 →
      ∃ t, step s = .next t ∧
        t = { s with
          tx := s.tx ++ s.rx, rx := [], control := .awaitData up len bank (off + s.rx.length)
          bankBuffer := t.bankBuffer } ∧
        ∀ i, t.readBuffer i = if off ≤ i then (s.rx[i - off]?).getD (s.readBuffer i) else s.readBuffer i)

/-- `write_ram` with the right length and all data in RX: two acknowledgements, every data byte echoed in order, every bank
committed by the module's `write_ram`, nothing after the last echo, further bytes left in RX (R247, R110, R85; the host drains TX, log 11; the
MBC1 events are the spec's decision D19, log 23; no guard keeps banks 8 to 12 from an MBC3 cartridge, log 34). -/
def Obligations.WriteRamCommitsEveryBank : Prop :=
  ∀ (s h : State) (d : Descriptor) (n : Nat) (v : Variant) (b0 b1 b2 b3 : Byte) (data more : List Byte),
    s.Drains → Described s.params.cmdId.writeRam s h d → d.ramSizeCode ≠ 0 → d.ramSizeCode ≠ 1 → d.ramBanks = .banks n →
    servedBy d.family = some v → s.rx = b0 :: b1 :: b2 :: b3 :: (data ++ more) →
    b0.toNat + 256 * b1.toNat + 65536 * b2.toNat + 16777216 * b3.toNat = n * 8192 → data.length = n * 8192 →
    ∃ t es, exec .writeRam s = .next t ∧
      es = (List.range n).flatMap (fun bank =>
        ramBankEvents s.params v (BitVec.ofNat 16 bank) (fun i => data.getD (8192 * bank + i) 0)) ∧
      t.tx = s.tx ++ [0x00, 0x00] ++ data ∧ t.rx = more ∧
      t.control = .idle ∧ t.selector = none ∧ t.descriptor = none ∧ t.v = none ∧
      t.bss = safeBss s.params.levels ∧ t.busWrites = h.busWrites ++ es ∧ t.cart = cartAfter h.cart es ∧
      t.rumbleBreach = (h.rumbleBreach || es.any h.breaches) ∧
      (∀ i, t.readBuffer i = if i < 8192 then data.getD (8192 * (n - 1) + i) 0 else h.readBuffer i) ∧
      Latched t 0xBFFF (data.getD (n * 8192 - 1) 0) ∧ t.isr = h.isr ∧ t.draws = h.draws ∧
      t.settles = h.settles + n * (ramBankSettles v + 8192 * 82) ∧
      t.params = s.params ∧ t.reportBuf = s.reportBuf ∧ t.pending = s.pending ∧ t.bench = s.bench ∧
      t.txDrained = s.txDrained ∧ t.txSpace = none ∧ t.contention = false

/-- How the host's bytes are split into deliveries does not matter: a command waiting in `RxByte`, given xs and then ys, goes
where it goes given both at once; bytes it does not ask for stay in RX (R84, R247, R338). -/
def Obligations.HostBytesMayArriveInPieces : Prop :=
  ∀ (s t : State) (xs ys : List Byte), s.contention = false → s.control.takes = true → s.rx = [] → xs ≠ [] →
    step (s.hostSends xs) = .next t →
    (t.control.takes = false → step (s.hostSends (xs ++ ys)) = .next (t.hostSends ys)) ∧
    (t.control.takes = true → ys ≠ [] → step (s.hostSends (xs ++ ys)) = step (t.hostSends ys))

/-- Nor does how the host spreads its draining: an operation, or a step of a suspended one, on a transport with some room, given
more room afterwards, goes where it goes with all that room at once; so what it sends and does is what the statements for a host
that drains say (`room = none`), and only where it waits depends on the host (R84, R90, R297). -/
def Obligations.HostMayDrainInPieces : Prop :=
  ∀ (s t : State) (room : Option Nat), room ≠ some 0 →
    (∀ i, exec i s = .next t →
      ((∀ rest next, t.control ≠ .sending rest next) → exec i (s.hostGrants room) = .next (t.hostGrants room)) ∧
      (∀ rest next, t.control = .sending rest next → exec i (s.hostGrants room) = step (t.hostGrants room))) ∧
    (s.control ≠ .idle → step s = .next t →
      ((∀ rest next, t.control ≠ .sending rest next) → step (s.hostGrants room) = .next (t.hostGrants room)) ∧
      (∀ rest next, t.control = .sending rest next → step (s.hostGrants room) = step (t.hostGrants room)))

/-- `read_rtc`: CARTRIDGE_HAS_NO_RTC unless the type is an RTC-capable MBC3 variant; else `MBC3.read_rtc` and an OK frame with
the five snapshot bytes (R248, R288, R185). -/
def Obligations.ReadRtcSendsTheSnapshot : Prop :=
  ∀ (s h : State) (d : Descriptor), s.Drains → Described s.params.cmdId.readRtc s h d →
    (¬ (d.family = .mbc3 ∧ d.hasRtc = true) → exec .readRtc s = .next (h.ended [0x17])) ∧
    (d.family = .mbc3 ∧ d.hasRtc = true → ∃ r, exec .mbc3ReadRtc h = .next r ∧
      exec .readRtc s = .next (r.ended ([0x00, 0x05, 0x00, 0x00, 0x00] ++ (List.range 5).map r.readBuffer)))

/-- `write_rtc` answers INVALID_RTC_WRITE_SIZE always, and each of the six rows of unknown selectors answers UNKNOWN_COMMAND; they
read no header, take nothing from RX and touch neither the bus nor BankBuffer (R249, R250, R109). Beside TX they clear the
working values descriptor and v, in which an internal operation run alone before can have left something (log 29); where none
is left no state changes but TX. The host drains TX (log 11). -/
def Obligations.WriteRtcAndUnknownSelectors : Prop :=
  ∀ (c : Byte) (s : State), s.Free → s.Drains →
    (exec .writeRtc s = .next (s.ended [0x18]) ∧
      exec (.unknown0607 c) s = .next (s.ended [0x01]) ∧ exec (.unknown080F c) s = .next (s.ended [0x01]) ∧
      exec (.unknown101F c) s = .next (s.ended [0x01]) ∧ exec (.unknown203F c) s = .next (s.ended [0x01]) ∧
      exec (.unknown407F c) s = .next (s.ended [0x01]) ∧ exec (.unknown80FF c) s = .next (s.ended [0x01])) ∧
    (s.selector = none → s.descriptor = none → s.v = none → ∀ sent, s.ended sent = { s with tx := s.tx ++ sent })

/-! ### The source's scenarios, whole -/

/-- Type 0x00, ROM-size code 0x00: `read_rom` emits OK, length 32768, and streams the cartridge's two banks in address order, after
18 register writes the cartridge ignores (R245, V6, P2; the cartridge is R95, and that it has two banks is the model's choice, log 36;
a byte its list does not name is a free value, log 27; the host drains TX, log 11). -/
def Obligations.RomOnlyCartridgeIsReadWhole : Prop :=
  ∀ (s : State) (c : RefRom), s.Free → s.Drains → s.params = defaultParams → s.cart = .rom c →
    romByte c.rom 0x147 = 0x00 → romByte c.rom 0x148 = 0x00 →
    ∃ t, exec .readRom s = .next t ∧
      t.tx = s.tx ++ [0x00, 0x00, 0x80, 0x00, 0x00] ++ (List.range 32768).map (romByte c.rom) ∧
      t.AtRest ∧ t.cart = .rom c ∧ t.busWrites.length = s.busWrites.length + 18 ∧ t.alat = 0x7FFF ∧ t.dlat = 0x00 ∧
      t.settles = s.settles + (2366532 + 9) ∧ t.control = .idle

/-- `read_rtc` on an MBC3 cartridge with a clock: OK, length 5, the five live clock bytes as the latch sequence captured them; the
gate stays open, the latch register holds 1, the bank-select register holds 0x0C (R183, R248, P4; the cartridge is R97; its clock stands still while
the command runs, log 6; the host drains TX, log 11). -/
def Obligations.ClockIsReadWhole : Prop :=
  ∀ (s : State) (c : RefMbc3), s.Free → s.Drains → s.params = defaultParams → s.cart = .mbc3 c →
    romByte c.rom 0x147 = 0x10 →
    ∃ t, exec .readRtc s = .next t ∧
      t.tx = s.tx ++ [0x00, 0x05, 0x00, 0x00, 0x00, c.rtcLive.seconds, c.rtcLive.minutes, c.rtcLive.hours,
        c.rtcLive.dayLow, c.rtcLive.dayHigh] ∧
      t.cart = .mbc3 { c with ramg := 0xA, romb := 1, ramb := 0xC, latch := 1, rtcLatched := c.rtcLive } ∧
      t.AtRest ∧ t.alat = 0xA000 ∧ t.settles = s.settles + (7442 + 6) ∧ t.control = .idle

/-! ### The whole machine -/

/-- INV-SAFE: a cartridge-level operation that starts with BSS = SAFE leaves BSS = SAFE, where it ends and where it is held; one
that opens with `reset_cartridge` does so from any BSS value; and a step of a suspended operation keeps it, so a command ends
with BSS = SAFE however often it was held (R25, R242, R293, R331). -/
def Obligations.CartridgeOperationsEndAtRest : Prop :=
  (∀ (i : Instr) (s t : State), cartridgeLevel i = true → (s.AtRest ∨ startsWithReset i = true) →
    exec i s = .next t → t.AtRest) ∧
  (∀ s t : State, s.control ≠ .idle → s.AtRest → step s = .next t → t.AtRest)

/-- What an operation may not touch: no operation changes the parameters, what is presented or what stands on the test bench, or
takes back a byte sent or an event delivered, or drains TX; only `write_ram` takes from RX (R297); only `parse_header` writes
ReportBuf; no operation below the command layer sends or raises anything or moves the control position (R154, R85, R244). TX is
all bytes sent: neither a step nor the host's draining takes one off it, and the host drains no byte that was not sent (R46;
which bytes are drained is counted beside TX, log 11). -/
def Obligations.OwnersOfTheStreams : Prop :=
  (∀ s t : State, step s = .next t → s.tx <+: t.tx ∧ t.txDrained = s.txDrained) ∧
  (∀ (s : State) (n : Nat), (s.hostDrains n).tx = s.tx ∧
    (s.txDrained ≤ s.tx.length → (s.hostDrains n).txDrained = min (s.txDrained + n) s.tx.length)) ∧
  ∀ (i : Instr) (s t : State), exec i s = .next t →
    t.txDrained = s.txDrained ∧ t.params = s.params ∧ t.pending = s.pending ∧ t.bench = s.bench ∧ s.tx <+: t.tx ∧ s.busWrites <+: t.busWrites ∧
    (i ≠ .writeRam → t.rx = s.rx) ∧ (i ≠ .parseHeader → t.reportBuf = s.reportBuf) ∧
    (∀ sel, encode s.params i = sel → sel.format ≠ .cmd → sel.format ≠ .status →
      t.tx = s.tx ∧ t.txSpace = s.txSpace ∧ t.control = s.control ∧ t.selector = s.selector)

/-- The invariant holds right after reset. -/
def Obligations.InvariantAtReset : Prop := State.reset.Inv

/-- Every step keeps the invariant, from every state that has it. -/
def Obligations.EveryStepKeepsTheInvariant : Prop :=
  ∀ s t : State, s.Inv → step s = .next t → t.Inv

/-- From every state of the invariant with an idle sequencer every operation answers a next state in the invariant, and no step
ever meets two drivers on D. That state is one where the operation waits in `TxByte` or, for `write_ram` alone, in `RxByte`
(R343: termination of a send and of `write_ram` rests on the host; a hold counts as a next state, log 12); where the host drains
TX (log 11) every operation but `write_ram` is finished (R154, R296, R343). -/
def Obligations.EveryOperationCompletes : Prop :=
  ∀ s : State, s.Inv → step s ≠ .fault .busContention ∧
    (s.control = .idle → ∀ i : Instr, ∃ t, exec i s = .next t ∧ t.Inv ∧
      (s.Drains → i ≠ .writeRam → t.control = .idle))
end

