-- ==== Sys2Proof/Laws/Bus.lean ====
section
/-! SUPPORT. What each bus primitive and cell does, said once: its final state, from every state in which DIN_LOAD is
deasserted, the latch lines it pulses are at rest, and no second driver stands on the data bus. -/

namespace Sys2Proof.Machine

@[simp] theorem rises_self (b : Bool) : rises b b = false := by cases b <;> rfl

@[simp] theorem rises_to_false (b : Bool) : rises b false = false := by cases b <;> rfl

@[simp] theorem rises_false_true : rises false true = true := rfl

theorem run_append (a b : List Micro) (s : State) : run (a ++ b) s = run b (run a s) := by
  induction a generalizing s with
  | nil => rfl
  | cons m a ih => exact ih (micro m s)

@[simp] theorem run_nil (s : State) : run [] s = s := rfl

@[simp] theorem run_cons (m : Micro) (ms : List Micro) (s : State) : run (m :: ms) s = run ms (micro m s) := rfl

/-- No second driver: what every sequence that asserts no output-enable needs (R296, R331). -/
def Bss.single (b : Bss) (l : Levels) : Prop := b.doutOe = !l.doutOe ∨ b.rd = !l.rd

theorem Bss.single_beq {b : Bss} {l : Levels} (h : b.single l) : (b.doutOe == l.doutOe && b.rd == l.rd) = false := by
  rcases h with h | h <;> simp [h]

/-- The conditions under which a GPIO write does nothing to ISR and meets no second driver, said of a BSS value. -/
def Bss.quiet (b : Bss) (l : Levels) : Prop := b.dinLoad = !l.dinLoad ∧ b.single l

/-- A strobe that is not asserted stands at the other level. -/
theorem asserted_eq_false (s : State) (f : Strobe) :
    s.asserted f = false ↔ s.bss.get f.field = !levelOf s.params.levels f := by
  cases h : s.bss.get f.field <;> cases h' : levelOf s.params.levels f <;>
    simp [State.asserted, Bss.asserted, h, h']

/-- One bit on the address line. -/
theorem run_addressBit (v : Bool) (ms : List Micro) (s : State) (h : s.bss.quiet s.params.levels) :
    run (.drive .addrSer v :: .drive .addrClk false :: .drive .addrClk true :: ms) s =
    run ms { s with
      bss := { s.bss with addrSer := v, addrClk := true }
      asr := s.asr.shiftConcat v
      settles := s.settles + 3 } := by
  obtain ⟨h1, h2⟩ := h
  have hc := Bss.single_beq h2
  simp [micro, drive, gpioWrite, clockAddress, clockData, setPins, clockInput, settle, Bss.set, State.asserted,
    Bss.asserted, Bss.get, Strobe.field, levelOf, h1, hc]


/-- k bits shifted in at the low end, bit k-1 first (R29, R30). -/
def shiftedIn {n : Nat} (bit : Nat → Bool) : Nat → BitVec n → BitVec n
  | 0, x => x
  | k + 1, x => shiftedIn bit k (x.shiftConcat (bit k))

theorem getLsbD_shiftedIn {n : Nat} (bit : Nat → Bool) : ∀ (k : Nat) (x : BitVec n) (j : Nat), j < n →
    (shiftedIn bit k x).getLsbD j = if j < k then bit j else x.getLsbD (j - k) := by
  intro k
  induction k with
  | zero => intro x j _; simp [shiftedIn]
  | succ k ih =>
    intro x j hj
    rw [shiftedIn, ih _ _ hj, BitVec.getLsbD_shiftConcat]
    rcases Nat.lt_trichotomy j k with h | h | h
    · simp [h, show j < k + 1 by omega]
    · subst h; simp; omega
    · rw [if_neg (by omega), if_neg (by omega), if_neg (by omega), decide_eq_true (by omega), Bool.true_and]
      congr 1

/-- Shifting in every bit of a word, most significant first, leaves the word (R29: after 16 clock edges the bit presented
first stands at ASR[15]). -/
theorem shiftedIn_all {n : Nat} (a x : BitVec n) : shiftedIn a.getLsbD n x = a := by
  apply BitVec.eq_of_getLsbD_eq
  intro j hj
  rw [getLsbD_shiftedIn _ _ _ _ hj, if_pos hj]

theorem run_addressBits (bit : Nat → Bool) (ms : List Micro) : ∀ (k : Nat) (s : State), s.bss.quiet s.params.levels →
    run (shiftBits .addrSer .addrClk bit (k + 1) ++ ms) s =
    run ms { s with
      bss := { s.bss with addrSer := bit 0, addrClk := true }
      asr := shiftedIn bit (k + 1) s.asr
      settles := s.settles + 3 * (k + 1) } := by
  intro k
  induction k with
  | zero => intro s h; exact run_addressBit (bit 0) ms s h
  | succ k ih =>
    intro s h
    rw [shiftBits, List.cons_append, List.cons_append, List.cons_append, run_addressBit _ _ _ h]
    refine (ih _ ?_).trans ?_
    · exact h
    have e : s.settles + 3 + 3 * (k + 1) = s.settles + 3 * (k + 1 + 1) := by omega
    simp only [shiftedIn, e]

/-- The state `shift_out_address(addr)` leaves (R133). -/
def State.addressed (s : State) (addr : Addr) : State :=
  { s with
    bss := { s.bss with addrSer := addr.getLsbD 0, addrClk := false, addrLatch := false }
    asr := addr
    alat := addr
    settles := s.settles + 51 }

/-- `shift_out_address(addr)`: `ASR = ALAT = addr`, and the three address lines as R133 says (51 settle waits). -/
theorem run_shiftOutAddress (addr : Addr) (s : State) (h : s.bss.quiet s.params.levels) (hl : s.bss.addrLatch = false) :
    run (shiftOutAddressSeq addr) s = s.addressed addr := by
  rw [shiftOutAddressSeq, run_addressBits _ _ 15 s h, shiftedIn_all]
  obtain ⟨h1, h2⟩ := h
  have hc := Bss.single_beq h2
  simp [micro, drive, gpioWrite, clockAddress, clockData, setPins, clockInput, settle, Bss.set, State.asserted,
    Bss.asserted, Bss.get, Strobe.field, levelOf, h1, hc, hl, State.addressed]

/-- One bit on the data-out line. -/
theorem run_dataBit (v : Bool) (ms : List Micro) (s : State) (h : s.bss.quiet s.params.levels) :
    run (.drive .doutSer v :: .drive .doutClk false :: .drive .doutClk true :: ms) s =
    run ms { s with
      bss := { s.bss with doutSer := v, doutClk := true }
      dsr := s.dsr.shiftConcat v
      settles := s.settles + 3 } := by
  obtain ⟨h1, h2⟩ := h
  have hc := Bss.single_beq h2
  simp [micro, drive, gpioWrite, clockAddress, clockData, setPins, clockInput, settle, Bss.set, State.asserted,
    Bss.asserted, Bss.get, Strobe.field, levelOf, h1, hc]

theorem run_dataBits (bit : Nat → Bool) (ms : List Micro) : ∀ (k : Nat) (s : State), s.bss.quiet s.params.levels →
    run (shiftBits .doutSer .doutClk bit (k + 1) ++ ms) s =
    run ms { s with
      bss := { s.bss with doutSer := bit 0, doutClk := true }
      dsr := shiftedIn bit (k + 1) s.dsr
      settles := s.settles + 3 * (k + 1) } := by
  intro k
  induction k with
  | zero => intro s h; exact run_dataBit (bit 0) ms s h
  | succ k ih =>
    intro s h
    rw [shiftBits, List.cons_append, List.cons_append, List.cons_append, run_dataBit _ _ _ h]
    refine (ih _ ?_).trans ?_
    · exact h
    have e : s.settles + 3 + 3 * (k + 1) = s.settles + 3 * (k + 1 + 1) := by omega
    simp only [shiftedIn, e]

/-- The event `shift_out_data(byte)` delivers from a state (R68, R134). -/
def State.eventOf (s : State) (byte : Byte) : BusWrite := { addr := s.alat, cs := s.asserted .cs, data := byte }

/-- The state `shift_out_data(byte)` leaves when RD is deasserted (R134). -/
def State.dataSent (s : State) (byte : Byte) : State :=
  { s with
    bss := { s.bss with doutSer := byte.getLsbD 0, doutClk := false, doutLatch := false,
                        doutOe := !s.params.levels.doutOe, wr := !s.params.levels.wr }
    dsr := byte
    dlat := byte
    settles := s.settles + 31
    cart := s.cart.accept (s.eventOf byte)
    busWrites := s.busWrites ++ [s.eventOf byte]
    rumbleBreach := s.rumbleBreach || s.breaches (s.eventOf byte) }

/-- `shift_out_data(byte)` with RD deasserted: `DSR = DLAT = byte`, one bus write event (31 settle waits; R134). -/
theorem run_shiftOutData (byte : Byte) (s : State) (h1 : s.bss.dinLoad = !s.params.levels.dinLoad)
    (h2 : s.bss.rd = !s.params.levels.rd) (hl : s.bss.doutLatch = false) :
    run (shiftOutDataSeq s.params byte) s = s.dataSent byte := by
  rw [shiftOutDataSeq, run_dataBits _ _ 7 s ⟨h1, Or.inr h2⟩, shiftedIn_all]
  simp [micro, drive, gpioWrite, clockAddress, clockData, setPins, clockInput, settle, Bss.set, State.asserted,
    Bss.asserted, Bss.get, Strobe.field, levelOf, h1, h2, hl, assertLine, deassertLine, deliver, State.writeEvent,
    State.dataSent, State.eventOf, State.breaches, State.rumbleType]
  rfl

/-- k free bits shifted in at the low end, the first of them draw n (R31, U6). -/
def shiftedFree : Nat → Nat → BitVec 8 → BitVec 8
  | 0, _, x => x
  | k + 1, n, x => shiftedFree k (n + 1) (x.shiftConcat (Config.freeBit n))

/-- One sample and its clock pulse (R135). -/
theorem run_sampleBit (k : Nat) (ms : List Micro) (s : State) (b : Byte) (hv : s.v = some b)
    (h1 : s.bss.dinLoad = !s.params.levels.dinLoad) (h2 : s.bss.single s.params.levels) :
    run (.sample k :: .drive .dinClk false :: .drive .dinClk true :: ms) s =
    run ms { s with
      bss := { s.bss with dinClk := true }
      v := some (b ||| ((BitVec.ofBool (s.isr.getLsbD 7)).setWidth 8 <<< k))
      isr := s.isr.shiftConcat (Config.freeBit s.draws)
      draws := s.draws + 1
      settles := s.settles + 2 } := by
  have hc := Bss.single_beq h2
  simp [micro, drive, gpioWrite, clockAddress, clockData, setPins, clockInput, settle, Bss.set, State.asserted,
    Bss.asserted, Bss.get, Strobe.field, levelOf, h1, hc, sampleBit, hv, State.dinSer]

/-- The byte k samples assemble from the contents x of ISR, the first shift drawing free bit n. -/
def assembled : Nat → Byte → BitVec 8 → Nat → Byte
  | 0, b, _, _ => b
  | k + 1, b, x, n =>
    assembled k (b ||| ((BitVec.ofBool (x.getLsbD 7)).setWidth 8 <<< k)) (x.shiftConcat (Config.freeBit n)) (n + 1)

theorem run_sampleBits (ms : List Micro) : ∀ (k : Nat) (s : State) (b : Byte), s.v = some b →
    s.bss.dinLoad = !s.params.levels.dinLoad → s.bss.single s.params.levels →
    run (sampleBits (k + 1) ++ ms) s =
    run ms { s with
      bss := { s.bss with dinClk := true }
      v := some (assembled (k + 1) b s.isr s.draws)
      isr := shiftedFree (k + 1) s.draws s.isr
      draws := s.draws + (k + 1)
      settles := s.settles + 2 * (k + 1) } := by
  intro k
  induction k with
  | zero => intro s b hv h1 h2; exact run_sampleBit 0 ms s b hv h1 h2
  | succ k ih =>
    intro s b hv h1 h2
    rw [sampleBits, List.cons_append, List.cons_append, List.cons_append, run_sampleBit _ _ _ _ hv h1 h2]
    refine (ih _ _ rfl ?_ ?_).trans ?_
    · exact h1
    · exact h2
    have e1 : s.draws + 1 + (k + 1) = s.draws + (k + 1 + 1) := by omega
    have e2 : s.settles + 2 + 2 * (k + 1) = s.settles + 2 * (k + 1 + 1) := by omega
    simp only [shiftedFree, assembled, e1, e2]

/-- Eight samples, most significant bit first, give back the snapshot; no free bit is sampled (R31, R80, R135, U6). -/
theorem assembled_all (x : BitVec 8) (n : Nat) : assembled 8 0 x n = x := by
  apply BitVec.eq_of_getLsbD_eq
  intro i hi
  simp only [assembled, BitVec.getLsbD_shiftConcat, BitVec.getLsbD_or, BitVec.getLsbD_shiftLeft,
    BitVec.getLsbD_setWidth, BitVec.getLsbD_ofBool]
  interval_cases i <;> simp

/-- The state `shift_in_data()` leaves; its result is `v` (R135). -/
def State.dataTaken (s : State) : State :=
  { s with
    bss := { s.bss with dinLoad := !s.params.levels.dinLoad, dinClk := false }
    v := some s.dataBus
    isr := shiftedFree 8 (s.draws + 1) s.dataBus
    draws := s.draws + 9
    settles := s.settles + 19 }

/-- `shift_in_data()`: the result is what D was while DIN_LOAD was asserted (19 settle waits; R135). -/
theorem run_shiftInData (s : State) (h : s.bss.single s.params.levels) :
    run (shiftInDataSeq s.params) s = s.dataTaken := by
  have hc := Bss.single_beq h
  have e : run (shiftInDataSeq s.params) s =
      run (sampleBits 8 ++ [.drive .dinClk false]) { s with
        bss := { s.bss with dinLoad := !s.params.levels.dinLoad }
        v := some 0, isr := s.dataBus, draws := s.draws + 1, settles := s.settles + 2 } := by
    rw [shiftInDataSeq, List.append_assoc]
    simp [micro, drive, gpioWrite, clockAddress, clockData, setPins, clockInput, settle, Bss.set, State.asserted,
      Bss.asserted, Bss.get, Strobe.field, levelOf, hc, assertLine, deassertLine, State.dataBus, State.cartridgeByte]
  rw [e, run_sampleBits _ 7 { s with
        bss := { s.bss with dinLoad := !s.params.levels.dinLoad }
        v := some 0, isr := s.dataBus, draws := s.draws + 1, settles := s.settles + 2 } 0 rfl rfl h]
  simp [micro, drive, gpioWrite, clockAddress, clockData, setPins, clockInput, settle, Bss.set, State.asserted,
    Bss.asserted, Bss.get, Strobe.field, levelOf, hc, State.dataTaken]
  exact assembled_all _ _

end Sys2Proof.Machine
end

