-- ==== Sys2Proof/Laws/Memory.lean ====
section
/-! SUPPORT. The laws of the memories: read after write, and that every operation keeps the canonical form. -/

namespace Sys2Proof.Machine

theorem Memory.read_write_same (m : Memory) (k : Nat) (v : Byte) : Memory.read (Memory.write m k v) k = some v := by
  induction m with
  | nil => simp [Memory.write, Memory.read]
  | cons c m ih =>
    obtain ⟨a, b⟩ := c
    unfold Memory.write
    split
    · simp [Memory.read]
    · split
      · simp [Memory.read]
      · rw [Memory.read, if_neg (by omega), ih]

theorem Memory.read_write_other (m : Memory) (k j : Nat) (v : Byte) (h : j ≠ k) :
    Memory.read (Memory.write m k v) j = Memory.read m j := by
  induction m with
  | nil => simp [Memory.write, Memory.read, Ne.symm h]
  | cons c m ih =>
    obtain ⟨a, b⟩ := c
    unfold Memory.write
    split
    · rw [Memory.read, if_neg (Ne.symm h)]
    · split
      · next hka => subst hka; simp [Memory.read, Ne.symm h]
      · rw [Memory.read, Memory.read, ih]

/-- Read after write, both cases at once. -/
theorem Memory.read_write (m : Memory) (k j : Nat) (v : Byte) :
    Memory.read (Memory.write m k v) j = if j = k then some v else Memory.read m j := by
  split
  · next h => subst h; exact read_write_same m j v
  · next h => exact read_write_other m k j v h

/-- The canonical form, on a list with a head: the head's index is below every later one. -/
theorem Memory.wf_cons (a : Nat) (b : Byte) (m : Memory) :
    Memory.wf ((a, b) :: m) = true ↔ (∀ c ∈ m.head?, a < c.1) ∧ Memory.wf m = true := by
  cases m with
  | nil => simp [Memory.wf]
  | cons c m => obtain ⟨x, y⟩ := c; simp [Memory.wf]

theorem Memory.head_write (m : Memory) (k : Nat) (v : Byte) (n : Nat) (hk : n < k) (h : ∀ c ∈ m.head?, n < c.1) :
    ∀ c ∈ (Memory.write m k v).head?, n < c.1 := by
  cases m with
  | nil => simpa [Memory.write] using hk
  | cons c m =>
    obtain ⟨a, b⟩ := c
    simp only [List.head?_cons, Option.mem_def, Option.some.injEq, forall_eq'] at h
    unfold Memory.write
    split
    · simpa using hk
    · split
      · simpa using hk
      · simpa using h

/-- A write keeps the canonical form. -/
theorem Memory.write_wf (m : Memory) (k : Nat) (v : Byte) (h : Memory.wf m = true) : Memory.wf (Memory.write m k v) = true := by
  induction m with
  | nil => rfl
  | cons c m ih =>
    obtain ⟨a, b⟩ := c
    have hm := (Memory.wf_cons a b m).1 h
    unfold Memory.write
    split
    · next hk => exact (Memory.wf_cons k v _).2 ⟨by simpa using hk, h⟩
    · split
      · next hka => subst hka; exact (Memory.wf_cons k v m).2 hm
      · next h1 h2 => exact (Memory.wf_cons a b _).2 ⟨Memory.head_write m k v a (by omega) hm.1, ih hm.2⟩

/-- A write below the capacity keeps every index below it. -/
theorem Memory.write_within (n : Nat) (m : Memory) (k : Nat) (v : Byte) (hk : k < n) (h : Memory.within n m = true) :
    Memory.within n (Memory.write m k v) = true := by
  induction m with
  | nil => simpa [Memory.write, Memory.within] using hk
  | cons c m ih =>
    obtain ⟨a, b⟩ := c
    have h' : a < n ∧ Memory.within n m = true := by simpa [Memory.within] using h
    unfold Memory.write
    split
    · simpa [Memory.within, hk] using h'
    · split
      · simpa [Memory.within, hk] using h'.2
      · have := ih h'.2
        simp only [Memory.within, List.all_cons, Bool.and_eq_true, decide_eq_true_eq] at *
        exact ⟨h'.1, this⟩

/-- Byte j after a run of bytes has been written from k on. -/
theorem Memory.read_writeBytes (bs : List Byte) : ∀ (m : Memory) (k j : Nat),
    Memory.read (Memory.writeBytes m k bs) j =
      if k ≤ j ∧ j < k + bs.length then bs[j - k]? else Memory.read m j := by
  induction bs with
  | nil => intro m k j; simp [Memory.writeBytes]
  | cons b bs ih =>
    intro m k j
    rw [Memory.writeBytes, ih, Memory.read_write]
    rcases Nat.lt_trichotomy j k with h | h | h
    · simp [show ¬ (k + 1 ≤ j) by omega, show ¬ (k ≤ j) by omega, show j ≠ k by omega]
    · subst h; simp
    · obtain ⟨d, rfl⟩ : ∃ d, j = k + 1 + d := ⟨j - (k + 1), by omega⟩
      have e1 : k + 1 + d - (k + 1) = d := by omega
      have e2 : k + 1 + d - k = d + 1 := by omega
      by_cases hd : d < bs.length
      · rw [if_pos (by omega), if_pos (by simp; omega), e1, e2]; simp
      · rw [if_neg (by omega), if_neg (by omega), if_neg (by simp; omega)]

theorem Memory.writeBytes_append (bs cs : List Byte) : ∀ (m : Memory) (k : Nat),
    Memory.writeBytes m k (bs ++ cs) = Memory.writeBytes (Memory.writeBytes m k bs) (k + bs.length) cs := by
  induction bs with
  | nil => intro m k; rfl
  | cons b bs ih =>
    intro m k
    rw [List.cons_append, Memory.writeBytes, Memory.writeBytes, ih, List.length_cons, Nat.add_assoc, Nat.add_comm 1]

theorem Memory.writeBytes_wf (bs : List Byte) : ∀ (m : Memory) (k : Nat), Memory.wf m = true →
    Memory.wf (Memory.writeBytes m k bs) = true := by
  induction bs with
  | nil => intro m k h; exact h
  | cons b bs ih => intro m k h; exact ih _ _ (Memory.write_wf m k b h)

theorem Memory.writeBytes_within (n : Nat) (bs : List Byte) : ∀ (m : Memory) (k : Nat), k + bs.length ≤ n →
    Memory.within n m = true → Memory.within n (Memory.writeBytes m k bs) = true := by
  induction bs with
  | nil => intro m k _ h; exact h
  | cons b bs ih =>
    intro m k hk h
    simp only [List.length_cons] at hk
    exact ih _ _ (by omega) (Memory.write_within n m k b (by omega) h)

end Sys2Proof.Machine
end

