-- ==== Sys2Proof/Laws/Cartridge.lean ====
section
/-! SUPPORT. The reference cartridges (20_memory.md R95 to R98) at their RAM window: what an accepted write stores and what a
read answers, said once, at offset i of 0xA000. -/

namespace Sys2Proof.Machine

theorem cartAfter_append (c : Cartridge) (es fs : List BusWrite) :
    cartAfter c (es ++ fs) = cartAfter (cartAfter c es) fs := List.foldl_append

/-- A plain ROM ignores register writes (R95). -/
theorem cartAfter_rom_registers (c : RefRom) (ws : List (Addr × Byte)) : cartAfter (.rom c) (registerEvents ws) = .rom c := by
  induction ws with
  | nil => rfl
  | cons w ws ih =>
    have h : Cartridge.accept (.rom c) ⟨w.1, false, w.2⟩ = .rom c := by simp [Cartridge.accept, RefRom.accept]
    rw [registerEvents, List.map_cons, cartAfter, List.foldl_cons, h]
    exact ih

section window
variable (a : Addr) (d : Byte) {i : Nat}

theorem windowAddr_toNat (hi : i < 8192) : (0xA000 + BitVec.ofNat 16 i : Addr).toNat = 0xA000 + i := by
  simp [BitVec.toNat_add]
  omega

theorem windowAddr_inside (hi : i < 8192) : inRamWindow (0xA000 + BitVec.ofNat 16 i : Addr) = true := by
  simp only [inRamWindow, windowAddr_toNat hi]
  simp
  omega

theorem ramIndex_eq (bank nr : Nat) (h : a.toNat - 0xA000 = i) : ramIndex bank nr a = bank % nr * 8192 + i :=
  congrArg (fun k => bank % nr * 8192 + k) h

variable (ha : a.toNat = 0xA000 + i) (hw : inRamWindow a = true)
include ha hw

theorem RefRom.accept_ram (c : RefRom) (hn : c.nr = 1) :
    c.accept ⟨a, true, d⟩ = { c with ram := Memory.write c.ram i d } := by
  have h : a.toNat - 0xA000 = i := by omega
  rw [RefRom.accept, if_pos (by simp [hw, hn])]
  rw [h]

theorem RefRom.answer_ram (c : RefRom) (hn : c.nr = 1) : c.answer a true = some (ramByte c.ram i) := by
  have h : a.toNat - 0xA000 = i := by omega
  rw [RefRom.answer, if_neg (by omega), if_pos (by simp [hw, hn]), h]

theorem RefMbc1.accept_ram (c : RefMbc1) (hg : c.ramg = 0xA) (hm : c.mode = 1) (hn : 0 < c.nr) :
    c.accept ⟨a, true, d⟩ = { c with ram := Memory.write c.ram (c.bank2.toNat % c.nr * 8192 + i) d } := by
  rw [RefMbc1.accept, if_neg (by rw [ha]; omega), if_neg (by rw [ha]; omega), if_neg (by rw [ha]; omega),
    if_neg (by rw [ha]; omega), if_pos (by simp [RefMbc1.ramOpen, hw, hg, hn])]
  rw [RefMbc1.ramBank, if_pos hm, ramIndex_eq (i := i) _ _ _ (by simp only [ha]; omega)]

theorem RefMbc1.answer_ram (c : RefMbc1) (hg : c.ramg = 0xA) (hm : c.mode = 1) (hn : 0 < c.nr) :
    c.answer a true = some (ramByte c.ram (c.bank2.toNat % c.nr * 8192 + i)) := by
  rw [RefMbc1.answer, if_neg (by omega), if_neg (by omega), if_pos (by simp [RefMbc1.ramOpen, hw, hg, hn])]
  rw [RefMbc1.ramBank, if_pos hm, ramIndex_eq (i := i) _ _ _ (by simp only [ha]; omega)]

theorem RefMbc3.accept_ram (c : RefMbc3) (hg : c.ramg = 0xA) (hb : c.ramb.toNat < 4) (hn : 0 < c.nr) :
    c.accept ⟨a, true, d⟩ = .mbc3 { c with ram := Memory.write c.ram (c.ramb.toNat % c.nr * 8192 + i) d } := by
  rw [RefMbc3.accept, if_neg (by rw [ha]; omega), if_pos (by simp [RefMbc3.windowOpen, hw, hg]), if_pos hb,
    if_neg (by omega), ramIndex_eq (i := i) _ _ _ (by simp only [ha]; omega)]

theorem RefMbc3.answer_ram (c : RefMbc3) (hg : c.ramg = 0xA) (hb : c.ramb.toNat < 4) (hn : 0 < c.nr) :
    c.answer a true = some (ramByte c.ram (c.ramb.toNat % c.nr * 8192 + i)) := by
  rw [RefMbc3.answer, if_neg (by omega), if_neg (by omega), if_pos (by simp [RefMbc3.windowOpen, hw, hg]), if_pos hb,
    if_neg (by omega), ramIndex_eq (i := i) _ _ _ (by simp only [ha]; omega)]

/-- With a clock register selected the window answers the latched register (R97, 10_state.md R41). -/
theorem RefMbc3.answer_clock (c : RefMbc3) (hg : c.ramg = 0xA) (hb : 8 ≤ c.ramb.toNat) :
    c.answer a true = c.rtcLatched.get (c.ramb.toNat - 8) := by
  rw [RefMbc3.answer, if_neg (by omega), if_neg (by omega), if_pos (by simp [RefMbc3.windowOpen, hw, hg]),
    if_neg (by omega), if_pos hb]

theorem RefMbc5.accept_ram (c : RefMbc5) (hg : c.ramg = 0xA) (hn : 0 < c.nr) :
    c.accept ⟨a, true, d⟩ = { c with ram := Memory.write c.ram (c.ramb.toNat % c.nr * 8192 + i) d } := by
  rw [RefMbc5.accept, if_neg (by rw [ha]; omega), if_neg (by rw [ha]; omega), if_neg (by rw [ha]; omega),
    if_neg (by rw [ha]; omega), if_pos (by simp [RefMbc5.ramOpen, hw, hg, hn])]
  rw [ramIndex_eq (i := i) _ _ _ (by simp only [ha]; omega)]

theorem RefMbc5.answer_ram (c : RefMbc5) (hg : c.ramg = 0xA) (hn : 0 < c.nr) :
    c.answer a true = some (ramByte c.ram (c.ramb.toNat % c.nr * 8192 + i)) := by
  rw [RefMbc5.answer, if_neg (by omega), if_neg (by omega), if_pos (by simp [RefMbc5.ramOpen, hw, hg, hn])]
  rw [ramIndex_eq (i := i) _ _ _ (by simp only [ha]; omega)]

end window

end Sys2Proof.Machine
end

