-- ==== Sys2Proof/Laws/Cells.lean ====
section
/-! SUPPORT. What the cells, the register-write lists and the windows of 41_cartridge_common.md do, said once, from every
state in which the bus is ready: DIN_LOAD, DOUT_OE and RD deasserted and the two latch lines at rest. CS may stand either
way. SAFE is such a state, and every one of these sequences keeps it such a state. -/

namespace Sys2Proof.Machine

/-- The bus is ready for a cell. -/
structure Bss.Ready (b : Bss) (l : Levels) : Prop where
  load   : b.dinLoad = !l.dinLoad
  oe     : b.doutOe = !l.doutOe
  rd     : b.rd = !l.rd
  aLatch : b.addrLatch = false
  dLatch : b.doutLatch = false

theorem safeBss_ready (l : Levels) : (safeBss l).Ready l := ⟨rfl, rfl, rfl, rfl, rfl⟩

/-! ### `register_write` -/

/-- The state `register_write(a, d)` leaves (R150). -/
def State.registerWritten (s : State) (a : Addr) (d : Byte) : State := (s.addressed a).dataSent d

/-- `register_write(address, value)` = `shift_out_address(address)` then `shift_out_data(value)` (R150). -/
theorem run_registerWrite (a : Addr) (d : Byte) (s : State) (h1 : s.bss.dinLoad = !s.params.levels.dinLoad)
    (h2 : s.bss.rd = !s.params.levels.rd) (h3 : s.bss.addrLatch = false) (h4 : s.bss.doutLatch = false) :
    run (registerWriteSeq s.params a d) s = s.registerWritten a d := by
  rw [registerWriteSeq, run_append, run_shiftOutAddress a s ⟨h1, Or.inr h2⟩ h3]
  exact run_shiftOutData d (s.addressed a) h1 h2 h4

/-- What `register_write(a, d)` leaves, field by field: one event, the latches, the lines, 82 settle waits. -/
theorem registerWritten_eq (s : State) (a : Addr) (d : Byte) : s.registerWritten a d =
    { s with
      bss := { s.bss with addrSer := a.getLsbD 0, addrClk := false, addrLatch := false, doutSer := d.getLsbD 0,
                          doutClk := false, doutLatch := false, doutOe := !s.params.levels.doutOe,
                          wr := !s.params.levels.wr }
      asr := a
      alat := a
      dsr := d
      dlat := d
      settles := s.settles + 82
      cart := s.cart.accept ⟨a, s.asserted .cs, d⟩
      busWrites := s.busWrites ++ [⟨a, s.asserted .cs, d⟩]
      rumbleBreach := s.rumbleBreach || s.breaches ⟨a, s.asserted .cs, d⟩ } := by
  simp only [State.registerWritten, State.dataSent, State.addressed, State.eventOf, Nat.add_assoc, Nat.reduceAdd]
  rfl

/-- A register write leaves the bus ready. -/
theorem registerWritten_ready {s : State} (h : s.bss.Ready s.params.levels) (a : Addr) (d : Byte) :
    (s.registerWritten a d).bss.Ready (s.registerWritten a d).params.levels :=
  ⟨h.load, rfl, h.rd, rfl, rfl⟩

/-- The state after a list of register writes, one at a time. -/
def State.writesDone (s : State) (ws : List (Addr × Byte)) : State :=
  ws.foldl (fun t w => t.registerWritten w.1 w.2) s

theorem writesDone_ready (ws : List (Addr × Byte)) : ∀ s : State, s.bss.Ready s.params.levels →
    (s.writesDone ws).bss.Ready (s.writesDone ws).params.levels := by
  induction ws with
  | nil => intro s h; exact h
  | cons w ws ih => intro s h; exact ih _ (registerWritten_ready h w.1 w.2)

theorem run_registerWrites (ws : List (Addr × Byte)) : ∀ s : State, s.bss.Ready s.params.levels →
    run (registerWritesSeq s.params ws) s = s.writesDone ws := by
  induction ws with
  | nil => intro s _; rfl
  | cons w ws ih =>
    intro s h
    rw [registerWritesSeq, run_append, run_registerWrite w.1 w.2 s h.load h.rd h.aLatch h.dLatch]
    exact ih (s.registerWritten w.1 w.2) (registerWritten_ready h w.1 w.2)

/-! ### `read_cell` -/

/-- The byte a read cell at an address returns, the n-th free value standing in where the cartridge fixes none (R70). -/
def State.cellByte (s : State) (a : Addr) (n : Nat) : Byte :=
  (s.cart.answer a (s.asserted .cs)).getD (Config.freeByte n)

/-- The state `read_cell(a)` leaves; its result is `v` (R152). -/
def State.cellRead (s : State) (a : Addr) : State :=
  { s with
    bss := { s.bss with addrSer := a.getLsbD 0, addrClk := false, addrLatch := false,
                        dinLoad := !s.params.levels.dinLoad, dinClk := false, rd := !s.params.levels.rd }
    asr := a
    alat := a
    v := some (s.cellByte a s.draws)
    isr := shiftedFree 8 (s.draws + 1) (s.cellByte a s.draws)
    draws := s.draws + 9
    settles := s.settles + 72 }

/-- RD asserted, one settle wait later. -/
def State.reading (s : State) : State :=
  { s with bss := { s.bss with rd := s.params.levels.rd }, settles := s.settles + 1 }

/-- `read_cell(addr)`: the cartridge's byte for the address, RD back at rest (72 settle waits; R152). -/
theorem run_readCell (a : Addr) (s : State) (h1 : s.bss.dinLoad = !s.params.levels.dinLoad)
    (h2 : s.bss.doutOe = !s.params.levels.doutOe) (h3 : s.bss.addrLatch = false) :
    run (readCellSeq s.params a) s = s.cellRead a := by
  have e : micro (assertLine s.params .rd) s = s.reading := by
    simp [micro, drive, gpioWrite, clockAddress, clockData, setPins, clockInput, settle, Bss.set, State.asserted,
      Bss.asserted, Bss.get, Strobe.field, levelOf, assertLine, h1, h2, State.reading]
  have e2 : run (shiftInDataSeq s.params) (s.reading.addressed a) = (s.reading.addressed a).dataTaken :=
    run_shiftInData (s.reading.addressed a) (Or.inl h2)
  rw [readCellSeq, run_cons, e, run_append, run_append, run_shiftOutAddress a s.reading ⟨h1, Or.inl h2⟩ h3, e2]
  simp [micro, drive, gpioWrite, clockAddress, clockData, setPins, clockInput, settle, Bss.set, State.asserted,
    Bss.asserted, Bss.get, Strobe.field, levelOf, deassertLine, h2, State.dataBus, State.cartridgeByte, State.cellByte,
    State.reading, State.addressed, State.dataTaken, State.cellRead]

/-! ### The windows -/

/-- A cell read and stored at BankBuffer[n]. -/
def State.cellStored (s : State) (a : Addr) (n : Nat) : State :=
  { s.cellRead a with bankBuffer := Memory.write s.bankBuffer n (s.cellByte a s.draws), v := none }

/-- The state after n cells of a read window, one at a time. -/
def State.windowRead (s : State) (base : Addr) : Nat → State
  | 0 => s
  | n + 1 => (s.windowRead base n).cellStored (effectiveAddress base n) n

theorem windowRead_ready {s : State} (h : s.bss.Ready s.params.levels) (base : Addr) (n : Nat) :
    (s.windowRead base n).bss.Ready (s.windowRead base n).params.levels := by
  induction n with
  | zero => exact h
  | succ n ih => exact ⟨rfl, ih.oe, rfl, rfl, ih.dLatch⟩

theorem windowRead_params (s : State) (base : Addr) (n : Nat) : (s.windowRead base n).params = s.params := by
  induction n with
  | zero => rfl
  | succ n ih => exact ih

theorem run_readWindow (base : Addr) (n : Nat) (s : State) (h : s.bss.Ready s.params.levels) :
    run (readWindowSeq s.params base n) s = s.windowRead base n := by
  induction n with
  | zero => rfl
  | succ n ih =>
    have hr := windowRead_ready h base n
    have e := run_readCell (effectiveAddress base n) (s.windowRead base n) hr.load hr.oe hr.aLatch
    rw [windowRead_params] at e
    rw [readWindowSeq, run_append, run_append, ih, e]
    rfl

/-- The state after n cells of a write window, one at a time. -/
def State.windowWritten (s : State) (base : Addr) (data : Nat → Byte) : Nat → State
  | 0 => s
  | n + 1 => (s.windowWritten base data n).registerWritten (effectiveAddress base n) (data n)

theorem windowWritten_ready {s : State} (h : s.bss.Ready s.params.levels) (base : Addr) (data : Nat → Byte) (n : Nat) :
    (s.windowWritten base data n).bss.Ready (s.windowWritten base data n).params.levels := by
  induction n with
  | zero => exact h
  | succ n ih => exact registerWritten_ready ih _ _

theorem windowWritten_params (s : State) (base : Addr) (data : Nat → Byte) (n : Nat) :
    (s.windowWritten base data n).params = s.params := by
  induction n with
  | zero => rfl
  | succ n ih => exact ih

theorem run_writeWindow (base : Addr) (data : Nat → Byte) (n : Nat) (s : State) (h : s.bss.Ready s.params.levels) :
    run (writeWindowSeq s.params base data n) s = s.windowWritten base data n := by
  induction n with
  | zero => rfl
  | succ n ih =>
    have hr := windowWritten_ready h base data n
    have e := run_registerWrite (effectiveAddress base n) (data n) (s.windowWritten base data n)
      hr.load hr.rd hr.aLatch hr.dLatch
    rw [windowWritten_params] at e
    rw [writeWindowSeq, run_append, ih, writeCellSeq, e]
    rfl

end Sys2Proof.Machine
end

