-- ==== Sys2Proof/Laws/Operations.lean ====
section
/-! SUPPORT. What the operations of files 41 to 44 do, said once: the state each sequence leaves as a composition of the
cells' states, and the fields of those states one by one. -/

namespace Sys2Proof.Machine

/-! ### `reset()` and chip-select -/

/-- The state `reset()` leaves (R132). -/
def State.safeDriven (s : State) : State := { s with bss := safeBss s.params.levels, settles := s.settles + 1 }

/-- `reset()` from any BSS value at all: SAFE, and nothing else changes but the settle wait (R132, R323). -/
theorem driveSafe_eq (s : State) : driveSafe s = s.safeDriven := by
  simp [driveSafe, gpioWrite, clockAddress, clockData, setPins, clockInput, settle, safeBss, State.asserted,
    Bss.asserted, Bss.get, Strobe.field, levelOf, State.safeDriven]

theorem safeDriven_ready (s : State) : s.safeDriven.bss.Ready s.safeDriven.params.levels := safeBss_ready _

/-- CS put to a level, one settle wait later. -/
def State.csDriven (s : State) (level : Bool) : State :=
  { s with bss := { s.bss with cs := level }, settles := s.settles + 1 }

theorem micro_cs (s : State) (level : Bool) (h : s.bss.Ready s.params.levels) :
    micro (.drive .cs level) s = s.csDriven level := by
  simp [micro, drive, gpioWrite, clockAddress, clockData, setPins, clockInput, settle, Bss.set, State.asserted,
    Bss.asserted, Bss.get, Strobe.field, levelOf, h.load, h.oe, State.csDriven]

theorem csDriven_ready {s : State} (h : s.bss.Ready s.params.levels) (level : Bool) :
    (s.csDriven level).bss.Ready (s.csDriven level).params.levels := ⟨h.load, h.oe, h.rd, h.aLatch, h.dLatch⟩

/-! ### `reset_cartridge` and the three shapes -/

/-- The four zero writes of `reset_cartridge` (R151). -/
def zeroWrites (p : Params) (v : Variant) : List (Addr × Byte) := (variantRegs p v).map fun r => (r, 0)

/-- The state `reset_cartridge(V)` leaves (R151). -/
def State.cartridgeReset (s : State) (v : Variant) : State :=
  (s.safeDriven.writesDone (zeroWrites s.params v)).safeDriven

theorem writesDone_params (ws : List (Addr × Byte)) : ∀ s : State, (s.writesDone ws).params = s.params := by
  induction ws with
  | nil => intro s; rfl
  | cons w ws ih => intro s; exact ih _

theorem run_resetCartridge (v : Variant) (s : State) : run (resetCartridgeSeq s.params v) s = s.cartridgeReset v := by
  have e := run_registerWrites (zeroWrites s.params v) s.safeDriven (safeDriven_ready s)
  rw [resetCartridgeSeq, run_cons, run_append]
  change run [Micro.safe] (run (registerWritesSeq s.params (zeroWrites s.params v)) (driveSafe s)) = _
  rw [driveSafe_eq]
  change run [Micro.safe] (run (registerWritesSeq s.safeDriven.params (zeroWrites s.params v)) s.safeDriven) = _
  rw [e]
  exact driveSafe_eq _

theorem cartridgeReset_params (s : State) (v : Variant) : (s.cartridgeReset v).params = s.params :=
  writesDone_params _ _

theorem cartridgeReset_ready (s : State) (v : Variant) :
    (s.cartridgeReset v).bss.Ready (s.cartridgeReset v).params.levels := safeDriven_ready _

/-- The cartridge reset, then a list of register writes: where every banked access starts. -/
def State.selected (s : State) (v : Variant) (select : List (Addr × Byte)) : State :=
  (s.cartridgeReset v).writesDone select

theorem selected_params (s : State) (v : Variant) (select : List (Addr × Byte)) :
    (s.selected v select).params = s.params := by
  rw [State.selected, writesDone_params, cartridgeReset_params]

theorem selected_ready (s : State) (v : Variant) (select : List (Addr × Byte)) :
    (s.selected v select).bss.Ready (s.selected v select).params.levels :=
  writesDone_ready _ _ (cartridgeReset_ready s v)

theorem run_select (s : State) (v : Variant) (select : List (Addr × Byte)) :
    run (resetCartridgeSeq s.params v ++ registerWritesSeq s.params select) s = s.selected v select := by
  have e := run_registerWrites select (s.cartridgeReset v) (cartridgeReset_ready s v)
  rw [cartridgeReset_params] at e
  rw [run_append, run_resetCartridge, e]
  rfl

/-- The state a ROM read leaves (R170, R180, R200). -/
def State.romRead (s : State) (v : Variant) (select : List (Addr × Byte)) (base : Addr) : State :=
  ((s.selected v select).windowRead base romBankSize).safeDriven

theorem run_readRomShape (s : State) (v : Variant) (select : List (Addr × Byte)) (base : Addr) :
    run (readRomShape s.params v select base) s = s.romRead v select base := by
  have e := run_readWindow base romBankSize (s.selected v select) (selected_ready s v select)
  rw [selected_params] at e
  rw [readRomShape, run_append, run_append, run_select, e]
  exact driveSafe_eq _

/-- The state `MBC1.read_header` leaves (R171). -/
def State.headerRead (s : State) : State :=
  ((s.cartridgeReset .mbc1).windowRead s.params.headerBase headerLen).safeDriven

theorem run_readHeader (s : State) : run (mbc1ReadHeaderSeq s.params) s = s.headerRead := by
  have e := run_readWindow s.params.headerBase headerLen (s.cartridgeReset .mbc1) (cartridgeReset_ready s .mbc1)
  rw [cartridgeReset_params] at e
  rw [mbc1ReadHeaderSeq, run_append, run_append, run_resetCartridge, e]
  exact driveSafe_eq _

/-- Selected, with CS asserted: where the RAM cells start. -/
def State.ramOpened (s : State) (v : Variant) (select : List (Addr × Byte)) : State :=
  (s.selected v select).csDriven s.params.levels.cs

theorem ramOpened_params (s : State) (v : Variant) (select : List (Addr × Byte)) :
    (s.ramOpened v select).params = s.params := selected_params s v select

theorem ramOpened_ready (s : State) (v : Variant) (select : List (Addr × Byte)) :
    (s.ramOpened v select).bss.Ready (s.ramOpened v select).params.levels :=
  csDriven_ready (selected_ready s v select) _

theorem run_openRam (s : State) (v : Variant) (select : List (Addr × Byte)) (ms : List Micro) :
    run (resetCartridgeSeq s.params v ++ registerWritesSeq s.params select ++ (assertLine s.params .cs :: ms)) s =
    run ms (s.ramOpened v select) := by
  rw [run_append, run_select, run_cons]
  change run ms (micro (.drive .cs s.params.levels.cs) (s.selected v select)) = _
  rw [micro_cs _ _ (selected_ready s v select)]
  rfl

/-- CS deasserted and `reset()`: how every RAM operation closes. -/
def State.ramClosed (s : State) : State := (s.csDriven (!s.params.levels.cs)).safeDriven

theorem run_closeRam (s : State) (h : s.bss.Ready s.params.levels) :
    run [deassertLine s.params .cs, .safe] s = s.ramClosed := by
  rw [run_cons]
  change run [Micro.safe] (micro (.drive .cs (!s.params.levels.cs)) s) = _
  rw [micro_cs _ _ h]
  exact driveSafe_eq _

/-- The state a RAM read leaves (R172, R181, R201). -/
def State.ramRead (s : State) (v : Variant) (select : List (Addr × Byte)) : State :=
  ((s.ramOpened v select).windowRead winRam ramBankSize).ramClosed

theorem run_readRamShape (s : State) (v : Variant) (select : List (Addr × Byte)) :
    run (readRamShape s.params v select) s = s.ramRead v select := by
  have e := run_readWindow winRam ramBankSize (s.ramOpened v select) (ramOpened_ready s v select)
  have c := run_closeRam ((s.ramOpened v select).windowRead winRam ramBankSize)
    (windowRead_ready (ramOpened_ready s v select) winRam ramBankSize)
  rw [windowRead_params, ramOpened_params] at c
  rw [ramOpened_params] at e
  rw [readRamShape, run_openRam, run_append, e, c]
  rfl

/-- The state a RAM write leaves (R173, R182, R202). -/
def State.ramWritten (s : State) (v : Variant) (select : List (Addr × Byte)) (data : Nat → Byte) : State :=
  ((s.ramOpened v select).windowWritten winRam data ramBankSize).ramClosed

theorem run_writeRamShape (s : State) (v : Variant) (select : List (Addr × Byte)) (data : Nat → Byte) :
    run (writeRamShape s.params v select data) s = s.ramWritten v select data := by
  have e := run_writeWindow winRam data ramBankSize (s.ramOpened v select) (ramOpened_ready s v select)
  have c := run_closeRam ((s.ramOpened v select).windowWritten winRam data ramBankSize)
    (windowWritten_ready (ramOpened_ready s v select) winRam data ramBankSize)
  rw [windowWritten_params, ramOpened_params] at c
  rw [ramOpened_params] at e
  rw [writeRamShape, run_openRam, run_append, e, c]
  rfl

/-! ### `MBC3.read_rtc` -/

/-- RTC register n selected, read and stored (R183). -/
def State.rtcCell (s : State) (n : Nat) : State :=
  (((s.registerWritten s.params.m3Ramb (s.params.rtcBase + BitVec.ofNat 8 n)).csDriven s.params.levels.cs).cellStored
    winRam n).csDriven (!s.params.levels.cs)

def State.rtcCells (s : State) : Nat → State
  | 0 => s
  | n + 1 => (s.rtcCells n).rtcCell n

theorem rtcCells_ready {s : State} (h : s.bss.Ready s.params.levels) (n : Nat) :
    (s.rtcCells n).bss.Ready (s.rtcCells n).params.levels := by
  induction n with
  | zero => exact h
  | succ n ih => exact ⟨rfl, rfl, rfl, rfl, rfl⟩

theorem rtcCells_params (s : State) (n : Nat) : (s.rtcCells n).params = s.params := by
  induction n with
  | zero => rfl
  | succ n ih => exact ih

theorem run_rtcCell (s : State) (n : Nat) (h : s.bss.Ready s.params.levels) :
    run (registerWriteSeq s.params s.params.m3Ramb (s.params.rtcBase + BitVec.ofNat 8 n) ++
        (assertLine s.params .cs :: (readCellSeq s.params winRam ++ [.store n, deassertLine s.params .cs]))) s =
    s.rtcCell n := by
  let a := s.registerWritten s.params.m3Ramb (s.params.rtcBase + BitVec.ofNat 8 n)
  have ha : a.bss.Ready a.params.levels := registerWritten_ready h _ _
  have e := run_readCell winRam (a.csDriven s.params.levels.cs) ha.load ha.oe ha.aLatch
  have hc : ((a.csDriven s.params.levels.cs).cellStored winRam n).bss.Ready
      ((a.csDriven s.params.levels.cs).cellStored winRam n).params.levels :=
    ⟨rfl, ha.oe, rfl, rfl, ha.dLatch⟩
  rw [run_append, run_registerWrite _ _ s h.load h.rd h.aLatch h.dLatch, run_cons]
  change run _ (micro (.drive .cs s.params.levels.cs) a) = _
  rw [micro_cs _ _ ha, run_append]
  change run _ (run (readCellSeq (a.csDriven s.params.levels.cs).params winRam) (a.csDriven s.params.levels.cs)) = _
  rw [e, run_cons]
  change run [Micro.drive .cs (!s.params.levels.cs)] ((a.csDriven s.params.levels.cs).cellStored winRam n) = _
  rw [run_cons, micro_cs _ _ hc]
  rfl

theorem run_rtcCells (n : Nat) (s : State) (h : s.bss.Ready s.params.levels) :
    run (rtcCellsSeq s.params n) s = s.rtcCells n := by
  induction n with
  | zero => rfl
  | succ n ih =>
    have e := run_rtcCell (s.rtcCells n) n (rtcCells_ready h n)
    rw [rtcCells_params] at e
    rw [rtcCellsSeq, run_append, ih, e]
    rfl

/-- The writes of `MBC3.read_rtc` before its cells: gate, then latch 0, then latch 1 (R183). -/
def rtcSelect (p : Params) : List (Addr × Byte) := [(p.m3Ramg, p.ramEnable), (p.m3Latch, 0x00), (p.m3Latch, 0x01)]

/-- The state `MBC3.read_rtc` leaves (R183). -/
def State.rtcRead (s : State) : State := ((s.selected .mbc3 (rtcSelect s.params)).rtcCells 5).safeDriven

theorem run_readRtc (s : State) : run (mbc3ReadRtcSeq s.params) s = s.rtcRead := by
  have e := run_rtcCells 5 (s.selected .mbc3 (rtcSelect s.params)) (selected_ready s .mbc3 _)
  rw [selected_params] at e
  have f := run_select s .mbc3 (rtcSelect s.params)
  rw [rtcSelect] at f
  rw [mbc3ReadRtcSeq, run_append, run_append, f]
  change run [Micro.safe] (run (rtcCellsSeq s.params 5) (s.selected .mbc3 (rtcSelect s.params))) = _
  rw [e]
  exact driveSafe_eq _

end Sys2Proof.Machine
end

