-- ==== Sys2Proof/Laws/State.lean ====
section
/-! SUPPORT. One lemma for each field of the shared updates of the state (streams, begin and end of a command, the waits,
the delivery of an event), so that no later proof unfolds one. -/

namespace Sys2Proof.Machine

/-! ### `txBytes` -/

section tx
variable (bs : List Byte) (s : State)

@[simp] theorem txBytes_tx : (txBytes bs s).tx = s.tx ++ bs := rfl
@[simp] theorem txBytes_txDrained : (txBytes bs s).txDrained = s.txDrained := rfl
@[simp] theorem txBytes_txSpace : (txBytes bs s).txSpace = s.txSpace.map (· - bs.length) := rfl
@[simp] theorem txBytes_bench : (txBytes bs s).bench = s.bench := rfl
@[simp] theorem txBytes_params : (txBytes bs s).params = s.params := rfl
@[simp] theorem txBytes_bss : (txBytes bs s).bss = s.bss := rfl
@[simp] theorem txBytes_asr : (txBytes bs s).asr = s.asr := rfl
@[simp] theorem txBytes_alat : (txBytes bs s).alat = s.alat := rfl
@[simp] theorem txBytes_dsr : (txBytes bs s).dsr = s.dsr := rfl
@[simp] theorem txBytes_dlat : (txBytes bs s).dlat = s.dlat := rfl
@[simp] theorem txBytes_isr : (txBytes bs s).isr = s.isr := rfl
@[simp] theorem txBytes_bankBuffer : (txBytes bs s).bankBuffer = s.bankBuffer := rfl
@[simp] theorem txBytes_reportBuf : (txBytes bs s).reportBuf = s.reportBuf := rfl
@[simp] theorem txBytes_rx : (txBytes bs s).rx = s.rx := rfl
@[simp] theorem txBytes_control : (txBytes bs s).control = s.control := rfl
@[simp] theorem txBytes_selector : (txBytes bs s).selector = s.selector := rfl
@[simp] theorem txBytes_descriptor : (txBytes bs s).descriptor = s.descriptor := rfl
@[simp] theorem txBytes_v : (txBytes bs s).v = s.v := rfl
@[simp] theorem txBytes_pending : (txBytes bs s).pending = s.pending := rfl
@[simp] theorem txBytes_cart : (txBytes bs s).cart = s.cart := rfl
@[simp] theorem txBytes_busWrites : (txBytes bs s).busWrites = s.busWrites := rfl
@[simp] theorem txBytes_contention : (txBytes bs s).contention = s.contention := rfl
@[simp] theorem txBytes_rumbleBreach : (txBytes bs s).rumbleBreach = s.rumbleBreach := rfl
@[simp] theorem txBytes_draws : (txBytes bs s).draws = s.draws := rfl
@[simp] theorem txBytes_settles : (txBytes bs s).settles = s.settles := rfl
@[simp] theorem txBytes_readBuffer (i : Nat) : (txBytes bs s).readBuffer i = s.readBuffer i := rfl

end tx

/-! ### A send: finished, or held -/

section send
variable (bs : List Byte) (next : AfterSend) (k : State → State) (s : State)

/-- A send that fits is made and followed by what comes next. -/
theorem sendThen_fits (h : s.roomFor bs.length = true) : sendThen bs next k s = k (txBytes bs s) := by
  rw [sendThen, if_pos h]

/-- A send the transport has no room for: it takes all it has room for, and the operation holds the rest. -/
theorem sendThen_short {room : Nat} (e : s.txSpace = some room) (l : room < bs.length) : sendThen bs next k s =
    { s with tx := s.tx ++ bs.take room, txSpace := some 0, control := .sending (bs.drop room) next } := by
  have h : s.roomFor bs.length = false := by simp [State.roomFor, e, l]
  rw [sendThen, if_neg (by simp [h])]
  simp [holdSending, txBytes, e, Nat.min_eq_left (Nat.le_of_lt l)]

/-- Everything a send can do: it is finished and k follows, or the transport took all it had room for and the operation holds the
rest. -/
theorem sendThen_cases : (s.roomFor bs.length = true ∧ sendThen bs next k s = k (txBytes bs s)) ∨
    ∃ room, s.txSpace = some room ∧ room < bs.length ∧
      sendThen bs next k s = { s with
        tx := s.tx ++ bs.take room, txSpace := some 0, control := .sending (bs.drop room) next } := by
  cases h : s.roomFor bs.length with
  | true => exact .inl ⟨rfl, sendThen_fits _ _ _ _ h⟩
  | false =>
    unfold State.roomFor at h
    split at h
    · cases h
    · next room e =>
      have l : room < bs.length := by simpa using h
      exact .inr ⟨room, e, l, sendThen_short bs next k s e l⟩

/-- Where the host drains by itself every send is finished (R84). -/
theorem sendThen_drains (h : s.txSpace = none) :
    sendThen bs next k s = k { s with tx := s.tx ++ bs } := by
  have e : txBytes bs s = { s with tx := s.tx ++ bs } := by simp [txBytes, h]
  rw [sendThen_fits _ _ _ _ (by rw [State.roomFor, h]), e]

/-- A property of every finished and every held send is a property of the send. -/
theorem sendThen_ind {P : State → Prop} (done : P (k (txBytes bs s)))
    (held : ∀ room, s.txSpace = some room → room < bs.length →
      P { s with tx := s.tx ++ bs.take room, txSpace := some 0, control := .sending (bs.drop room) next }) :
    P (sendThen bs next k s) := by
  rcases sendThen_cases bs next k s with ⟨-, e⟩ | ⟨room, h1, h2, e⟩
  · rw [e]; exact done
  · rw [e]; exact held room h1 h2

end send

/-! ### `startCommand`, `endCommand` -/

section command
variable (c : Byte) (s : State)

@[simp] theorem startCommand_selector : (startCommand c s).selector = some c := rfl
@[simp] theorem startCommand_descriptor : (startCommand c s).descriptor = none := rfl
@[simp] theorem startCommand_v : (startCommand c s).v = none := rfl
@[simp] theorem startCommand_params : (startCommand c s).params = s.params := rfl
@[simp] theorem startCommand_bss : (startCommand c s).bss = s.bss := rfl
@[simp] theorem startCommand_asr : (startCommand c s).asr = s.asr := rfl
@[simp] theorem startCommand_alat : (startCommand c s).alat = s.alat := rfl
@[simp] theorem startCommand_dsr : (startCommand c s).dsr = s.dsr := rfl
@[simp] theorem startCommand_dlat : (startCommand c s).dlat = s.dlat := rfl
@[simp] theorem startCommand_isr : (startCommand c s).isr = s.isr := rfl
@[simp] theorem startCommand_bankBuffer : (startCommand c s).bankBuffer = s.bankBuffer := rfl
@[simp] theorem startCommand_reportBuf : (startCommand c s).reportBuf = s.reportBuf := rfl
@[simp] theorem startCommand_tx : (startCommand c s).tx = s.tx := rfl
@[simp] theorem startCommand_txDrained : (startCommand c s).txDrained = s.txDrained := rfl
@[simp] theorem startCommand_rx : (startCommand c s).rx = s.rx := rfl
@[simp] theorem startCommand_control : (startCommand c s).control = s.control := rfl
@[simp] theorem startCommand_pending : (startCommand c s).pending = s.pending := rfl
@[simp] theorem startCommand_bench : (startCommand c s).bench = s.bench := rfl
@[simp] theorem startCommand_txSpace : (startCommand c s).txSpace = s.txSpace := rfl
@[simp] theorem startCommand_cart : (startCommand c s).cart = s.cart := rfl
@[simp] theorem startCommand_busWrites : (startCommand c s).busWrites = s.busWrites := rfl
@[simp] theorem startCommand_contention : (startCommand c s).contention = s.contention := rfl
@[simp] theorem startCommand_rumbleBreach : (startCommand c s).rumbleBreach = s.rumbleBreach := rfl
@[simp] theorem startCommand_draws : (startCommand c s).draws = s.draws := rfl
@[simp] theorem startCommand_settles : (startCommand c s).settles = s.settles := rfl

@[simp] theorem endCommand_control : (endCommand s).control = .idle := rfl
@[simp] theorem endCommand_selector : (endCommand s).selector = none := rfl
@[simp] theorem endCommand_descriptor : (endCommand s).descriptor = none := rfl
@[simp] theorem endCommand_v : (endCommand s).v = none := rfl
@[simp] theorem endCommand_params : (endCommand s).params = s.params := rfl
@[simp] theorem endCommand_bss : (endCommand s).bss = s.bss := rfl
@[simp] theorem endCommand_asr : (endCommand s).asr = s.asr := rfl
@[simp] theorem endCommand_alat : (endCommand s).alat = s.alat := rfl
@[simp] theorem endCommand_dsr : (endCommand s).dsr = s.dsr := rfl
@[simp] theorem endCommand_dlat : (endCommand s).dlat = s.dlat := rfl
@[simp] theorem endCommand_isr : (endCommand s).isr = s.isr := rfl
@[simp] theorem endCommand_bankBuffer : (endCommand s).bankBuffer = s.bankBuffer := rfl
@[simp] theorem endCommand_reportBuf : (endCommand s).reportBuf = s.reportBuf := rfl
@[simp] theorem endCommand_tx : (endCommand s).tx = s.tx := rfl
@[simp] theorem endCommand_txDrained : (endCommand s).txDrained = s.txDrained := rfl
@[simp] theorem endCommand_rx : (endCommand s).rx = s.rx := rfl
@[simp] theorem endCommand_pending : (endCommand s).pending = s.pending := rfl
@[simp] theorem endCommand_bench : (endCommand s).bench = s.bench := rfl
@[simp] theorem endCommand_txSpace : (endCommand s).txSpace = s.txSpace := rfl
@[simp] theorem endCommand_cart : (endCommand s).cart = s.cart := rfl
@[simp] theorem endCommand_busWrites : (endCommand s).busWrites = s.busWrites := rfl
@[simp] theorem endCommand_contention : (endCommand s).contention = s.contention := rfl
@[simp] theorem endCommand_rumbleBreach : (endCommand s).rumbleBreach = s.rumbleBreach := rfl
@[simp] theorem endCommand_draws : (endCommand s).draws = s.draws := rfl
@[simp] theorem endCommand_settles : (endCommand s).settles = s.settles := rfl

end command

/-! ### `parseBuffer` -/

section parse
variable (s : State)

@[simp] theorem parseBuffer_descriptor : (parseBuffer s).descriptor = some s.bufferDescriptor := rfl
@[simp] theorem parseBuffer_params : (parseBuffer s).params = s.params := rfl
@[simp] theorem parseBuffer_bss : (parseBuffer s).bss = s.bss := rfl
@[simp] theorem parseBuffer_bankBuffer : (parseBuffer s).bankBuffer = s.bankBuffer := rfl
@[simp] theorem parseBuffer_reportBuf : (parseBuffer s).reportBuf = s.reportBuf := rfl
@[simp] theorem parseBuffer_tx : (parseBuffer s).tx = s.tx := rfl
@[simp] theorem parseBuffer_txDrained : (parseBuffer s).txDrained = s.txDrained := rfl
@[simp] theorem parseBuffer_rx : (parseBuffer s).rx = s.rx := rfl
@[simp] theorem parseBuffer_control : (parseBuffer s).control = s.control := rfl
@[simp] theorem parseBuffer_selector : (parseBuffer s).selector = s.selector := rfl
@[simp] theorem parseBuffer_pending : (parseBuffer s).pending = s.pending := rfl
@[simp] theorem parseBuffer_bench : (parseBuffer s).bench = s.bench := rfl
@[simp] theorem parseBuffer_txSpace : (parseBuffer s).txSpace = s.txSpace := rfl
@[simp] theorem parseBuffer_cart : (parseBuffer s).cart = s.cart := rfl
@[simp] theorem parseBuffer_contention : (parseBuffer s).contention = s.contention := rfl
@[simp] theorem parseBuffer_bufferDescriptor : (parseBuffer s).bufferDescriptor = s.bufferDescriptor := rfl
@[simp] theorem parseBuffer_readBuffer (i : Nat) : (parseBuffer s).readBuffer i = s.readBuffer i := rfl

end parse

/-! ### How an operation begins and ends -/

/-- With no command in progress and no contention recorded an operation is what it does. -/
theorem begin_free {s : State} (hc : s.contention = false) (hi : s.control = .idle) (k : State → Result) :
    begin s k = k s := by
  simp [begin, hc, hi]

/-- An operation that answers a next state began freely. -/
theorem begin_next {s t : State} {k : State → Result} (h : begin s k = .next t) :
    s.contention = false ∧ s.control = .idle ∧ k s = .next t := by
  unfold begin at h
  split at h
  · cases h
  · next hc =>
    split at h
    · next hi => exact ⟨by simpa using hc, hi, h⟩
    · cases h
    · cases h
    · cases h

theorem conclude_clean {s : State} (h : s.contention = false) : conclude s = .next s := by simp [conclude, h]

theorem conclude_next {s t : State} (h : conclude s = .next t) : s.contention = false ∧ s = t := by
  unfold conclude at h
  split at h
  · cases h
  · next hc => cases h; exact ⟨by simpa using hc, rfl⟩

end Sys2Proof.Machine
end

