-- ==== Sys2Proof/Laws/Frame.lean ====
section
/-! SUPPORT. What no sequence of micro-steps touches, and what it does to the memories: said once for every sequence, so
that the frames of all bus operations come from here. -/

namespace Sys2Proof.Machine

/-- A cartridge with a motor, or of a rumble type, stays one: no write changes its ROM or its kind (R336). -/
theorem accept_rumbles (p : Params) (c : Cartridge) (w : BusWrite) : (c.accept w).rumbles p = c.rumbles p := by
  cases c with
  | unknown => rfl
  | rom c => rfl
  | mbc1 c => rfl
  | mbc3 c =>
    change (RefMbc3.accept c w).rumbles p = false
    unfold RefMbc3.accept
    split
    · rfl
    · split
      · split
        · split <;> rfl
        · rfl
      · rfl
  | mbc5 c =>
    change (Cartridge.mbc5 (c.accept w)).rumbles p = _
    unfold RefMbc5.accept
    repeat' split
    all_goals rfl

/-- The part of the state a sequence of micro-steps cannot reach. -/
structure Untouched (s t : State) : Prop where
  params     : t.params = s.params
  reportBuf  : t.reportBuf = s.reportBuf
  tx         : t.tx = s.tx
  txDrained  : t.txDrained = s.txDrained
  rx         : t.rx = s.rx
  control    : t.control = s.control
  selector   : t.selector = s.selector
  descriptor : t.descriptor = s.descriptor
  pending    : t.pending = s.pending
  bench      : t.bench = s.bench
  txSpace    : t.txSpace = s.txSpace
  rumbles    : t.cart.rumbles t.params = s.cart.rumbles s.params

theorem Untouched.refl (s : State) : Untouched s s := ⟨rfl, rfl, rfl, rfl, rfl, rfl, rfl, rfl, rfl, rfl, rfl, rfl⟩

theorem Untouched.trans {s t u : State} (h : Untouched s t) (k : Untouched t u) : Untouched s u :=
  ⟨k.params.trans h.params, k.reportBuf.trans h.reportBuf, k.tx.trans h.tx, k.txDrained.trans h.txDrained, k.rx.trans h.rx,
    k.control.trans h.control, k.selector.trans h.selector, k.descriptor.trans h.descriptor, k.pending.trans h.pending,
    k.bench.trans h.bench, k.txSpace.trans h.txSpace, k.rumbles.trans h.rumbles⟩

theorem clockInput_untouched (r : Bool) (s : State) : Untouched s (clockInput r s) := by
  unfold clockInput
  split
  · exact ⟨rfl, rfl, rfl, rfl, rfl, rfl, rfl, rfl, rfl, rfl, rfl, rfl⟩
  · split <;> exact ⟨rfl, rfl, rfl, rfl, rfl, rfl, rfl, rfl, rfl, rfl, rfl, rfl⟩

theorem gpioWrite_untouched (b : Bss) (s : State) : Untouched s (gpioWrite b s) :=
  Untouched.trans (t := setPins b (clockData b (clockAddress b s))) ⟨rfl, rfl, rfl, rfl, rfl, rfl, rfl, rfl, rfl, rfl, rfl, rfl⟩
    (clockInput_untouched _ _)

theorem drive_untouched (f : OutField) (l : Bool) (s : State) : Untouched s (drive f l s) := by
  have h : Untouched s (settle (gpioWrite (s.bss.set f l) s)) :=
    (gpioWrite_untouched _ s).trans ⟨rfl, rfl, rfl, rfl, rfl, rfl, rfl, rfl, rfl, rfl, rfl, rfl⟩
  rw [drive]
  split
  · exact h.trans ⟨rfl, rfl, rfl, rfl, rfl, rfl, rfl, rfl, rfl, rfl, rfl, accept_rumbles _ _ _⟩
  · exact h

theorem micro_untouched (m : Micro) (s : State) : Untouched s (micro m s) := by
  cases m with
  | drive f l => exact drive_untouched f l s
  | safe => exact (gpioWrite_untouched _ s).trans ⟨rfl, rfl, rfl, rfl, rfl, rfl, rfl, rfl, rfl, rfl, rfl, rfl⟩
  | clearV => exact ⟨rfl, rfl, rfl, rfl, rfl, rfl, rfl, rfl, rfl, rfl, rfl, rfl⟩
  | sample i =>
    change Untouched s (sampleBit i s)
    unfold sampleBit
    split <;> exact ⟨rfl, rfl, rfl, rfl, rfl, rfl, rfl, rfl, rfl, rfl, rfl, rfl⟩
  | store n =>
    change Untouched s (storeV n s)
    unfold storeV
    split <;> exact ⟨rfl, rfl, rfl, rfl, rfl, rfl, rfl, rfl, rfl, rfl, rfl, rfl⟩

/-- No sequence touches the parameters, the report buffer, the streams, the control position, the selector, the descriptor
or what the dispatch loop presents. -/
theorem run_untouched (ms : List Micro) : ∀ s : State, Untouched s (run ms s) := by
  induction ms with
  | nil => exact Untouched.refl
  | cons m ms ih => intro s; exact (micro_untouched m s).trans (ih _)

/-! ### Lines and contention -/

/-- A micro-step that leaves a line alone: a drive of another field, or no drive at all. -/
def Micro.spares (f : OutField) : Micro → Bool
  | .drive g _ => decide (g ≠ f)
  | .safe => false
  | .clearV => true
  | .sample _ => true
  | .store _ => true

theorem gpioWrite_bss (b : Bss) (s : State) : (gpioWrite b s).bss = b := by
  unfold gpioWrite clockInput
  split
  · rfl
  · split <;> rfl

theorem drive_bss (f : OutField) (l : Bool) (s : State) : (drive f l s).bss = s.bss.set f l := by
  have h : (settle (gpioWrite (s.bss.set f l) s)).bss = s.bss.set f l := gpioWrite_bss _ _
  rw [drive]
  split
  · exact h
  · exact h

theorem Bss.get_set_other (b : Bss) (f g : OutField) (l : Bool) (h : g ≠ f) : (b.set g l).get f = b.get f := by
  cases g <;> cases f <;> first | rfl | exact absurd rfl h

theorem Bss.get_set_same (b : Bss) (f : OutField) (l : Bool) : (b.set f l).get f = l := by
  cases f <;> rfl

theorem micro_spares (f : OutField) (m : Micro) (s : State) (h : m.spares f = true) :
    (micro m s).bss.get f = s.bss.get f := by
  cases m with
  | drive g l =>
    change (drive g l s).bss.get f = _
    rw [drive_bss]
    exact Bss.get_set_other _ _ _ _ (by simpa [Micro.spares] using h)
  | safe => exact absurd h (by simp [Micro.spares])
  | clearV => rfl
  | sample i =>
    change (sampleBit i s).bss.get f = _
    unfold sampleBit
    split <;> rfl
  | store n =>
    change (storeV n s).bss.get f = _
    unfold storeV
    split <;> rfl

/-- A sequence that never drives a line leaves it at its level. -/
theorem run_spares (f : OutField) (ms : List Micro) : ∀ s : State, (ms.all (Micro.spares f)) = true →
    (run ms s).bss.get f = s.bss.get f := by
  induction ms with
  | nil => intro s _; rfl
  | cons m ms ih =>
    intro s h
    simp only [List.all_cons, Bool.and_eq_true] at h
    exact (ih _ h.2).trans (micro_spares f m s h.1)

theorem gpioWrite_contention (b : Bss) (s : State) : (gpioWrite b s).contention =
    (s.contention || (b.asserted s.params.levels .doutOe && b.asserted s.params.levels .rd)) := by
  unfold gpioWrite clockInput
  split
  · rfl
  · split <;> rfl

theorem drive_contention (f : OutField) (l : Bool) (s : State) : (drive f l s).contention =
    (s.contention || ((s.bss.set f l).asserted s.params.levels .doutOe && (s.bss.set f l).asserted s.params.levels .rd)) := by
  have h : (settle (gpioWrite (s.bss.set f l) s)).contention = _ := gpioWrite_contention _ _
  rw [drive]
  split
  · exact h
  · exact h

/-- A recorded contention is never cleared (60_exceptions.md R296). -/
theorem run_contention (ms : List Micro) : ∀ s : State, s.contention = true → (run ms s).contention = true := by
  induction ms with
  | nil => exact fun _ h => h
  | cons m ms ih =>
    intro s h
    refine ih _ ?_
    cases m with
    | drive f l =>
      change (drive f l s).contention = true
      rw [drive_contention, h, Bool.true_or]
    | safe =>
      change (gpioWrite _ s).contention = true
      rw [gpioWrite_contention, h, Bool.true_or]
    | clearV => exact h
    | sample i =>
      change (sampleBit i s).contention = true
      unfold sampleBit
      split <;> exact h
    | store n =>
      change (storeV n s).contention = true
      unfold storeV
      split <;> exact h

/-! ### Canonical forms of the cartridge -/

theorem RefRom.accept_wf {c : RefRom} (h : Memory.wf c.rom = true ∧ Memory.wf c.ram = true) (w : BusWrite) :
    Memory.wf (c.accept w).rom = true ∧ Memory.wf (c.accept w).ram = true := by
  unfold RefRom.accept
  split
  · exact ⟨h.1, Memory.write_wf _ _ _ h.2⟩
  · exact h

theorem RefMbc1.accept_wf {c : RefMbc1} (h : Memory.wf c.rom = true ∧ Memory.wf c.ram = true) (w : BusWrite) :
    Memory.wf (c.accept w).rom = true ∧ Memory.wf (c.accept w).ram = true := by
  unfold RefMbc1.accept
  repeat' split
  all_goals first | exact h | exact ⟨h.1, Memory.write_wf _ _ _ h.2⟩

theorem RefMbc5.accept_wf {c : RefMbc5} (h : Memory.wf c.rom = true ∧ Memory.wf c.ram = true) (w : BusWrite) :
    Memory.wf (c.accept w).rom = true ∧ Memory.wf (c.accept w).ram = true := by
  unfold RefMbc5.accept
  repeat' split
  all_goals first | exact h | exact ⟨h.1, Memory.write_wf _ _ _ h.2⟩

theorem RefMbc3.accept_wf {c : RefMbc3} (h : Memory.wf c.rom = true ∧ Memory.wf c.ram = true) (w : BusWrite) :
    (c.accept w).wf = true := by
  have h' : (Cartridge.mbc3 c).wf = true := by simp [Cartridge.wf, h.1, h.2]
  unfold RefMbc3.accept
  split
  · unfold RefMbc3.acceptRegister
    repeat' split
    all_goals exact h'
  · repeat' split
    all_goals first | exact h' | rfl | simp [Cartridge.wf, h.1, Memory.write_wf _ _ _ h.2]

/-- A bus write event leaves the memories of the cartridge in canonical form. -/
theorem Cartridge.accept_wf {c : Cartridge} (h : c.wf = true) (w : BusWrite) : (c.accept w).wf = true := by
  cases c with
  | unknown => rfl
  | rom c =>
    have := RefRom.accept_wf (c := c) (by simpa [Cartridge.wf] using h) w
    simpa [Cartridge.wf, Cartridge.accept] using this
  | mbc1 c =>
    have := RefMbc1.accept_wf (c := c) (by simpa [Cartridge.wf] using h) w
    simpa [Cartridge.wf, Cartridge.accept] using this
  | mbc3 c => exact RefMbc3.accept_wf (by simpa [Cartridge.wf] using h) w
  | mbc5 c =>
    have := RefMbc5.accept_wf (c := c) (by simpa [Cartridge.wf] using h) w
    simpa [Cartridge.wf, Cartridge.accept] using this

/-! ### Canonical forms of the state -/

/-- The two buffers and the cartridge's memories are canonical. -/
structure MemoriesWf (s : State) : Prop where
  buffer : Memory.wf s.bankBuffer = true
  report : Memory.wf s.reportBuf = true
  cart   : s.cart.wf = true

theorem gpioWrite_bankBuffer (b : Bss) (s : State) : (gpioWrite b s).bankBuffer = s.bankBuffer := by
  unfold gpioWrite clockInput
  split
  · rfl
  · split <;> rfl

theorem gpioWrite_cart (b : Bss) (s : State) : (gpioWrite b s).cart = s.cart := by
  unfold gpioWrite clockInput
  split
  · rfl
  · split <;> rfl

theorem micro_memoriesWf (m : Micro) {s : State} (h : MemoriesWf s) : MemoriesWf (micro m s) := by
  have hg : ∀ b, MemoriesWf (settle (gpioWrite b s)) := fun b =>
    ⟨(congrArg Memory.wf (gpioWrite_bankBuffer b s)).trans h.buffer,
      (congrArg Memory.wf (gpioWrite_untouched b s).reportBuf).trans h.report,
      (congrArg Cartridge.wf (gpioWrite_cart b s)).trans h.cart⟩
  cases m with
  | drive f l =>
    change MemoriesWf (drive f l s)
    rw [drive]
    split
    · exact ⟨(hg _).buffer, (hg _).report, Cartridge.accept_wf (hg _).cart _⟩
    · exact hg _
  | safe => exact hg _
  | clearV => exact ⟨h.buffer, h.report, h.cart⟩
  | sample i =>
    change MemoriesWf (sampleBit i s)
    unfold sampleBit
    split <;> exact ⟨h.buffer, h.report, h.cart⟩
  | store n =>
    change MemoriesWf (storeV n s)
    unfold storeV
    split
    · exact ⟨Memory.write_wf _ _ _ h.buffer, h.report, h.cart⟩
    · exact h

/-- Every sequence of micro-steps keeps every memory in canonical form. -/
theorem run_memoriesWf (ms : List Micro) : ∀ {s : State}, MemoriesWf s → MemoriesWf (run ms s) := by
  induction ms with
  | nil => exact fun h => h
  | cons m ms ih => intro s h; exact ih (micro_memoriesWf m h)

/-- So does a report written into ReportBuf. -/
theorem writeReport_memoriesWf (r : List Byte) {s : State} (h : MemoriesWf s) : MemoriesWf (writeReport r s) :=
  ⟨h.buffer, Memory.writeBytes_wf r _ _ h.report, h.cart⟩

/-- So does a byte received into BankBuffer. -/
theorem storeByte_memoriesWf (n : Nat) (b : Byte) {s : State} (h : MemoriesWf s) : MemoriesWf (storeByte n b s) :=
  ⟨Memory.write_wf _ _ _ h.buffer, h.report, h.cart⟩

/-- The memories are canonical at reset. -/
theorem reset_memoriesWf : MemoriesWf State.reset := ⟨rfl, rfl, rfl⟩

end Sys2Proof.Machine
end

