-- ==== Sys2Proof/Laws/Fields.lean ====
section
/-! SUPPORT. The fields of the states the bus operations leave: the events delivered, the settle waits, the frame, the
contents of BankBuffer. Each piece once, and one composition law; the operations of files 41 to 44 are compositions. -/

namespace Sys2Proof.Machine

/-! ### Events, waits and frame -/

/-- From s to t exactly these events were delivered and n settle waits made; nothing an operation cannot reach changed. -/
structure Bused (s t : State) (es : List BusWrite) (n : Nat) : Prop where
  events     : t.busWrites = s.busWrites ++ es
  cart       : t.cart = cartAfter s.cart es
  breach     : t.rumbleBreach = (s.rumbleBreach || es.any s.breaches)
  settles    : t.settles = s.settles + n
  contention : t.contention = s.contention
  same       : Untouched s t

theorem Untouched.breaches {s t : State} (h : Untouched s t) : t.breaches = s.breaches := by
  funext w
  have e := h.rumbles
  rw [h.params] at e
  simp only [State.breaches, State.rumbleType, h.params, h.descriptor, e]

theorem Bused.of_quiet {s t : State} {n : Nat} (h1 : t.busWrites = s.busWrites) (h2 : t.cart = s.cart)
    (h3 : t.rumbleBreach = s.rumbleBreach) (h4 : t.settles = s.settles + n) (h5 : t.contention = s.contention)
    (h6 : Untouched s t) : Bused s t [] n :=
  ⟨by simp [h1], h2, by simp [h3], h4, h5, h6⟩

theorem Bused.refl (s : State) : Bused s s [] 0 := .of_quiet rfl rfl rfl rfl rfl (.refl s)

theorem Bused.trans {s t u : State} {es fs : List BusWrite} {n m : Nat} (h : Bused s t es n) (k : Bused t u fs m) :
    Bused s u (es ++ fs) (n + m) where
  events := by rw [k.events, h.events, List.append_assoc]
  cart := by rw [k.cart, h.cart, cartAfter, cartAfter, cartAfter, List.foldl_append]
  breach := by rw [k.breach, h.breach, h.same.breaches, List.any_append, Bool.or_assoc]
  settles := by rw [k.settles, h.settles, Nat.add_assoc]
  contention := k.contention.trans h.contention
  same := h.same.trans k.same

theorem Bused.toDone {s t : State} {es : List BusWrite} {n : Nat} (h : Bused s t es n)
    (hr : t.bss = safeBss s.params.levels) : BusDone s t es n :=
  ⟨hr, h.events, h.cart, h.breach, h.settles,
    ⟨h.same.params, h.same.reportBuf, h.same.tx, h.same.txDrained, h.same.rx, h.same.control, h.same.selector, h.same.descriptor,
      h.same.pending, h.same.bench, h.same.txSpace, h.contention⟩⟩

theorem NothingRead.refl (s : State) : NothingRead s s := ⟨rfl, rfl, rfl, rfl⟩

theorem NothingRead.trans {s t u : State} (h : NothingRead s t) (k : NothingRead t u) : NothingRead s u :=
  ⟨k.isr.trans h.isr, k.v.trans h.v, k.draws.trans h.draws, k.bankBuffer.trans h.bankBuffer⟩

/-! ### The pieces -/

theorem bused_registerWritten (s : State) (a : Addr) (d : Byte) :
    Bused s (s.registerWritten a d) [⟨a, s.asserted .cs, d⟩] 82 := by
  rw [registerWritten_eq]
  exact ⟨rfl, rfl, by simp, rfl, rfl, ⟨rfl, rfl, rfl, rfl, rfl, rfl, rfl, rfl, rfl, rfl, rfl, accept_rumbles _ _ _⟩⟩

theorem nothingRead_registerWritten (s : State) (a : Addr) (d : Byte) : NothingRead s (s.registerWritten a d) := by
  rw [registerWritten_eq]
  exact ⟨rfl, rfl, rfl, rfl⟩

theorem registerWritten_asserted_cs (s : State) (a : Addr) (d : Byte) :
    (s.registerWritten a d).asserted .cs = s.asserted .cs := rfl

theorem bused_safeDriven (s : State) : Bused s s.safeDriven [] 1 :=
  .of_quiet rfl rfl rfl rfl rfl ⟨rfl, rfl, rfl, rfl, rfl, rfl, rfl, rfl, rfl, rfl, rfl, rfl⟩

theorem nothingRead_safeDriven (s : State) : NothingRead s s.safeDriven := ⟨rfl, rfl, rfl, rfl⟩

theorem bused_csDriven (s : State) (l : Bool) : Bused s (s.csDriven l) [] 1 :=
  .of_quiet rfl rfl rfl rfl rfl ⟨rfl, rfl, rfl, rfl, rfl, rfl, rfl, rfl, rfl, rfl, rfl, rfl⟩

theorem nothingRead_csDriven (s : State) (l : Bool) : NothingRead s (s.csDriven l) := ⟨rfl, rfl, rfl, rfl⟩

theorem bused_cellStored (s : State) (a : Addr) (n : Nat) : Bused s (s.cellStored a n) [] 72 :=
  .of_quiet rfl rfl rfl rfl rfl ⟨rfl, rfl, rfl, rfl, rfl, rfl, rfl, rfl, rfl, rfl, rfl, rfl⟩

theorem safe_asserted (s : State) (f : Strobe) : s.safeDriven.asserted f = false :=
  (asserted_eq_false _ _).2 (by cases f <;> rfl)

/-! ### Register writes one after another -/

/-- The events of register writes made with CS as it stands. -/
def eventsWith (cs : Bool) (ws : List (Addr × Byte)) : List BusWrite := ws.map fun w => ⟨w.1, cs, w.2⟩

theorem eventsWith_false (ws : List (Addr × Byte)) : eventsWith false ws = registerEvents ws := rfl

theorem bused_writesDone (ws : List (Addr × Byte)) : ∀ s : State,
    Bused s (s.writesDone ws) (eventsWith (s.asserted .cs) ws) (82 * ws.length) := by
  induction ws with
  | nil => exact Bused.refl
  | cons w ws ih =>
    intro s
    have h := (bused_registerWritten s w.1 w.2).trans (ih (s.registerWritten w.1 w.2))
    rw [show 82 * (w :: ws).length = 82 + 82 * ws.length by rw [List.length_cons]; omega]
    exact h

theorem nothingRead_writesDone (ws : List (Addr × Byte)) : ∀ s : State, NothingRead s (s.writesDone ws) := by
  induction ws with
  | nil => exact NothingRead.refl
  | cons w ws ih => intro s; exact (nothingRead_registerWritten s w.1 w.2).trans (ih _)

theorem writesDone_asserted_cs (ws : List (Addr × Byte)) : ∀ s : State,
    (s.writesDone ws).asserted .cs = s.asserted .cs := by
  induction ws with
  | nil => intro s; rfl
  | cons w ws ih => intro s; exact (ih _).trans rfl

/-- The latches hold the last write. -/
theorem latched_writesDone (ws : List (Addr × Byte)) (w : Addr × Byte) (s : State) :
    Latched (s.writesDone (ws ++ [w])) w.1 w.2 := by
  rw [State.writesDone, List.foldl_append]
  exact ⟨rfl, rfl, rfl, rfl⟩

/-! ### A read window -/

theorem bused_windowRead (s : State) (base : Addr) (n : Nat) : Bused s (s.windowRead base n) [] (72 * n) := by
  induction n with
  | zero => exact .refl s
  | succ n ih => exact ih.trans (bused_cellStored _ _ _)

theorem windowRead_asserted_cs (s : State) (base : Addr) (n : Nat) :
    (s.windowRead base n).asserted .cs = s.asserted .cs := by
  induction n with
  | zero => rfl
  | succ n ih => exact ih

theorem windowRead_draws (s : State) (base : Addr) (n : Nat) : (s.windowRead base n).draws = s.draws + 9 * n := by
  induction n with
  | zero => rfl
  | succ n ih =>
    change (s.windowRead base n).draws + 9 = _
    omega

theorem windowRead_dsr (s : State) (base : Addr) (n : Nat) : (s.windowRead base n).dsr = s.dsr := by
  induction n with
  | zero => rfl
  | succ n ih => exact ih

theorem windowRead_dlat (s : State) (base : Addr) (n : Nat) : (s.windowRead base n).dlat = s.dlat := by
  induction n with
  | zero => rfl
  | succ n ih => exact ih

theorem windowRead_cellByte (s : State) (base : Addr) (n : Nat) (a : Addr) (k : Nat) :
    (s.windowRead base n).cellByte a k = s.cellByte a k := by
  rw [State.cellByte, State.cellByte, windowRead_asserted_cs, (bused_windowRead s base n).cart]
  rfl

theorem cellStored_readBuffer (s : State) (a : Addr) (n i : Nat) :
    (s.cellStored a n).readBuffer i = if i = n then s.cellByte a s.draws else s.readBuffer i := by
  rw [State.readBuffer, State.cellStored]
  dsimp only
  rw [Memory.read_write]
  split
  · rfl
  · rfl

/-- Byte i of the buffer after n cells of a window: the cartridge's byte at base + i, or the old one from n on (R81). -/
theorem windowRead_readBuffer (s : State) (base : Addr) (n i : Nat) :
    (s.windowRead base n).readBuffer i =
      if i < n then s.cellByte (effectiveAddress base i) (s.draws + 9 * i) else s.readBuffer i := by
  induction n with
  | zero => simp [State.windowRead]
  | succ n ih =>
    rw [State.windowRead, cellStored_readBuffer, ih, windowRead_cellByte, windowRead_draws]
    rcases Nat.lt_trichotomy i n with h | h | h
    · rw [if_neg (by omega), if_pos h, if_pos (by omega)]
    · subst h; rw [if_pos rfl, if_pos (by omega)]
    · rw [if_neg (by omega), if_neg (by omega), if_neg (by omega)]

/-- The same as claims say it. -/
theorem windowRead_inBuffer (s : State) (base : Addr) (n : Nat) :
    WindowInBuffer s (s.windowRead base n) base n (s.asserted .cs) := by
  intro i
  refine ⟨fun h => ⟨s.draws + 9 * i, by omega, by rw [windowRead_draws]; omega, ?_⟩, fun h => ?_⟩
  · rw [windowRead_readBuffer, if_pos h, State.cellByte, (bused_windowRead s base n).cart]
    rfl
  · rw [windowRead_readBuffer, if_neg (by omega)]

/-- Around a window: what came before it drew nothing and stored nothing, what comes after it changes neither the buffer,
the cartridge nor the draws. -/
theorem WindowInBuffer.frame {s s' t t' : State} {base : Addr} {n : Nat} {cs : Bool} (h : WindowInBuffer s' t' base n cs)
    (h1 : NothingRead s s') (h2 : t.bankBuffer = t'.bankBuffer) (h3 : t.cart = t'.cart) (h4 : t.draws = t'.draws) :
    WindowInBuffer s t base n cs := by
  intro i
  have e : ∀ i, t.readBuffer i = t'.readBuffer i := fun i => by rw [State.readBuffer, h2]; rfl
  have e' : ∀ i, s'.readBuffer i = s.readBuffer i := fun i => by rw [State.readBuffer, h1.bankBuffer]; rfl
  rw [e, h3, h4, ← h1.draws, ← e']
  exact h i

/-! ### A write window -/

theorem windowWritten_asserted_cs (s : State) (base : Addr) (data : Nat → Byte) (n : Nat) :
    (s.windowWritten base data n).asserted .cs = s.asserted .cs := by
  induction n with
  | zero => rfl
  | succ n ih => exact ih

theorem bused_windowWritten (s : State) (base : Addr) (data : Nat → Byte) (n : Nat) :
    Bused s (s.windowWritten base data n)
      ((List.range n).map fun i => ⟨effectiveAddress base i, s.asserted .cs, data i⟩) (82 * n) := by
  induction n with
  | zero => exact .refl s
  | succ n ih =>
    have h := ih.trans (bused_registerWritten (s.windowWritten base data n) (effectiveAddress base n) (data n))
    rw [windowWritten_asserted_cs] at h
    rw [List.range_succ, List.map_append]
    exact h

theorem nothingRead_windowWritten (s : State) (base : Addr) (data : Nat → Byte) (n : Nat) :
    NothingRead s (s.windowWritten base data n) := by
  induction n with
  | zero => exact .refl s
  | succ n ih => exact ih.trans (nothingRead_registerWritten _ _ _)

/-! ### The shapes -/

/-- A window of cells, then `reset()`. -/
theorem done_window {s t : State} {es : List BusWrite} {n : Nat} (h : Bused s t es n) (base : Addr) (m : Nat) :
    BusDone s (t.windowRead base m).safeDriven es (n + 72 * m + 1) := by
  have k := (h.trans (bused_windowRead t base m)).trans (bused_safeDriven _)
  rw [List.append_nil, List.append_nil] at k
  exact k.toDone (congrArg (fun p : Params => safeBss p.levels) (k.same.params))

theorem inBuffer_window {s t : State} (h : NothingRead s t) (base : Addr) (m : Nat) :
    WindowInBuffer s (t.windowRead base m).safeDriven base m (t.asserted .cs) :=
  (windowRead_inBuffer t base m).frame h rfl rfl rfl

/-- The same with the chip-select line put back before `reset()`. -/
theorem done_ramWindow {s t : State} {es : List BusWrite} {n : Nat} (h : Bused s t es n) (base : Addr) (m : Nat) :
    BusDone s (t.windowRead base m).ramClosed es (n + 72 * m + 2) := by
  have k := ((h.trans (bused_windowRead t base m)).trans
    (bused_csDriven _ (!(t.windowRead base m).params.levels.cs))).trans (bused_safeDriven _)
  rw [List.append_nil, List.append_nil, List.append_nil] at k
  exact k.toDone (congrArg (fun p : Params => safeBss p.levels) (k.same.params))

theorem inBuffer_ramWindow {s t : State} (h : NothingRead s t) (base : Addr) (m : Nat) :
    WindowInBuffer s (t.windowRead base m).ramClosed base m (t.asserted .cs) :=
  (windowRead_inBuffer t base m).frame h rfl rfl rfl

theorem done_writeWindow {s t : State} {es : List BusWrite} {n : Nat} (h : Bused s t es n) (base : Addr)
    (data : Nat → Byte) (m : Nat) :
    BusDone s (t.windowWritten base data m).ramClosed
      (es ++ (List.range m).map fun i => ⟨effectiveAddress base i, t.asserted .cs, data i⟩) (n + 82 * m + 2) := by
  have k := ((h.trans (bused_windowWritten t base data m)).trans
    (bused_csDriven _ (!(t.windowWritten base data m).params.levels.cs))).trans (bused_safeDriven _)
  rw [List.append_nil, List.append_nil] at k
  exact k.toDone (congrArg (fun p : Params => safeBss p.levels) (k.same.params))

/-- `reset_cartridge(V)`: the four zero events, 330 waits, nothing read (R151, R341). -/
theorem bused_cartridgeReset (s : State) (v : Variant) :
    Bused s (s.cartridgeReset v) (registerEvents (zeroWrites s.params v)) 330 := by
  have h := ((bused_safeDriven s).trans (bused_writesDone (zeroWrites s.params v) s.safeDriven)).trans
    (bused_safeDriven _)
  rw [safe_asserted, eventsWith_false, List.append_nil] at h
  have e : (zeroWrites s.params v).length = 4 := by cases v <;> rfl
  rw [e] at h
  exact h

theorem nothingRead_cartridgeReset (s : State) (v : Variant) : NothingRead s (s.cartridgeReset v) :=
  ((nothingRead_safeDriven s).trans (nothingRead_writesDone _ _)).trans (nothingRead_safeDriven _)

theorem cartridgeReset_asserted (s : State) (v : Variant) (f : Strobe) : (s.cartridgeReset v).asserted f = false :=
  safe_asserted _ f

theorem registerEvents_append (ws us : List (Addr × Byte)) :
    registerEvents (ws ++ us) = registerEvents ws ++ registerEvents us := List.map_append

theorem bused_selected (s : State) (v : Variant) (select : List (Addr × Byte)) :
    Bused s (s.selected v select) (registerEvents (zeroWrites s.params v ++ select)) (330 + 82 * select.length) := by
  have h := (bused_cartridgeReset s v).trans (bused_writesDone select (s.cartridgeReset v))
  rw [cartridgeReset_asserted, eventsWith_false, ← registerEvents_append] at h
  exact h

theorem nothingRead_selected (s : State) (v : Variant) (select : List (Addr × Byte)) :
    NothingRead s (s.selected v select) :=
  (nothingRead_cartridgeReset s v).trans (nothingRead_writesDone _ _)

theorem selected_asserted_cs (s : State) (v : Variant) (select : List (Addr × Byte)) :
    (s.selected v select).asserted .cs = false :=
  (writesDone_asserted_cs _ _).trans (cartridgeReset_asserted s v .cs)

theorem bused_ramOpened (s : State) (v : Variant) (select : List (Addr × Byte)) :
    Bused s (s.ramOpened v select) (registerEvents (zeroWrites s.params v ++ select)) (331 + 82 * select.length) := by
  have h := (bused_selected s v select).trans (bused_csDriven _ s.params.levels.cs)
  rw [List.append_nil, Nat.add_right_comm] at h
  exact h

theorem nothingRead_ramOpened (s : State) (v : Variant) (select : List (Addr × Byte)) :
    NothingRead s (s.ramOpened v select) :=
  (nothingRead_selected s v select).trans (nothingRead_csDriven _ _)

theorem ramOpened_asserted_cs (s : State) (v : Variant) (select : List (Addr × Byte)) :
    (s.ramOpened v select).asserted .cs = true := by
  simp [State.ramOpened, State.csDriven, State.asserted, Bss.asserted, Bss.get, Strobe.field, levelOf, selected_params]

/-- A ROM read: its events, waits and frame. -/
theorem done_romRead (s : State) (v : Variant) (select : List (Addr × Byte)) (base : Addr) :
    BusDone s (s.romRead v select base) (registerEvents (zeroWrites s.params v ++ select))
      (330 + 82 * select.length + 72 * romBankSize + 1) := done_window (bused_selected s v select) base romBankSize

/-- A ROM read: its window in the buffer. -/
theorem inBuffer_romRead (s : State) (v : Variant) (select : List (Addr × Byte)) (base : Addr) :
    WindowInBuffer s (s.romRead v select base) base romBankSize false := by
  have h := inBuffer_window (nothingRead_selected s v select) base romBankSize
  rw [selected_asserted_cs] at h
  exact h

theorem done_headerRead (s : State) :
    BusDone s s.headerRead (registerEvents (zeroWrites s.params .mbc1)) (330 + 72 * headerLen + 1) :=
  done_window (bused_cartridgeReset s .mbc1) s.params.headerBase headerLen

theorem inBuffer_headerRead (s : State) : WindowInBuffer s s.headerRead s.params.headerBase headerLen false := by
  have h := inBuffer_window (nothingRead_cartridgeReset s .mbc1) s.params.headerBase headerLen
  rw [cartridgeReset_asserted] at h
  exact h

theorem done_ramRead (s : State) (v : Variant) (select : List (Addr × Byte)) :
    BusDone s (s.ramRead v select) (registerEvents (zeroWrites s.params v ++ select))
      (331 + 82 * select.length + 72 * ramBankSize + 2) := done_ramWindow (bused_ramOpened s v select) winRam ramBankSize

theorem inBuffer_ramRead (s : State) (v : Variant) (select : List (Addr × Byte)) :
    WindowInBuffer s (s.ramRead v select) winRam ramBankSize true := by
  have h := inBuffer_ramWindow (nothingRead_ramOpened s v select) winRam ramBankSize
  rw [ramOpened_asserted_cs] at h
  exact h

theorem done_ramWritten (s : State) (v : Variant) (select : List (Addr × Byte)) (data : Nat → Byte) :
    BusDone s (s.ramWritten v select data) (registerEvents (zeroWrites s.params v ++ select) ++ ramEvents data)
      (331 + 82 * select.length + 82 * ramBankSize + 2) := by
  have h := done_writeWindow (bused_ramOpened s v select) winRam data ramBankSize
  rw [ramOpened_asserted_cs] at h
  exact h

theorem nothingRead_ramWritten (s : State) (v : Variant) (select : List (Addr × Byte)) (data : Nat → Byte) :
    NothingRead s (s.ramWritten v select data) :=
  ((nothingRead_ramOpened s v select).trans (nothingRead_windowWritten _ _ _ _)).trans
    ((nothingRead_csDriven _ _).trans (nothingRead_safeDriven _))

/-! ### The RTC cells -/

/-- The events of n RTC selects (R183). -/
def rtcEvents (p : Params) (n : Nat) : List BusWrite :=
  (List.range n).map fun k => ⟨p.m3Ramb, false, p.rtcBase + BitVec.ofNat 8 k⟩

theorem rtcCells_asserted_cs {s : State} (h : s.asserted .cs = false) (n : Nat) :
    (s.rtcCells n).asserted .cs = false := by
  cases n with
  | zero => exact h
  | succ n =>
    refine (asserted_eq_false _ _).2 ?_
    change (!(s.rtcCells n).params.levels.cs) = !(s.rtcCells (n + 1)).params.levels.cs
    rw [rtcCells_params, rtcCells_params]

theorem bused_rtcCells {s : State} (h : s.asserted .cs = false) (n : Nat) :
    Bused s (s.rtcCells n) (rtcEvents s.params n) (156 * n) := by
  induction n with
  | zero => exact .refl s
  | succ n ih =>
    have hc := rtcCells_asserted_cs h n
    have k := (((bused_registerWritten (s.rtcCells n) (s.rtcCells n).params.m3Ramb
      ((s.rtcCells n).params.rtcBase + BitVec.ofNat 8 n)).trans (bused_csDriven _ (s.rtcCells n).params.levels.cs)).trans
      (bused_cellStored _ winRam n)).trans (bused_csDriven _ (!(s.rtcCells n).params.levels.cs))
    rw [hc, rtcCells_params, List.append_nil, List.append_nil, List.append_nil] at k
    have := ih.trans k
    rw [rtcEvents, List.range_succ, List.map_append]
    simpa [Nat.mul_add, rtcEvents, State.rtcCells, State.rtcCell, rtcCells_params] using this

/-- The cartridge while RTC register k is being read. -/
def rtcCart (s : State) (k : Nat) : Cartridge := cartAfter s.cart (rtcEvents s.params (k + 1))

theorem rtcCell_readBuffer (s : State) (n i : Nat) :
    (s.rtcCell n).readBuffer i =
      if i = n then ((s.cart.accept ⟨s.params.m3Ramb, s.asserted .cs, s.params.rtcBase + BitVec.ofNat 8 n⟩).answer 0xA000
        true).getD (Config.freeByte s.draws) else s.readBuffer i := by
  have e : (s.rtcCell n).readBuffer i =
      (((s.registerWritten s.params.m3Ramb (s.params.rtcBase + BitVec.ofNat 8 n)).csDriven s.params.levels.cs).cellStored
        winRam n).readBuffer i := rfl
  have c : ((s.registerWritten s.params.m3Ramb (s.params.rtcBase + BitVec.ofNat 8 n)).csDriven
      s.params.levels.cs).asserted .cs = true := by
    simp [State.csDriven, State.asserted, Bss.asserted, Bss.get, Strobe.field, levelOf, registerWritten_eq]
  rw [e, cellStored_readBuffer]
  split
  · rw [State.cellByte, c]
    simp only [State.csDriven, registerWritten_eq, winRam]
  · rw [registerWritten_eq]; rfl

theorem rtcCells_draws (s : State) (n : Nat) : (s.rtcCells n).draws = s.draws + 9 * n := by
  induction n with
  | zero => rfl
  | succ n ih =>
    change (s.rtcCells n).draws + 9 = _
    omega

/-- Byte i of the buffer after n RTC cells: the byte the cartridge drives at 0xA000 with register i selected. -/
theorem rtcCells_readBuffer {s : State} (h : s.asserted .cs = false) (n i : Nat) :
    (s.rtcCells n).readBuffer i =
      if i < n then ((rtcCart s i).answer 0xA000 true).getD (Config.freeByte (s.draws + 9 * i)) else s.readBuffer i := by
  induction n with
  | zero => simp [State.rtcCells]
  | succ n ih =>
    rw [State.rtcCells, rtcCell_readBuffer, ih, rtcCells_asserted_cs h, rtcCells_params, rtcCells_draws,
      (bused_rtcCells h n).cart]
    rcases Nat.lt_trichotomy i n with k | k | k
    · rw [if_neg (by omega), if_pos k, if_pos (by omega)]
    · subst k
      rw [if_pos rfl, if_pos (by omega)]
      simp [rtcCart, cartAfter, rtcEvents, List.range_succ]
    · rw [if_neg (by omega), if_neg (by omega), if_neg (by omega)]

end Sys2Proof.Machine
end

