-- ==== Sys2Proof/Laws/Exec.lean ====
section
/-! SUPPORT. How every operation begins, and the state each operation of files 42 to 44 answers, as a composition of the
states of Laws/Operations.lean. -/

namespace Sys2Proof.Machine

/-- Every operation begins as `begin` says: a recorded contention is a fault, a command in progress a refusal. -/
theorem exec_begins (i : Instr) (s : State) : ∃ k, exec i s = begin s k := by
  cases i <;> simp only [exec, unknownSelector, raiseAlone, regwTransaction,
    execParseHeader, execReadRom, execReadRam, execWriteRam, execReadRtc, execWriteRtc, execUnknown0607,
    execUnknown080F, execUnknown101F, execUnknown203F, execUnknown407F, execUnknown80FF, execReset,
    execShiftOutAddress, execShiftOutData, execShiftInData, execRegisterWrite, execResetCartridge, execReadCell,
    execWriteCell, execMbc1ReadRom, execMbc1ReadHeader, execMbc1ReadRam, execMbc1WriteRam, execMbc3ReadRom,
    execMbc3ReadRam, execMbc3WriteRam, execMbc3ReadRtc, execMbc3WriteRtc, execMbc5ReadRom, execMbc5ReadRam,
    execMbc5WriteRam, execParse, execStatusOk, execStatusUnknownCommand, execStatusInvalidNumRomBanks,
    execStatusInvalidNumRamBanks, execStatusInvalidCartridgeType, execStatusInvalidRamWriteSize,
    execStatusCartridgeHasNoRam, execStatusCartridgeHasNoRtc, execStatusInvalidRtcWriteSize, execRegwM1Ramg,
    execRegwM1Bank1, execRegwM1Bank2, execRegwM1Mode, execRegwM3Ramg, execRegwM3Romb, execRegwM3Ramb,
    execRegwM3Latch, execRegwM5Ramg, execRegwM5Romb0, execRegwM5Romb1, execRegwM5Ramb] <;>
    exact ⟨_, rfl⟩

/-- An operation that answers a next state began freely. -/
theorem exec_free {i : Instr} {s t : State} (h : exec i s = .next t) : s.Free := by
  obtain ⟨k, e⟩ := exec_begins i s
  rw [e] at h
  obtain ⟨hc, hi, -⟩ := begin_next h
  exact ⟨hc, hi⟩

theorem zeroWrites_eq (p : Params) (v : Variant) : zeroWrites p v = registerZeros p v := by cases v <;> rfl

section variants
variable {s : State} (hf : s.Free)
include hf

theorem exec_resetCartridge (v : Variant) : exec (.resetCartridge v) s = .next (s.cartridgeReset v) := by
  change execResetCartridge v s = _
  rw [execResetCartridge, begin_free hf.clean hf.idle, run_resetCartridge]

theorem exec_mbc1ReadRom (bank : BankOperand) :
    exec (.mbc1ReadRom bank) s = .next (s.romRead .mbc1 (mbc1RomSelect s.params bank) (mbc1RomBase bank)) := by
  change execMbc1ReadRom bank s = _
  rw [execMbc1ReadRom, begin_free hf.clean hf.idle, mbc1ReadRomSeq, run_readRomShape]

theorem exec_mbc3ReadRom (bank : BankOperand) :
    exec (.mbc3ReadRom bank) s = .next (s.romRead .mbc3 (mbc3RomSelect s.params bank) (mbc3RomBase bank)) := by
  change execMbc3ReadRom bank s = _
  rw [execMbc3ReadRom, begin_free hf.clean hf.idle, mbc3ReadRomSeq, run_readRomShape]

theorem exec_mbc5ReadRom (bank : BankOperand) :
    exec (.mbc5ReadRom bank) s = .next (s.romRead .mbc5 (mbc5RomSelect s.params bank) winSwitch) := by
  change execMbc5ReadRom bank s = _
  rw [execMbc5ReadRom, begin_free hf.clean hf.idle, mbc5ReadRomSeq, run_readRomShape]

theorem exec_mbc1ReadHeader : exec .mbc1ReadHeader s = .next s.headerRead := by
  change execMbc1ReadHeader s = _
  rw [execMbc1ReadHeader, begin_free hf.clean hf.idle, run_readHeader]

theorem exec_readRam (v : Variant) (bank : BankOperand) :
    exec (readRamOf v bank) s = .next (s.ramRead v (ramBankWrites s.params bank v)) := by
  cases v
  · change execMbc1ReadRam bank s = _
    rw [execMbc1ReadRam, begin_free hf.clean hf.idle, mbc1ReadRamSeq, run_readRamShape]; rfl
  · change execMbc3ReadRam bank s = _
    rw [execMbc3ReadRam, begin_free hf.clean hf.idle, mbc3ReadRamSeq, run_readRamShape]; rfl
  · change execMbc5ReadRam bank s = _
    rw [execMbc5ReadRam, begin_free hf.clean hf.idle, mbc5ReadRamSeq, run_readRamShape]; rfl

theorem exec_writeRam (v : Variant) (bank : BankOperand) :
    exec (writeRamOf v bank) s = .next (s.ramWritten v (ramBankWrites s.params bank v) s.readBuffer) := by
  cases v
  · change execMbc1WriteRam bank s = _
    rw [execMbc1WriteRam, begin_free hf.clean hf.idle, mbc1WriteRamSeq, run_writeRamShape]; rfl
  · change execMbc3WriteRam bank s = _
    rw [execMbc3WriteRam, begin_free hf.clean hf.idle, mbc3WriteRamSeq, run_writeRamShape]; rfl
  · change execMbc5WriteRam bank s = _
    rw [execMbc5WriteRam, begin_free hf.clean hf.idle, mbc5WriteRamSeq, run_writeRamShape]; rfl

theorem exec_mbc3ReadRtc : exec .mbc3ReadRtc s = .next s.rtcRead := by
  change execMbc3ReadRtc s = _
  rw [execMbc3ReadRtc, begin_free hf.clean hf.idle, run_readRtc]

theorem exec_parse : exec .parse s = .next (parseBuffer s) := by
  change execParse s = _
  rw [execParse, begin_free hf.clean hf.idle]

end variants

/-! ### The latches and the returned byte after a window -/

/-- What a window of at least one cell leaves in the latches and in `v`. -/
theorem latched_windowRead {t : State} {d : Byte} (h1 : t.dsr = d) (h2 : t.dlat = d) (base : Addr) {n : Nat} (hn : 0 < n) :
    Latched (t.windowRead base n) (effectiveAddress base (n - 1)) d := by
  cases n with
  | zero => omega
  | succ n => exact ⟨rfl, rfl, (windowRead_dsr t base (n + 1)).trans h1, (windowRead_dlat t base (n + 1)).trans h2⟩

theorem windowRead_v (t : State) (base : Addr) {n : Nat} (hn : 0 < n) : (t.windowRead base n).v = none := by
  cases n with
  | zero => omega
  | succ n => rfl

theorem safeDriven_readBuffer (t : State) (i : Nat) : t.safeDriven.readBuffer i = t.readBuffer i := rfl

theorem ramClosed_readBuffer (t : State) (i : Nat) : t.ramClosed.readBuffer i = t.readBuffer i := rfl

theorem safeDriven_draws (t : State) : t.safeDriven.draws = t.draws := rfl

theorem safeDriven_v (t : State) : t.safeDriven.v = t.v := rfl

theorem ramClosed_v (t : State) : t.ramClosed.v = t.v := rfl

theorem latched_windowWritten (t : State) (base : Addr) (data : Nat → Byte) {n : Nat} (hn : 0 < n) :
    Latched (t.windowWritten base data n) (effectiveAddress base (n - 1)) (data (n - 1)) := by
  cases n with
  | zero => omega
  | succ n => exact ⟨rfl, rfl, rfl, rfl⟩

theorem Latched.safeDriven {t : State} {a : Addr} {d : Byte} (h : Latched t a d) : Latched t.safeDriven a d :=
  ⟨h.asr, h.alat, h.dsr, h.dlat⟩

theorem Latched.ramClosed {t : State} {a : Addr} {d : Byte} (h : Latched t a d) : Latched t.ramClosed a d :=
  ⟨h.asr, h.alat, h.dsr, h.dlat⟩

/-- The data latch after a select list: its last value. -/
theorem latched_selected (s : State) (v : Variant) (ws : List (Addr × Byte)) (w : Addr × Byte) :
    Latched (s.selected v (ws ++ [w])) w.1 w.2 := latched_writesDone ws w _

theorem latched_cartridgeReset (s : State) (v : Variant) (w : Addr × Byte)
    (h : (registerZeros s.params v).getLast? = some w) : Latched (s.cartridgeReset v) w.1 w.2 := by
  obtain ⟨ws, e⟩ := List.getLast?_eq_some_iff.1 h
  have k := latched_writesDone ws w s.safeDriven
  rw [← e, ← zeroWrites_eq] at k
  exact ⟨k.asr, k.alat, k.dsr, k.dlat⟩

/-- A ROM read leaves the last address of its window and the last select value. -/
theorem latched_romRead (s : State) (v : Variant) (ws : List (Addr × Byte)) (w : Addr × Byte) (base : Addr) :
    Latched (s.romRead v (ws ++ [w]) base) (effectiveAddress base (romBankSize - 1)) w.2 := by
  have h := latched_selected s v ws w
  rw [State.romRead]
  exact (latched_windowRead h.dsr h.dlat base (by decide)).safeDriven

theorem romRead_v (s : State) (v : Variant) (ws : List (Addr × Byte)) (base : Addr) : (s.romRead v ws base).v = none := by
  rw [State.romRead, safeDriven_v, windowRead_v _ _ (by decide)]

theorem latched_ramRead (s : State) (v : Variant) (ws : List (Addr × Byte)) (w : Addr × Byte) :
    Latched (s.ramRead v (ws ++ [w])) (effectiveAddress winRam (ramBankSize - 1)) w.2 := by
  have h := latched_selected s v ws w
  rw [State.ramRead]
  exact (latched_windowRead (t := s.ramOpened v (ws ++ [w])) h.dsr h.dlat winRam (by decide)).ramClosed

theorem ramRead_v (s : State) (v : Variant) (ws : List (Addr × Byte)) : (s.ramRead v ws).v = none := by
  rw [State.ramRead, ramClosed_v, windowRead_v _ _ (by decide)]

theorem latched_ramWritten (s : State) (v : Variant) (ws : List (Addr × Byte)) (data : Nat → Byte) :
    Latched (s.ramWritten v ws data) (effectiveAddress winRam (ramBankSize - 1)) (data (ramBankSize - 1)) := by
  rw [State.ramWritten]
  exact (latched_windowWritten (s.ramOpened v ws) winRam data (by decide)).ramClosed

theorem latched_headerRead (s : State) :
    Latched s.headerRead (effectiveAddress s.params.headerBase (headerLen - 1)) 0x00 := by
  have h := latched_cartridgeReset s .mbc1 (s.params.m1Mode, 0) rfl
  rw [State.headerRead]
  exact (latched_windowRead h.dsr h.dlat s.params.headerBase (by decide)).safeDriven

theorem headerRead_v (s : State) : s.headerRead.v = none := by
  rw [State.headerRead, safeDriven_v, windowRead_v _ _ (by decide)]

/-- The last addresses of the four windows (00_scope.md R5). -/
theorem lastRom (base : Addr) : effectiveAddress base (romBankSize - 1) = base + 0x3FFF := rfl

theorem lastRam : effectiveAddress winRam (ramBankSize - 1) = 0xBFFF := rfl

theorem lastHeader (base : Addr) : effectiveAddress base (headerLen - 1) = base + 0x4F := rfl

/-! ### `MBC3.read_rtc` -/

/-- `reset()` at the end of a sequence finishes the operation. -/
theorem Bused.closed {s t : State} {es : List BusWrite} {n : Nat} (h : Bused s t es n) :
    BusDone s t.safeDriven es (n + 1) := by
  have k := h.trans (bused_safeDriven t)
  rw [List.append_nil] at k
  exact k.toDone (congrArg (fun p : Params => safeBss p.levels) h.same.params)

theorem done_rtcRead (s : State) : BusDone s s.rtcRead
    (registerEvents (registerZeros s.params .mbc3 ++ rtcSelect s.params) ++ rtcEvents s.params 5)
    (330 + 82 * (rtcSelect s.params).length + 156 * 5 + 1) := by
  have h := (bused_selected s .mbc3 (rtcSelect s.params)).trans
    (bused_rtcCells (selected_asserted_cs s .mbc3 (rtcSelect s.params)) 5)
  rw [selected_params, zeroWrites_eq] at h
  exact h.closed

theorem rtcRead_readBuffer (s : State) (i : Nat) : s.rtcRead.readBuffer i =
    if i < 5 then ((rtcCart (s.selected .mbc3 (rtcSelect s.params)) i).answer 0xA000 true).getD
      (Config.freeByte (s.draws + 9 * i)) else s.readBuffer i := by
  have hc := selected_asserted_cs s .mbc3 (rtcSelect s.params)
  have n := nothingRead_selected s .mbc3 (rtcSelect s.params)
  rw [State.rtcRead, safeDriven_readBuffer, rtcCells_readBuffer hc, n.draws]
  split
  · rfl
  · rw [State.readBuffer, n.bankBuffer]; rfl

/-- The cartridge while RTC register i is being read in `MBC3.read_rtc`. -/
theorem rtcRead_cart (s : State) (i : Nat) : rtcCart (s.selected .mbc3 (rtcSelect s.params)) i =
    cartAfter s.cart (registerEvents (registerZeros s.params .mbc3 ++ rtcSelect s.params ++
      (List.range (i + 1)).map fun j => (s.params.m3Ramb, s.params.rtcBase + BitVec.ofNat 8 j))) := by
  rw [rtcCart, (bused_selected s .mbc3 (rtcSelect s.params)).cart, selected_params, zeroWrites_eq, cartAfter, cartAfter,
    cartAfter, ← List.foldl_append, registerEvents_append _ (List.map _ _)]
  simp [rtcEvents, registerEvents, Function.comp_def]

theorem rtcRead_draws (s : State) : s.rtcRead.draws = s.draws + 45 := by
  rw [State.rtcRead, safeDriven_draws, rtcCells_draws, (nothingRead_selected s .mbc3 _).draws]

theorem latched_rtcRead (s : State) : Latched s.rtcRead 0xA000 (s.params.rtcBase + 4) := by
  have e : ((s.selected .mbc3 (rtcSelect s.params)).rtcCells 4).params = s.params :=
    (rtcCells_params _ 4).trans (selected_params s .mbc3 _)
  refine ⟨rfl, rfl, ?_, ?_⟩
  · change ((s.selected .mbc3 (rtcSelect s.params)).rtcCells 4).params.rtcBase + 4 = _
    rw [e]
  · change ((s.selected .mbc3 (rtcSelect s.params)).rtcCells 4).params.rtcBase + 4 = _
    rw [e]

theorem rtcRead_v (s : State) : s.rtcRead.v = none := rfl

end Sys2Proof.Machine
end

