-- ==== Sys2Proof/Laws/Commands.lean ====
section
/-! SUPPORT. The command layer (46_command_protocol.md): what ReadDescriptor leaves, frames on the stream, the streamed
banks, and the suspended `write_ram` as one byte after another. -/

namespace Sys2Proof.Machine

/-! ### ReadDescriptor -/

theorem readDescriptor_eq (s : State) : readDescriptor s = parseBuffer s.headerRead := by
  rw [readDescriptor, run_readHeader]

theorem BusDone.free {s t : State} {es : List BusWrite} {n : Nat} (h : BusDone s t es n) (hs : s.Free) : t.Free :=
  ⟨h.same.contention.trans hs.clean, h.same.control.trans hs.idle⟩

theorem headerRead_free {s : State} (hs : s.Free) : s.headerRead.Free := (done_headerRead s).free hs

/-- `MBC1.read_header`, then `parse`: what every command with a descriptor begins with (R243). -/
theorem describe {s : State} (hf : s.Free) (c : Byte) :
    Described c s (readDescriptor (startCommand c s)) (readDescriptor (startCommand c s)).bufferDescriptor := by
  have h1 : (startCommand c s).Free := ⟨hf.clean, hf.idle⟩
  have h2 := headerRead_free h1
  constructor
  · change andThen (exec .mbc1ReadHeader (startCommand c s)) (exec .parse) = _
    rw [exec_mbc1ReadHeader h1, andThen, exec_parse h2, readDescriptor_eq]
  · rw [readDescriptor_eq, parseBuffer_descriptor, parseBuffer_bufferDescriptor]

theorem Described.free {c : Byte} {s h : State} {d : Descriptor} (hd : Described c s h d) : s.Free := by
  have hr := hd.ran
  unfold andThen at hr
  split at hr
  · next e => exact ⟨(exec_free e).clean, (exec_free e).idle⟩
  · cases hr
  · cases hr

/-- The state and the descriptor are determined. -/
theorem Described.eq {c : Byte} {s h : State} {d : Descriptor} (hd : Described c s h d) :
    h = readDescriptor (startCommand c s) ∧ d = h.bufferDescriptor := by
  have k := describe hd.free c
  have e : h = readDescriptor (startCommand c s) := by
    have := hd.ran.symm.trans k.ran
    injection this
  subst e
  have := hd.desc.symm.trans k.desc
  injection this with this
  exact ⟨rfl, this⟩

/-- What ReadDescriptor leaves outside the bus and the buffer. -/
structure DescribedFields (c : Byte) (s h : State) : Prop where
  rest       : h.AtRest
  params     : h.params = s.params
  reportBuf  : h.reportBuf = s.reportBuf
  tx         : h.tx = s.tx
  txDrained  : h.txDrained = s.txDrained
  rx         : h.rx = s.rx
  control    : h.control = .idle
  selector   : h.selector = some c
  pending    : h.pending = s.pending
  bench      : h.bench = s.bench
  txSpace    : h.txSpace = s.txSpace
  contention : h.contention = false
  v          : h.v = none
  descriptor : h.descriptor = some h.bufferDescriptor

theorem parsed_describedFields {c : Byte} {s t : State} {es : List BusWrite} {n : Nat} (k : BusDone s t es n)
    (hs : s.Free) (hc : s.selector = some c) (hv : t.v = none) : DescribedFields c s (parseBuffer t) :=
  ⟨k.rest.trans (congrArg (fun p : Params => safeBss p.levels) k.same.params.symm), k.same.params, k.same.reportBuf,
    k.same.tx, k.same.txDrained, k.same.rx, k.same.control.trans hs.idle, k.same.selector.trans hc, k.same.pending,
    k.same.bench, k.same.txSpace, k.same.contention.trans hs.clean, hv, rfl⟩

theorem Described.fields {c : Byte} {s h : State} {d : Descriptor} (hd : Described c s h d) : DescribedFields c s h := by
  have e := hd.eq.1
  rw [readDescriptor_eq] at e
  have k := parsed_describedFields (c := c) (done_headerRead (startCommand c s)) ⟨hd.free.clean, hd.free.idle⟩ rfl
    (headerRead_v _)
  rw [← e] at k
  exact ⟨k.rest, k.params, k.reportBuf, k.tx, k.txDrained, k.rx, k.control, k.selector, k.pending, k.bench,
    k.txSpace, k.contention, k.v, k.descriptor⟩

/-- A header byte the cartridge fixes, where no register write of the header read moves it (R171, R243). -/
theorem Described.headerByte {c : Byte} {s h : State} {d : Descriptor} (hd : Described c s h d) {i : Nat} {b : Byte}
    (hi : i < headerLen)
    (ha : (cartAfter s.cart (registerEvents (registerZeros s.params .mbc1))).answer
      (s.params.headerBase + BitVec.ofNat 16 i) false = some b) : h.readBuffer i = b := by
  have e := hd.eq.1
  rw [readDescriptor_eq] at e
  have k := done_headerRead (startCommand c s)
  have w := inBuffer_headerRead (startCommand c s) i
  generalize (startCommand c s).headerRead = t at *
  obtain ⟨n, -, -, q⟩ := w.1 hi
  have z := k.cart
  rw [zeroWrites_eq] at z
  rw [e, parseBuffer_readBuffer, q, z]
  exact (congrArg (fun o : Option Byte => o.getD (Config.freeByte n)) ha).trans rfl

/-! ### Frames -/

/-- `okHeader` is the frame header of an OK with that length. -/
theorem frameHeader_ok (n : Nat) (h : 0 < n) (h' : n < 2 ^ 32) : frameHeader .ok (BitVec.ofNat 32 n) = okHeader n := by
  have hz : BitVec.ofNat 32 n ≠ 0 := by
    intro e
    have := congrArg BitVec.toNat e
    rw [BitVec.toNat_ofNat, Nat.mod_eq_of_lt h'] at this
    simp at this
    omega
  have b : ∀ k, (BitVec.ofNat 32 n).extractLsb' k 8 = BitVec.ofNat 8 (n / 2 ^ k) := by
    intro k
    apply BitVec.eq_of_toNat_eq
    rw [BitVec.extractLsb'_toNat, BitVec.toNat_ofNat, BitVec.toNat_ofNat, Nat.mod_eq_of_lt h', Nat.shiftRight_eq_div_pow]
  rw [frameHeader, if_neg hz, lengthBytes, b, b, b, b, okHeader]
  simp [statusCode]

/-- A command that sends its last bytes and ends, where the host drains. -/
theorem sendEnd_ended {s : State} (h : s.Drains) (bs : List Byte) (next : AfterSend) :
    sendThen bs next endCommand s = s.ended bs := sendThen_drains bs next endCommand s h

theorem raise_ended {s : State} (h : s.Drains) (st : Status) : raise st s = s.ended [statusCode st] := sendEnd_ended h _ _

theorem transmit_drains {s : State} (h : s.Drains) (bs : List Byte) (next : AfterSend) :
    transmit bs next s = proceed next { s with tx := s.tx ++ bs } := sendThen_drains bs next (proceed next) s h

/-- ReportBuf after the report has been written. -/
theorem writeReport_readReport (r : List Byte) (s : State) (i : Nat) :
    (writeReport r s).readReport i = (r[i]?).getD (s.readReport i) := by
  rw [State.readReport, writeReport, Memory.read_writeBytes]
  by_cases h : i < r.length
  · simp [h]
  · simp [h, State.readReport]

/-- What is sent from ReportBuf is the report. -/
theorem report_sent (r : List Byte) (s : State) : (writeReport r s).reportBytes r.length = r := by
  apply List.ext_getElem
  · simp [State.reportBytes]
  · intro i h1 h2
    simp [State.reportBytes, writeReport_readReport, h2]

/-! ### What the continuation of a command keeps -/

/-- What a command that goes on changes neither in its sends nor between them: parameters, ReportBuf, RX, what is presented,
what is drained; TX only grows. -/
structure Progress (s t : State) : Prop where
  params    : t.params = s.params
  reportBuf : t.reportBuf = s.reportBuf
  tx        : s.tx <+: t.tx
  txDrained : t.txDrained = s.txDrained
  rx        : t.rx = s.rx
  pending   : t.pending = s.pending
  bench     : t.bench = s.bench

theorem Progress.refl (s : State) : Progress s s := ⟨rfl, rfl, List.prefix_refl _, rfl, rfl, rfl, rfl⟩

theorem Progress.trans {s t u : State} (h : Progress s t) (k : Progress t u) : Progress s u :=
  ⟨k.params.trans h.params, k.reportBuf.trans h.reportBuf, h.tx.trans k.tx, k.txDrained.trans h.txDrained, k.rx.trans h.rx, k.pending.trans h.pending,
    k.bench.trans h.bench⟩

theorem progress_run (ms : List Micro) (s : State) : Progress s (run ms s) :=
  have u := run_untouched ms s
  ⟨u.params, u.reportBuf, u.tx ▸ List.prefix_refl _, u.txDrained, u.rx, u.pending, u.bench⟩

theorem progress_sendThen {k : State → State} (hk : ∀ t, Progress t (k t)) (bs : List Byte) (next : AfterSend)
    (s : State) : Progress s (sendThen bs next k s) :=
  sendThen_ind bs next k s
    (Progress.trans (t := txBytes bs s) ⟨rfl, rfl, List.prefix_append _ _, rfl, rfl, rfl, rfl⟩ (hk _))
    fun _ _ _ => ⟨rfl, rfl, List.prefix_append _ _, rfl, rfl, rfl, rfl⟩

theorem progress_endCommand (s : State) : Progress s (endCommand s) := ⟨rfl, rfl, List.prefix_refl _, rfl, rfl, rfl, rfl⟩

theorem progress_raise (st : Status) (s : State) : Progress s (raise st s) :=
  progress_sendThen progress_endCommand _ _ s

theorem progress_streamFrom (kind : ReadKind) (v : Variant) (n left : Nat) : ∀ s : State,
    Progress s (streamFrom kind v n left s) := by
  induction left with
  | zero => exact progress_endCommand
  | succ left ih => intro s; exact (progress_run _ s).trans (progress_sendThen ih _ _ _)

theorem progress_commit (up : Upload) (len : Length) (bank : Nat) (s : State) : Progress s (commitBank up len bank s) := by
  rw [commitBank]
  split
  · exact (progress_run _ s).trans ⟨rfl, rfl, List.prefix_refl _, rfl, rfl, rfl, rfl⟩
  · exact (progress_run _ s).trans (progress_endCommand _)

theorem progress_proceed (next : AfterSend) (s : State) : Progress s (proceed next s) := by
  cases next with
  | returned => exact ⟨rfl, rfl, List.prefix_refl _, rfl, rfl, rfl, rfl⟩
  | ended => exact progress_endCommand s
  | nextBank kind v n left => exact progress_streamFrom kind v n left s
  | length up => exact ⟨rfl, rfl, List.prefix_refl _, rfl, rfl, rfl, rfl⟩
  | data up len bank off => exact ⟨rfl, rfl, List.prefix_refl _, rfl, rfl, rfl, rfl⟩
  | commit up len bank => exact progress_commit up len bank s

theorem progress_transmit (bs : List Byte) (next : AfterSend) (s : State) : Progress s (transmit bs next s) :=
  progress_sendThen (progress_proceed next) bs next s

theorem progress_acceptByte (x : Byte) (s : State) : Progress s (acceptByte x s) := by
  unfold acceptByte
  split
  · exact .refl s
  · unfold acceptLengthByte
    split
    · unfold lengthReceived
      split
      · exact progress_transmit _ _ _
      · exact progress_raise _ _
    · exact ⟨rfl, rfl, List.prefix_refl _, rfl, rfl, rfl, rfl⟩
  · next up len bank off _ =>
    exact Progress.trans (t := storeByte off x s) ⟨rfl, rfl, List.prefix_refl _, rfl, rfl, rfl, rfl⟩ (progress_transmit _ _ _)
  · exact .refl s

/-- A command that asks for a byte takes it. -/
theorem takeBytes_cons {s : State} (h : s.control.takes = true) (x : Byte) (xs : List Byte) :
    takeBytes (x :: xs) s = takeBytes xs (acceptByte x s) := by rw [takeBytes, if_pos h]

/-- A position that asks for no byte leaves them in RX. -/
theorem takeBytes_stop {s : State} (h : s.control.takes = false) (xs : List Byte) :
    takeBytes xs s = { s with rx := xs } := by
  cases xs with
  | nil => rfl
  | cons x xs => rw [takeBytes, if_neg (by simp [h])]

/-- A command that does not ask for bytes is not moved by them. -/
theorem resumeCommand_stop {s : State} (h : s.control.takes = false) : resumeCommand s = s := by
  rw [resumeCommand, takeBytes_stop h]

/-- Taking bytes changes RX; what else it changes is progress. -/
theorem progress_takeBytes (xs : List Byte) : ∀ s : State, ∃ r, Progress { s with rx := r } (takeBytes xs s) := by
  induction xs with
  | nil => exact fun s => ⟨[], .refl _⟩
  | cons x xs ih =>
    intro s
    cases h : s.control.takes with
    | true =>
      rw [takeBytes_cons h]
      obtain ⟨r, k⟩ := ih (acceptByte x s)
      have q := progress_acceptByte x s
      exact ⟨r, ⟨k.params.trans q.params, k.reportBuf.trans q.reportBuf, q.tx.trans k.tx, k.txDrained.trans q.txDrained, k.rx,
        k.pending.trans q.pending, k.bench.trans q.bench⟩⟩
    | false => rw [takeBytes_stop h]; exact ⟨x :: xs, .refl _⟩

/-! ### Streamed banks, where the host drains -/

/-- One bank read and sent. -/
def streamBank (kind : ReadKind) (v : Variant) (n bank : Nat) (s : State) : State :=
  let t := run (kind.seq s.params v (bankOperand bank)) s
  { t with tx := t.tx ++ bankBytes kind n bank t }

/-- The first k banks of a payload. -/
def streamBanks (kind : ReadKind) (v : Variant) (n : Nat) : Nat → State → State
  | 0, s => s
  | k + 1, s => streamBank kind v n k (streamBanks kind v n k s)

theorem streamBank_drains {s : State} (h : s.Drains) (kind : ReadKind) (v : Variant) (n bank : Nat) :
    (streamBank kind v n bank s).Drains := (run_untouched _ s).txSpace.trans h

theorem streamBanks_drains {s : State} (h : s.Drains) (kind : ReadKind) (v : Variant) (n k : Nat) :
    (streamBanks kind v n k s).Drains := by
  induction k with
  | zero => exact h
  | succ k ih => exact streamBank_drains ih kind v n k

/-- Where the host drains, a streaming command sends its banks one after another and ends. -/
theorem streamFrom_drains {s : State} (h : s.Drains) (kind : ReadKind) (v : Variant) (n left : Nat) (hl : left ≤ n) :
    streamFrom kind v n left (streamBanks kind v n (n - left) s) = endCommand (streamBanks kind v n n s) := by
  induction left with
  | zero => rfl
  | succ left ih =>
    have e : n - left = (n - (left + 1)) + 1 := by omega
    have d : (run (kind.seq (streamBanks kind v n (n - (left + 1)) s).params v (bankOperand (n - (left + 1))))
        (streamBanks kind v n (n - (left + 1)) s)).txSpace = none :=
      (run_untouched _ _).txSpace.trans (streamBanks_drains h kind v n _)
    rw [streamFrom, sendThen_drains _ _ _ _ d, ← ih (by omega), e]
    rfl

/-- The whole payload. -/
theorem streamFrom_all {s : State} (h : s.Drains) (kind : ReadKind) (v : Variant) (n : Nat) :
    streamFrom kind v n n s = endCommand (streamBanks kind v n n s) := by
  have k := streamFrom_drains h kind v n n (Nat.le_refl n)
  rwa [Nat.sub_self] at k

theorem progress_streamBanks (kind : ReadKind) (v : Variant) (n k : Nat) (s : State) :
    Progress s (streamBanks kind v n k s) := by
  induction k with
  | zero => exact .refl s
  | succ k ih =>
    exact (ih.trans (progress_run _ _)).trans ⟨rfl, rfl, List.prefix_append _ _, rfl, rfl, rfl, rfl⟩

/-- The bytes of k banks after their frame's start: k units. -/
theorem streamBanks_tx (kind : ReadKind) (v : Variant) (n k : Nat) (s : State) :
    ∃ payload, (streamBanks kind v n (k + 1) s).tx = s.tx ++ frameHeader .ok (payloadLength n kind.unit) ++ payload ∧
      payload.length = (k + 1) * kind.unit := by
  induction k with
  | zero =>
    refine ⟨(run (kind.seq s.params v (bankOperand 0)) s).bufferBytes kind.unit, ?_, by simp [State.bufferBytes]⟩
    change (run _ s).tx ++ bankBytes kind n 0 _ = _
    rw [bankBytes, if_pos rfl, (run_untouched _ s).tx, List.append_assoc]
    rfl
  | succ k ih =>
    obtain ⟨p, e, l⟩ := ih
    let t := streamBanks kind v n (k + 1) s
    refine ⟨p ++ (run (kind.seq t.params v (bankOperand (k + 1))) t).bufferBytes kind.unit, ?_, ?_⟩
    · change (run _ t).tx ++ bankBytes kind n (k + 1) _ = _
      rw [bankBytes, if_neg (by omega), List.nil_append, (run_untouched _ t).tx, e, List.append_assoc]
    · simp [l, State.bufferBytes, Nat.succ_mul]

/-- The operation that reads one bank. -/
def ReadKind.op : ReadKind → Variant → BankOperand → Instr
  | .rom => readRomOf
  | .ram => readRamOf

/-- A bank operation finishes like every bus operation. -/
theorem finishes_bank (kind : ReadKind) (v : Variant) (u : State) (bank : BankOperand) :
    ∃ es n, BusDone u (run (kind.seq u.params v bank) u) es n := by
  cases kind <;> cases v
  · change ∃ es n, BusDone u (run (mbc1ReadRomSeq u.params bank) u) es n
    rw [mbc1ReadRomSeq, run_readRomShape]; exact ⟨_, _, done_romRead _ _ _ _⟩
  · change ∃ es n, BusDone u (run (mbc3ReadRomSeq u.params bank) u) es n
    rw [mbc3ReadRomSeq, run_readRomShape]; exact ⟨_, _, done_romRead _ _ _ _⟩
  · change ∃ es n, BusDone u (run (mbc5ReadRomSeq u.params bank) u) es n
    rw [mbc5ReadRomSeq, run_readRomShape]; exact ⟨_, _, done_romRead _ _ _ _⟩
  · change ∃ es n, BusDone u (run (mbc1ReadRamSeq u.params bank) u) es n
    rw [mbc1ReadRamSeq, run_readRamShape]; exact ⟨_, _, done_ramRead _ _ _⟩
  · change ∃ es n, BusDone u (run (mbc3ReadRamSeq u.params bank) u) es n
    rw [mbc3ReadRamSeq, run_readRamShape]; exact ⟨_, _, done_ramRead _ _ _⟩
  · change ∃ es n, BusDone u (run (mbc5ReadRamSeq u.params bank) u) es n
    rw [mbc5ReadRamSeq, run_readRamShape]; exact ⟨_, _, done_ramRead _ _ _⟩

theorem exec_bank {u : State} (hu : u.Free) (kind : ReadKind) (v : Variant) (bank : BankOperand) :
    exec (kind.op v bank) u = .next (run (kind.seq u.params v bank) u) := by
  cases kind <;> cases v
  · change execMbc1ReadRom bank u = _
    rw [execMbc1ReadRom, begin_free hu.clean hu.idle]; rfl
  · change execMbc3ReadRom bank u = _
    rw [execMbc3ReadRom, begin_free hu.clean hu.idle]; rfl
  · change execMbc5ReadRom bank u = _
    rw [execMbc5ReadRom, begin_free hu.clean hu.idle]; rfl
  · change execMbc1ReadRam bank u = _
    rw [execMbc1ReadRam, begin_free hu.clean hu.idle]; rfl
  · change execMbc3ReadRam bank u = _
    rw [execMbc3ReadRam, begin_free hu.clean hu.idle]; rfl
  · change execMbc5ReadRam bank u = _
    rw [execMbc5ReadRam, begin_free hu.clean hu.idle]; rfl

/-- Streamed banks are one bank operation after another; the sequencer stays free, and the bus rests after each. -/
theorem streamed (kind : ReadKind) (v : Variant) (n : Nat) (hl : 0 < n * kind.unit) (hl' : n * kind.unit < 2 ^ 32) (k : Nat)
    {s : State} (hs : s.Free) :
    Streamed (kind.op v) kind.unit (n * kind.unit) k s (streamBanks kind v n k s) ∧ (streamBanks kind v n k s).Free ∧
      (s.AtRest → (streamBanks kind v n k s).AtRest) := by
  induction k with
  | zero => exact ⟨.start s, hs, id⟩
  | succ k ih =>
    obtain ⟨h1, h2, -⟩ := ih
    obtain ⟨es, m, hd⟩ := finishes_bank kind v (streamBanks kind v n k s) (BitVec.ofNat 16 k)
    have hr := Streamed.bank k s _ _ h1 (exec_bank h2 kind v (BitVec.ofNat 16 k))
    have hf := hd.free h2
    refine ⟨?_, ⟨hf.clean, hf.idle⟩, fun _ => ?_⟩
    · rw [streamBanks, streamBank, bankBytes, payloadLength, frameHeader_ok _ hl hl', bankOperand]
      rw [List.append_assoc] at hr
      exact hr
    · exact hd.rest.trans (congrArg (fun q : Params => safeBss q.levels) hd.same.params.symm)

/-- The write sequence of a module is its RAM write state. -/
theorem run_writeRam (s : State) (v : Variant) (bank : BankOperand) (data : Nat → Byte) :
    run (writeRamSeq s.params v bank data) s = s.ramWritten v (ramBankWrites s.params bank v) data := by
  cases v
  · rw [writeRamSeq, mbc1WriteRamSeq, run_writeRamShape]; rfl
  · rw [writeRamSeq, mbc3WriteRamSeq, run_writeRamShape]; rfl
  · rw [writeRamSeq, mbc5WriteRamSeq, run_writeRamShape]; rfl

/-! ### Each command from its descriptor -/

section described
variable {s h : State} {d : Descriptor}

theorem exec_parseHeader_described (hd : Described s.params.cmdId.parseHeader s h d) : exec .parseHeader s = .next (answerReport h) := by
  change execParseHeader s = _
  rw [execParseHeader, begin_free hd.free.clean hd.free.idle, parseHeaderCommand, ← hd.eq.1]

theorem exec_readRom_described (hd : Described s.params.cmdId.readRom s h d) : exec .readRom s = .next (answerRom h) := by
  change execReadRom s = _
  rw [execReadRom, begin_free hd.free.clean hd.free.idle, readRomCommand, ← hd.eq.1]

theorem exec_readRam_described (hd : Described s.params.cmdId.readRam s h d) : exec .readRam s = .next (answerRam h) := by
  change execReadRam s = _
  rw [execReadRam, begin_free hd.free.clean hd.free.idle, readRamCommand, ← hd.eq.1]

theorem exec_writeRam_described (hd : Described s.params.cmdId.writeRam s h d) : exec .writeRam s = .next (answerUpload h) := by
  change execWriteRam s = _
  rw [execWriteRam, begin_free hd.free.clean hd.free.idle, writeRamCommand, ← hd.eq.1]

theorem exec_readRtc_described (hd : Described s.params.cmdId.readRtc s h d) : exec .readRtc s = .next (answerRtc h) := by
  change execReadRtc s = _
  rw [execReadRtc, begin_free hd.free.clean hd.free.idle, readRtcCommand, ← hd.eq.1]

end described

/-- The two ways each checked command goes on. -/
theorem answerRom_raised {h : State} {st : Status} (e : romCheck h.bufferDescriptor = .raised st) :
    answerRom h = raise st h := by rw [answerRom, e]

theorem answerRom_passed {h : State} {v : Variant} {n : Nat} (e : romCheck h.bufferDescriptor = .passed v n) :
    answerRom h = streamFrom .rom v n n h := by
  rw [answerRom, e]

theorem answerRam_raised {h : State} {st : Status} (e : ramCheck h.bufferDescriptor = .raised st) :
    answerRam h = raise st h := by rw [answerRam, e]

theorem answerRam_passed {h : State} {v : Variant} {n : Nat} (e : ramCheck h.bufferDescriptor = .passed v n) :
    answerRam h = streamFrom .ram v n n h := by
  rw [answerRam, e]

theorem answerUpload_raised {h : State} {st : Status} (e : ramCheck h.bufferDescriptor = .raised st) :
    answerUpload h = raise st h := by rw [answerUpload, e]

theorem answerUpload_passed {h : State} {v : Variant} {n : Nat} (e : ramCheck h.bufferDescriptor = .passed v n) :
    answerUpload h = resumeCommand (transmit (frameHeader .ok 0) (.length { variant := v, bankCount := n }) h) := by
  rw [answerUpload, e]

theorem answerRtc_capable {h r : State} (hd : r.Drains) (e : rtcCapable h.bufferDescriptor = true)
    (hr : run (mbc3ReadRtcSeq h.params) h = r) :
    answerRtc h = r.ended ([0x00, 0x05, 0x00, 0x00, 0x00] ++ (List.range 5).map r.readBuffer) := by
  rw [answerRtc, if_pos e, hr, transmit_drains hd]
  rfl

theorem answerRtc_raised {h : State} (hd : h.Drains) (e : rtcCapable h.bufferDescriptor = false) :
    answerRtc h = h.ended [0x17] := by
  rw [answerRtc, if_neg (by simp [e]), raise_ended hd]
  rfl

/-! ### Steps of a suspended operation -/

/-- A step of a command in `RxByte` with bytes in RX takes them. -/
theorem step_held {s : State} (hc : s.contention = false) (hi : s.control.takes = true) (hx : s.rx ≠ []) :
    step s = .next (takeBytes s.rx s) := by
  have e : stepHeld s = .next (takeBytes s.rx s) := by
    unfold stepHeld
    split
    · next h => exact absurd h hx
    · rfl
  unfold step
  rw [if_neg (by simp [hc])]
  split
  · next h => rw [h] at hi; cases hi
  · exact e
  · exact e
  · next h => rw [h] at hi; cases hi

/-- A step of an operation in `TxByte` on a transport with room sends and goes on. -/
theorem step_sending {s : State} {rest : List Byte} {next : AfterSend} (hc : s.contention = false)
    (hi : s.control = .sending rest next) (hr : s.txSpace ≠ some 0) :
    step s = .next (resumeCommand (transmit rest next s)) := by
  rw [step, if_neg (by simp [hc]), hi]
  change stepSending rest next s = _
  rw [stepSending, if_neg hr]

end Sys2Proof.Machine
end

