-- ==== Sys2Proof/Laws/Encoding.lean ====
section
/-! SUPPORT. The laws of the fields of a word: packing and unpacking are inverse, so that no proof about the decoder unfolds a
bit extraction. -/

namespace Sys2Proof

@[simp] theorem labelOf_packWord (v : Byte) (o : BitVec 16) (l : Byte) : labelOf (packWord v o l) = l := by
  apply BitVec.eq_of_getLsbD_eq
  intro i hi
  simp only [labelOf, packWord, BitVec.getLsbD_extractLsb', BitVec.getLsbD_append, Nat.zero_add]
  simp [hi]

@[simp] theorem operandOf_packWord (v : Byte) (o : BitVec 16) (l : Byte) : operandOf (packWord v o l) = o := by
  apply BitVec.eq_of_getLsbD_eq
  intro i hi
  simp only [operandOf, packWord, BitVec.getLsbD_extractLsb', BitVec.getLsbD_append]
  simp [hi]

@[simp] theorem valueOf_packWord (v : Byte) (o : BitVec 16) (l : Byte) : valueOf (packWord v o l) = v := by
  apply BitVec.eq_of_getLsbD_eq
  intro i hi
  simp only [valueOf, packWord, BitVec.getLsbD_extractLsb', BitVec.getLsbD_append]
  simp [hi, show ¬ (24 + i < 8) by omega, show ¬ (24 + i - 8 < 16) by omega, show 24 + i - 8 - 16 = i by omega]

/-- Every word is packed from its three fields. -/
theorem packWord_fields (w : BitVec 32) : packWord (valueOf w) (operandOf w) (labelOf w) = w := by
  apply BitVec.eq_of_getLsbD_eq
  intro i hi
  simp only [packWord, valueOf, operandOf, labelOf, BitVec.getLsbD_append, BitVec.getLsbD_extractLsb']
  by_cases h1 : i < 8
  · simp [h1]
  · by_cases h2 : i - 8 < 16
    · simp [h1, h2, show 8 + (i - 8) = i by omega]
    · simp [h1, h2, show i - 8 - 16 < 8 by omega, show 24 + (i - 8 - 16) = i by omega]

/-- A narrow field widened to 16 bits and read back. -/
theorem setWidth_back {k n : Nat} (h : k ≤ n) (x : BitVec k) : (x.setWidth n).setWidth k = x := by
  apply BitVec.eq_of_getLsbD_eq
  intro i hi
  simp [hi, show i < n by omega]

/-- A wide value below 2^k is its low k bits, widened. -/
theorem setWidth_of_lt {k n : Nat} {x : BitVec n} (hx : x.toNat < 2 ^ k) : (x.setWidth k).setWidth n = x := by
  apply BitVec.eq_of_toNat_eq
  rw [BitVec.toNat_setWidth, BitVec.toNat_setWidth, Nat.mod_eq_of_lt hx, Nat.mod_eq_of_lt x.isLt]

/-- A widened field is below 2^k. -/
theorem toNat_setWidth_lt {k n : Nat} (x : BitVec k) : (x.setWidth n).toNat < 2 ^ k := by
  rw [BitVec.toNat_setWidth]
  exact Nat.lt_of_le_of_lt (Nat.mod_le _ _) x.isLt

/-! ### The selector byte -/

theorem command_cases {ids : CommandIds} {c : Byte} {i : Instr} (h : ids.command c = some i) :
    (c = ids.parseHeader ∧ i = .parseHeader) ∨ (c = ids.readRom ∧ i = .readRom) ∨ (c = ids.readRam ∧ i = .readRam) ∨
    (c = ids.writeRam ∧ i = .writeRam) ∨ (c = ids.readRtc ∧ i = .readRtc) ∨ (c = ids.writeRtc ∧ i = .writeRtc) := by
  unfold CommandIds.command at h
  split_ifs at h <;> simp_all

theorem unknownRow_wf : ∀ c : Byte, ∀ i, unknownRow c = some i → i.wf = true := by
  intro c i h
  unfold unknownRow at h
  split_ifs at h <;> (injection h with h; subst h; simp only [Instr.wf, Bool.and_eq_true, decide_eq_true_eq]; omega)

/-- What a selector byte names is well formed and is encoded by that byte. -/
theorem commandOf_spec {p : Params} {c : Byte} {i : Instr} (h : commandOf p.cmdId c = some i) :
    i.wf = true ∧ encode p i = ⟨.cmd, byteWord c⟩ := by
  unfold commandOf at h
  split at h
  · next e =>
    injection h with h
    subst h
    rcases command_cases e with ⟨rfl, rfl⟩ | ⟨rfl, rfl⟩ | ⟨rfl, rfl⟩ | ⟨rfl, rfl⟩ | ⟨rfl, rfl⟩ | ⟨rfl, rfl⟩ <;>
      exact ⟨rfl, rfl⟩
  · refine ⟨unknownRow_wf c i h, ?_⟩
    unfold unknownRow at h
    split_ifs at h <;> (injection h with h; subst h; rfl)

/-- From 0x06 on no byte is a command. -/
theorem command_none {ids : CommandIds} (hw : ids.wf = true) {c : Byte} (h : 6 ≤ c.toNat) : ids.command c = none := by
  simp only [CommandIds.wf, CommandIds.toList, Bool.and_eq_true, List.all_cons, List.all_nil, decide_eq_true_eq] at hw
  cases e : ids.command c with
  | none => rfl
  | some i =>
    rcases command_cases e with ⟨rfl, -⟩ | ⟨rfl, -⟩ | ⟨rfl, -⟩ | ⟨rfl, -⟩ | ⟨rfl, -⟩ | ⟨rfl, -⟩ <;> omega

/-- A well-formed row of the unknown selectors is the row of its selector. -/
theorem unknownRow_of_wf (c : Byte) :
    ((Instr.unknown0607 c).wf = true → unknownRow c = some (.unknown0607 c)) ∧
    ((Instr.unknown080F c).wf = true → unknownRow c = some (.unknown080F c)) ∧
    ((Instr.unknown101F c).wf = true → unknownRow c = some (.unknown101F c)) ∧
    ((Instr.unknown203F c).wf = true → unknownRow c = some (.unknown203F c)) ∧
    ((Instr.unknown407F c).wf = true → unknownRow c = some (.unknown407F c)) ∧
    ((Instr.unknown80FF c).wf = true → unknownRow c = some (.unknown80FF c)) := by
  revert c
  decide

/-- Each command is what its own byte names. -/
theorem command_ids {ids : CommandIds} (hw : ids.wf = true) :
    ids.command ids.parseHeader = some .parseHeader ∧ ids.command ids.readRom = some .readRom ∧
    ids.command ids.readRam = some .readRam ∧ ids.command ids.writeRam = some .writeRam ∧
    ids.command ids.readRtc = some .readRtc ∧ ids.command ids.writeRtc = some .writeRtc := by
  simp only [CommandIds.wf, CommandIds.toList, Bool.and_eq_true, List.nodup_cons, List.mem_cons, List.not_mem_nil,
    not_or, decide_eq_true_eq, or_false] at hw
  obtain ⟨⟨h1, h2, h3, h4, h5, -⟩, -⟩ := hw
  refine ⟨?_, ?_, ?_, ?_, ?_, ?_⟩ <;> simp only [CommandIds.command] <;> simp_all [eq_comm]

theorem variantOfNumber_some {n : BitVec 16} {v : Variant} (h : variantOfNumber n = some v) : numberOfVariant v = n := by
  unfold variantOfNumber at h
  split_ifs at h <;> cases h <;> simp_all [numberOfVariant]

@[simp] theorem variantOfNumber_numberOfVariant (v : Variant) : variantOfNumber (numberOfVariant v) = some v := by
  cases v <;> decide

/-! ### How wide an encoding is -/

theorem packWord_toNat (v : Byte) (o : BitVec 16) (l : Byte) :
    (packWord v o l).toNat = v.toNat * 2 ^ 24 + o.toNat * 2 ^ 8 + l.toNat := by
  rw [packWord, BitVec.toNat_append, BitVec.toNat_append, ← Nat.shiftLeft_add_eq_or_of_lt l.isLt,
    ← Nat.shiftLeft_add_eq_or_of_lt o.isLt]
  simp only [Nat.shiftLeft_eq]
  omega

theorem byteWord_lt (b : Byte) : (byteWord b).toNat < 2 ^ 8 := by
  rw [byteWord, packWord_toNat]
  have := b.isLt
  have z : BitVec.toNat (0 : Byte) = 0 := rfl
  have z' : BitVec.toNat (0 : BitVec 16) = 0 := rfl
  omega

theorem byteOperand_lt (l b : Byte) : (operandWord l (b.setWidth 16)).toNat < 2 ^ 16 := by
  rw [operandWord, packWord_toNat, BitVec.toNat_setWidth]
  have := b.isLt
  have := l.isLt
  have z : BitVec.toNat (0 : Byte) = 0 := rfl
  have z' : BitVec.toNat (0 : BitVec 16) = 0 := rfl
  omega

theorem operandWord_lt (l : Byte) (a : BitVec 16) : (operandWord l a).toNat < 2 ^ 24 := by
  rw [operandWord, packWord_toNat]
  have := a.isLt
  have := l.isLt
  have z : BitVec.toNat (0 : Byte) = 0 := rfl
  have z' : BitVec.toNat (0 : BitVec 16) = 0 := rfl
  omega

theorem regWord_lt (a : Addr) (d : Byte) : (regWord a d).toNat < 2 ^ 24 := operandWord_lt d a

end Sys2Proof
end

