-- ==== Sys2Proof/Laws/PerInstr.lean ====
section
/-! SUPPORT. The law family RowFormat: the format each row of spec/opcode_table.json is in, and how many low bits of the word
its encoding occupies (30_encoding.md R100, R103, R106, R108, R116; log 14). One lemma for each constructor. -/

namespace Sys2Proof.Laws.RowFormat

/-- The format of an instruction's row, and the width of its word: 8 bits of selector, label or status, then its operands. -/
def row : Instr → Format × Nat
  | .parseHeader | .readRom | .readRam | .writeRam | .readRtc | .writeRtc | .unknown0607 _
  | .unknown080F _ | .unknown101F _ | .unknown203F _ | .unknown407F _ | .unknown80FF _ => (.cmd, 8)
  | .reset | .shiftInData | .mbc1ReadHeader | .mbc3ReadRtc | .mbc3WriteRtc | .parse => (.int, 8)
  | .shiftOutAddress _ | .resetCartridge _ | .readCell _ | .mbc1ReadRom _ | .mbc1ReadRam _
  | .mbc1WriteRam _ | .mbc3ReadRom _ | .mbc3ReadRam _ | .mbc3WriteRam _ | .mbc5ReadRom _
  | .mbc5ReadRam _ | .mbc5WriteRam _ => (.int, 24)
  | .shiftOutData _ => (.int, 16)
  | .registerWrite _ _ | .writeCell _ _ => (.int, 32)
  | .statusOk | .statusUnknownCommand | .statusInvalidNumRomBanks | .statusInvalidNumRamBanks
  | .statusInvalidCartridgeType | .statusInvalidRamWriteSize | .statusCartridgeHasNoRam
  | .statusCartridgeHasNoRtc | .statusInvalidRtcWriteSize => (.status, 8)
  | .regwM1Ramg _ | .regwM1Bank1 _ | .regwM1Bank2 _ | .regwM1Mode _ => (.regw .mbc1, 24)
  | .regwM3Ramg _ | .regwM3Romb _ | .regwM3Ramb _ | .regwM3Latch _ => (.regw .mbc3, 24)
  | .regwM5Ramg _ | .regwM5Romb0 _ | .regwM5Romb1 _ | .regwM5Ramb _ => (.regw .mbc5, 24)

/-- Every encoding is in its row's format and leaves the bits above its row's width 0. -/
def Statement (i : Instr) : Prop :=
  ∀ p : Params, (encode p i).format = (row i).1 ∧ (encode p i).word.toNat < 2 ^ (row i).2

theorem parseHeader : Statement .parseHeader := fun _ => ⟨rfl, byteWord_lt _⟩
theorem readRom : Statement .readRom := fun _ => ⟨rfl, byteWord_lt _⟩
theorem readRam : Statement .readRam := fun _ => ⟨rfl, byteWord_lt _⟩
theorem writeRam : Statement .writeRam := fun _ => ⟨rfl, byteWord_lt _⟩
theorem readRtc : Statement .readRtc := fun _ => ⟨rfl, byteWord_lt _⟩
theorem writeRtc : Statement .writeRtc := fun _ => ⟨rfl, byteWord_lt _⟩
theorem unknown0607 (cmd : Byte) : Statement (.unknown0607 cmd) := fun _ => ⟨rfl, byteWord_lt _⟩
theorem unknown080F (cmd : Byte) : Statement (.unknown080F cmd) := fun _ => ⟨rfl, byteWord_lt _⟩
theorem unknown101F (cmd : Byte) : Statement (.unknown101F cmd) := fun _ => ⟨rfl, byteWord_lt _⟩
theorem unknown203F (cmd : Byte) : Statement (.unknown203F cmd) := fun _ => ⟨rfl, byteWord_lt _⟩
theorem unknown407F (cmd : Byte) : Statement (.unknown407F cmd) := fun _ => ⟨rfl, byteWord_lt _⟩
theorem unknown80FF (cmd : Byte) : Statement (.unknown80FF cmd) := fun _ => ⟨rfl, byteWord_lt _⟩
theorem reset : Statement .reset := fun _ => ⟨rfl, byteWord_lt _⟩
theorem shiftOutAddress (addr : Addr) : Statement (.shiftOutAddress addr) := fun _ => ⟨rfl, operandWord_lt _ _⟩
theorem shiftOutData (byte : Byte) : Statement (.shiftOutData byte) := fun _ => ⟨rfl, byteOperand_lt _ _⟩
theorem shiftInData : Statement .shiftInData := fun _ => ⟨rfl, byteWord_lt _⟩
theorem registerWrite (address : Addr) (value : Byte) : Statement (.registerWrite address value) := fun _ => ⟨rfl, BitVec.isLt _⟩
theorem resetCartridge (variant : Variant) : Statement (.resetCartridge variant) := fun _ => ⟨rfl, operandWord_lt _ _⟩
theorem readCell (addr : Addr) : Statement (.readCell addr) := fun _ => ⟨rfl, operandWord_lt _ _⟩
theorem writeCell (addr : Addr) (byte : Byte) : Statement (.writeCell addr byte) := fun _ => ⟨rfl, BitVec.isLt _⟩
theorem mbc1ReadRom (bank : BankOperand) : Statement (.mbc1ReadRom bank) := fun _ => ⟨rfl, operandWord_lt _ _⟩
theorem mbc1ReadHeader : Statement .mbc1ReadHeader := fun _ => ⟨rfl, byteWord_lt _⟩
theorem mbc1ReadRam (bank : BankOperand) : Statement (.mbc1ReadRam bank) := fun _ => ⟨rfl, operandWord_lt _ _⟩
theorem mbc1WriteRam (bank : BankOperand) : Statement (.mbc1WriteRam bank) := fun _ => ⟨rfl, operandWord_lt _ _⟩
theorem mbc3ReadRom (bank : BankOperand) : Statement (.mbc3ReadRom bank) := fun _ => ⟨rfl, operandWord_lt _ _⟩
theorem mbc3ReadRam (bank : BankOperand) : Statement (.mbc3ReadRam bank) := fun _ => ⟨rfl, operandWord_lt _ _⟩
theorem mbc3WriteRam (bank : BankOperand) : Statement (.mbc3WriteRam bank) := fun _ => ⟨rfl, operandWord_lt _ _⟩
theorem mbc3ReadRtc : Statement .mbc3ReadRtc := fun _ => ⟨rfl, byteWord_lt _⟩
theorem mbc3WriteRtc : Statement .mbc3WriteRtc := fun _ => ⟨rfl, byteWord_lt _⟩
theorem mbc5ReadRom (bank : BankOperand) : Statement (.mbc5ReadRom bank) := fun _ => ⟨rfl, operandWord_lt _ _⟩
theorem mbc5ReadRam (bank : BankOperand) : Statement (.mbc5ReadRam bank) := fun _ => ⟨rfl, operandWord_lt _ _⟩
theorem mbc5WriteRam (bank : BankOperand) : Statement (.mbc5WriteRam bank) := fun _ => ⟨rfl, operandWord_lt _ _⟩
theorem parse : Statement .parse := fun _ => ⟨rfl, byteWord_lt _⟩
theorem statusOk : Statement .statusOk := fun _ => ⟨rfl, byteWord_lt _⟩
theorem statusUnknownCommand : Statement .statusUnknownCommand := fun _ => ⟨rfl, byteWord_lt _⟩
theorem statusInvalidNumRomBanks : Statement .statusInvalidNumRomBanks := fun _ => ⟨rfl, byteWord_lt _⟩
theorem statusInvalidNumRamBanks : Statement .statusInvalidNumRamBanks := fun _ => ⟨rfl, byteWord_lt _⟩
theorem statusInvalidCartridgeType : Statement .statusInvalidCartridgeType := fun _ => ⟨rfl, byteWord_lt _⟩
theorem statusInvalidRamWriteSize : Statement .statusInvalidRamWriteSize := fun _ => ⟨rfl, byteWord_lt _⟩
theorem statusCartridgeHasNoRam : Statement .statusCartridgeHasNoRam := fun _ => ⟨rfl, byteWord_lt _⟩
theorem statusCartridgeHasNoRtc : Statement .statusCartridgeHasNoRtc := fun _ => ⟨rfl, byteWord_lt _⟩
theorem statusInvalidRtcWriteSize : Statement .statusInvalidRtcWriteSize := fun _ => ⟨rfl, byteWord_lt _⟩
theorem regwM1Ramg (g : BitVec 4) : Statement (.regwM1Ramg g) := fun _ => ⟨rfl, regWord_lt _ _⟩
theorem regwM1Bank1 (b : BitVec 5) : Statement (.regwM1Bank1 b) := fun _ => ⟨rfl, regWord_lt _ _⟩
theorem regwM1Bank2 (h : BitVec 2) : Statement (.regwM1Bank2 h) := fun _ => ⟨rfl, regWord_lt _ _⟩
theorem regwM1Mode (m : BitVec 1) : Statement (.regwM1Mode m) := fun _ => ⟨rfl, regWord_lt _ _⟩
theorem regwM3Ramg (g : BitVec 4) : Statement (.regwM3Ramg g) := fun _ => ⟨rfl, regWord_lt _ _⟩
theorem regwM3Romb (b : BitVec 8) : Statement (.regwM3Romb b) := fun _ => ⟨rfl, regWord_lt _ _⟩
theorem regwM3Ramb (sel : BitVec 8) : Statement (.regwM3Ramb sel) := fun _ => ⟨rfl, regWord_lt _ _⟩
theorem regwM3Latch (l : BitVec 1) : Statement (.regwM3Latch l) := fun _ => ⟨rfl, regWord_lt _ _⟩
theorem regwM5Ramg (g : BitVec 4) : Statement (.regwM5Ramg g) := fun _ => ⟨rfl, regWord_lt _ _⟩
theorem regwM5Romb0 (b : BitVec 8) : Statement (.regwM5Romb0 b) := fun _ => ⟨rfl, regWord_lt _ _⟩
theorem regwM5Romb1 (h : BitVec 1) : Statement (.regwM5Romb1 h) := fun _ => ⟨rfl, regWord_lt _ _⟩
theorem regwM5Ramb (sel : BitVec 8) : Statement (.regwM5Ramb sel) := fun _ => ⟨rfl, regWord_lt _ _⟩

end Sys2Proof.Laws.RowFormat
end

