-- ==== Sys2Proof/Laws/Received.lean ====
section
/-! SUPPORT. The suspended `write_ram` and the bytes it takes: what it does does not depend on what else stands in RX, so
bytes may arrive in pieces (20_memory.md R84, 46_command_protocol.md R247). -/

namespace Sys2Proof.Machine

/-- s with other bytes in RX, another position, and other room on the transport: what no micro-step reads or writes. -/
def State.aside (s : State) (r : List Byte) (c : Control) (room : Option Nat) : State :=
  { s with rx := r, control := c, txSpace := room }

section aside
variable (r : List Byte) (c : Control) (room : Option Nat)

theorem clockInput_aside (b : Bool) (s : State) : clockInput b (s.aside r c room) = (clockInput b s).aside r c room := by
  unfold clockInput
  have e : (s.aside r c room).asserted .dinLoad = s.asserted .dinLoad := rfl
  rw [e]
  split
  · rfl
  · split <;> rfl

theorem gpioWrite_aside (b : Bss) (s : State) : gpioWrite b (s.aside r c room) = (gpioWrite b s).aside r c room :=
  clockInput_aside r c room _ (setPins b (clockData b (clockAddress b s)))

theorem drive_aside (f : OutField) (l : Bool) (s : State) : drive f l (s.aside r c room) = (drive f l s).aside r c room := by
  have e : settle (gpioWrite ((s.aside r c room).bss.set f l) (s.aside r c room)) =
      (settle (gpioWrite (s.bss.set f l) s)).aside r c room := congrArg settle (gpioWrite_aside r c room _ s)
  rw [drive, drive, e]
  have e2 : ((settle (gpioWrite (s.bss.set f l) s)).aside r c room).params = (settle (gpioWrite (s.bss.set f l) s)).params := rfl
  simp only [e2]
  split
  · rfl
  · rfl

theorem micro_aside (m : Micro) (s : State) : micro m (s.aside r c room) = (micro m s).aside r c room := by
  have e : (s.aside r c room).v = s.v := rfl
  cases m with
  | drive f l => exact drive_aside r c room f l s
  | safe => exact congrArg settle (gpioWrite_aside r c room _ s)
  | clearV => rfl
  | sample i =>
    change sampleBit i (s.aside r c room) = (sampleBit i s).aside r c room
    unfold sampleBit
    rw [e]
    split <;> rfl
  | store i =>
    change storeV i (s.aside r c room) = (storeV i s).aside r c room
    unfold storeV
    rw [e]
    split <;> rfl

/-- No sequence of micro-steps reads or writes RX, the position or the room on the transport. -/
theorem run_aside (ms : List Micro) : ∀ s : State, run ms (s.aside r c room) = (run ms s).aside r c room := by
  induction ms with
  | nil => intro s; rfl
  | cons m ms ih => intro s; rw [run_cons, micro_aside, ih]; rfl

end aside

/-! ### What stands in RX beyond what is taken -/

/-- s with other bytes in RX. -/
def State.withRx (s : State) (r : List Byte) : State := { s with rx := r }

theorem run_rx (ms : List Micro) (r : List Byte) (s : State) : run ms (s.withRx r) = (run ms s).withRx r := by
  have e := run_aside r s.control s.txSpace ms s
  have u := run_untouched ms s
  have q : (run ms s).aside r s.control s.txSpace = (run ms s).withRx r := by
    rw [State.aside, State.withRx, ← u.control, ← u.txSpace]
  rw [← q, ← e]
  rfl

section withRx
variable (r : List Byte)

theorem sendThen_rx {k : State → State} (hk : ∀ s : State, k (s.withRx r) = (k s).withRx r) (bs : List Byte)
    (next : AfterSend) (s : State) : sendThen bs next k (s.withRx r) = (sendThen bs next k s).withRx r := by
  have e : (s.withRx r).roomFor bs.length = s.roomFor bs.length := rfl
  rw [sendThen, sendThen, e]
  split
  · exact hk (txBytes bs s)
  · rfl

theorem streamFrom_rx (kind : ReadKind) (v : Variant) (n left : Nat) : ∀ s : State,
    streamFrom kind v n left (s.withRx r) = (streamFrom kind v n left s).withRx r := by
  induction left with
  | zero => intro s; rfl
  | succ left ih =>
    intro s
    have e : run (kind.seq (s.withRx r).params v (bankOperand (n - (left + 1)))) (s.withRx r) =
        (run (kind.seq s.params v (bankOperand (n - (left + 1)))) s).withRx r := run_rx _ r s
    rw [streamFrom, e]
    exact sendThen_rx r ih _ _ _

theorem commit_rx (up : Upload) (len : Length) (bank : Nat) (s : State) :
    commitBank up len bank (s.withRx r) = (commitBank up len bank s).withRx r := by
  have e : run (writeRamSeq (s.withRx r).params up.variant (bankOperand bank) (s.withRx r).readBuffer) (s.withRx r) =
      (run (writeRamSeq s.params up.variant (bankOperand bank) s.readBuffer) s).withRx r := run_rx _ r s
  rw [commitBank, commitBank, e]
  split <;> rfl

theorem transmit_rx (bs : List Byte) (next : AfterSend) (s : State) :
    transmit bs next (s.withRx r) = (transmit bs next s).withRx r := by
  refine sendThen_rx r (fun s => ?_) bs next s
  cases next with
  | returned => rfl
  | ended => rfl
  | nextBank kind v n left => exact streamFrom_rx r kind v n left s
  | length up => rfl
  | data up len bank off => rfl
  | commit up len bank => exact commit_rx r up len bank s

theorem accept_rx (x : Byte) (s : State) : acceptByte x (s.withRx r) = (acceptByte x s).withRx r := by
  unfold acceptByte
  have e : (s.withRx r).control = s.control := rfl
  rw [e]
  split
  · rfl
  · unfold acceptLengthByte
    split
    · unfold lengthReceived
      split
      · exact transmit_rx r _ _ _
      · exact sendThen_rx r (fun _ => rfl) _ _ _
    · rfl
  · next up len bank off _ => exact transmit_rx r _ _ (storeByte off x s)
  · rfl

/-- What stands in RX does not matter to the bytes that are taken. -/
theorem take_rx (xs : List Byte) : ∀ s : State, takeBytes xs (s.withRx r) = takeBytes xs s := by
  induction xs with
  | nil => intro s; rfl
  | cons x xs ih =>
    intro s
    have e : (s.withRx r).control = s.control := rfl
    rw [takeBytes, takeBytes, e]
    split
    · rw [accept_rx, ih]
    · rfl

end withRx

/-- Bytes taken in two deliveries: those the command stops before stay in RX. -/
theorem take_append (xs ys : List Byte) : ∀ s : State,
    ((takeBytes xs s).control.takes = false → takeBytes (xs ++ ys) s = (takeBytes xs s).withRx ((takeBytes xs s).rx ++ ys)) ∧
    ((takeBytes xs s).control.takes = true →
      (takeBytes xs s).rx = [] ∧ takeBytes (xs ++ ys) s = takeBytes ys (takeBytes xs s)) := by
  induction xs with
  | nil =>
    intro s
    have e : takeBytes [] s = s.withRx [] := rfl
    refine ⟨fun h => ?_, fun _ => ⟨rfl, (take_rx [] ys s).symm⟩⟩
    rw [List.nil_append, takeBytes_stop (s := s) h]
    rfl
  | cons x xs ih =>
    intro s
    cases h : s.control.takes with
    | true => rw [List.cons_append, takeBytes_cons h, takeBytes_cons h]; exact ih _
    | false =>
      rw [takeBytes_stop h]
      refine ⟨fun _ => ?_, fun k => ?_⟩
      · rw [takeBytes_stop h]; rfl
      · have k' : s.control.takes = true := k
        rw [h] at k'; cases k'

/-! ### Nothing in a suspended command meets two drivers -/

theorem sendThen_contention {k : State → State} (hk : ∀ s, (k s).contention = s.contention) (bs : List Byte)
    (next : AfterSend) (s : State) : (sendThen bs next k s).contention = s.contention :=
  sendThen_ind bs next k s (P := fun t => t.contention = s.contention) (hk _) fun _ _ _ => rfl

theorem streamFrom_contention (kind : ReadKind) (v : Variant) (n left : Nat) : ∀ s : State,
    (streamFrom kind v n left s).contention = s.contention := by
  induction left with
  | zero => intro s; rfl
  | succ left ih =>
    intro s
    obtain ⟨es, m, d⟩ := finishes_bank kind v s (bankOperand (n - (left + 1)))
    exact (sendThen_contention ih _ _ _).trans d.same.contention

theorem commit_contention (up : Upload) (len : Length) (bank : Nat) (s : State) :
    (commitBank up len bank s).contention = s.contention := by
  have := done_ramWritten s up.variant (ramBankWrites s.params (bankOperand bank) up.variant) s.readBuffer
  rw [← run_writeRam] at this
  rw [commitBank]
  split
  · exact this.same.contention
  · exact this.same.contention

theorem transmit_contention (bs : List Byte) (next : AfterSend) (s : State) :
    (transmit bs next s).contention = s.contention := by
  refine sendThen_contention (fun s => ?_) bs next s
  cases next with
  | returned => rfl
  | ended => rfl
  | nextBank kind v n left => exact streamFrom_contention kind v n left s
  | length up => rfl
  | data up len bank off => rfl
  | commit up len bank => exact commit_contention up len bank s

theorem accept_contention (x : Byte) (s : State) : (acceptByte x s).contention = s.contention := by
  unfold acceptByte
  split
  · rfl
  · unfold acceptLengthByte
    split
    · unfold lengthReceived
      split
      · exact transmit_contention _ _ _
      · exact sendThen_contention (k := endCommand) (fun _ => rfl) _ _ _
    · rfl
  · next up len bank off _ => exact transmit_contention _ _ (storeByte off x s)
  · rfl

theorem take_contention (xs : List Byte) : ∀ s : State, (takeBytes xs s).contention = s.contention := by
  induction xs with
  | nil => intro s; rfl
  | cons x xs ih =>
    intro s
    cases h : s.control.takes with
    | true => rw [takeBytes_cons h, ih, accept_contention]
    | false => rw [takeBytes_stop h]

/-! ### Data bytes of one bank, where the host drains -/

/-- The state after data bytes xs of a bank, from offset off on, when the bank is not yet whole (R247). -/
def State.got (s : State) (up : Upload) (len : Length) (bank off : Nat) (xs : List Byte) : State :=
  { s with
    tx := s.tx ++ xs
    bankBuffer := Memory.writeBytes s.bankBuffer off xs
    control := .awaitData up len bank (off + xs.length) }

/-- One data byte that does not complete its bank. -/
theorem acceptDataByte_part {s : State} (hd : s.Drains) (up : Upload) (len : Length) (bank off : Nat) (x : Byte)
    (h : off + 1 < 8192) : acceptDataByte up len bank off x s = s.got up len bank off [x] := by
  rw [acceptDataByte, transmit_drains (s := storeByte off x s) hd, afterEcho, if_pos (show off + 1 < ramBankSize from h)]
  rfl

theorem take_part (up : Upload) (len : Length) (bank : Nat) (rest : List Byte) : ∀ (xs : List Byte) (off : Nat) (s : State),
    s.Drains → s.control = .awaitData up len bank off → off + xs.length < 8192 →
    takeBytes (xs ++ rest) s = takeBytes rest (s.got up len bank off xs) := by
  intro xs
  induction xs with
  | nil =>
    intro off s _ h _
    have : s.got up len bank off [] = s := by
      simp only [State.got, List.append_nil, Memory.writeBytes, List.length_nil, Nat.add_zero, ← h]
    rw [this]; rfl
  | cons x xs ih =>
    intro off s hd h hl
    simp only [List.length_cons] at hl
    rw [List.cons_append, takeBytes_cons (by rw [h]; rfl), acceptByte, h]
    dsimp only
    rw [acceptDataByte_part hd up len bank off x (by omega),
      ih (off + 1) (s.got up len bank off [x]) hd rfl (by omega)]
    congr 1
    simp only [State.got, Memory.writeBytes, List.append_assoc, List.cons_append, List.nil_append, List.length_cons]
    congr 2
    omega

/-- A whole bank taken: its bytes are stored and echoed, then the bank is committed. -/
theorem take_bank (up : Upload) (len : Length) (bank : Nat) (rest xs : List Byte) (s : State) (hd : s.Drains)
    (h : s.control = .awaitData up len bank 0) (hl : xs.length = 8192) :
    takeBytes (xs ++ rest) s = takeBytes rest (commitBank up len bank
      { s with
        tx := s.tx ++ xs, bankBuffer := Memory.writeBytes s.bankBuffer 0 xs, control := .awaitData up len bank 8191 }) := by
  obtain ⟨ys, y, rfl⟩ : ∃ ys y, xs = ys ++ [y] :=
    ⟨_, _, (List.dropLast_append_getLast (by intro e; simp [e] at hl)).symm⟩
  simp only [List.length_append, List.length_cons, List.length_nil] at hl
  have hy : ys.length = 8191 := by omega
  have hk : (s.got up len bank 0 ys).control = .awaitData up len bank 8191 := by rw [State.got, hy]
  rw [List.append_assoc, take_part up len bank _ ys 0 s hd h (by omega), List.singleton_append,
    takeBytes_cons (by rw [hk]; rfl), acceptByte, hk]
  dsimp only
  rw [acceptDataByte, transmit_drains (s := storeByte 8191 y (s.got up len bank 0 ys)) hd, afterEcho,
    if_neg (by decide), proceed]
  congr 2
  rw [Memory.writeBytes_append, hy]
  simp only [State.got, storeByte, Memory.writeBytes, List.append_assoc, hy, Nat.zero_add]

end Sys2Proof.Machine
end

