-- ==== Sys2Proof/Laws/Sent.lean ====
section
/-! SUPPORT. Operations held in `TxByte` (20_memory.md R84, 60_exceptions.md R297): what the transport's room decides is only
where an operation stops, so an operation given more room goes on to where it would have gone with that room at once. And what
the host's draining does. -/

namespace Sys2Proof.Machine

/-! ### What the host drains -/

section drains
variable (n : Nat) (s : State)

/-- TX is what was sent: draining takes nothing off it (10_state.md R46). -/
@[simp] theorem hostDrains_tx : (s.hostDrains n).tx = s.tx := rfl
@[simp] theorem hostDrains_txDrained : (s.hostDrains n).txDrained = s.txDrained + min n s.undrained.length := rfl
@[simp] theorem hostDrains_txSpace : (s.hostDrains n).txSpace = addRoom s.txSpace (some (min n s.undrained.length)) := rfl
@[simp] theorem hostDrains_control : (s.hostDrains n).control = s.control := rfl
@[simp] theorem hostDrains_contention : (s.hostDrains n).contention = s.contention := rfl
@[simp] theorem undrained_length : s.undrained.length = s.tx.length - s.txDrained := by simp [State.undrained]

/-- The host drains in the order the block sent. -/
theorem hostDrains_undrained : (s.hostDrains n).undrained = s.undrained.drop n := by
  apply List.ext_getElem?
  intro i
  simp only [State.undrained, List.getElem?_drop, hostDrains_tx, hostDrains_txDrained, List.length_drop]
  by_cases h : n ≤ s.tx.length - s.txDrained
  · rw [Nat.min_eq_left h, Nat.add_assoc]
  · rw [List.getElem?_eq_none (by omega), List.getElem?_eq_none (by omega)]

end drains

/-- s at another position. -/
def State.withControl (s : State) (c : Control) : State := { s with control := c }

theorem run_control (ms : List Micro) (c : Control) (s : State) : run ms (s.withControl c) = (run ms s).withControl c := by
  have e := run_aside s.rx c s.txSpace ms s
  have u := run_untouched ms s
  have q : (run ms s).aside s.rx c s.txSpace = (run ms s).withControl c := by
    rw [State.aside, State.withControl, ← u.rx, ← u.txSpace]
  rw [← q, ← e]
  rfl

theorem run_grants (ms : List Micro) (room : Option Nat) (s : State) :
    run ms (s.hostGrants room) = (run ms s).hostGrants room := by
  have e := run_aside s.rx s.control (addRoom s.txSpace room) ms s
  have u := run_untouched ms s
  have q : (run ms s).aside s.rx s.control (addRoom s.txSpace room) = (run ms s).hostGrants room := by
    rw [State.aside, State.hostGrants, ← u.rx, ← u.control, ← u.txSpace]
  rw [← q, ← e]
  rfl

/-! ### The position a send starts from does not matter -/

theorem sendThen_control {k : State → State} (hk : ∀ (u : State) (c : Control), k (u.withControl c) = k u) (bs : List Byte)
    (next : AfterSend) (c : Control) (s : State) : sendThen bs next k (s.withControl c) = sendThen bs next k s := by
  have e : (s.withControl c).roomFor bs.length = s.roomFor bs.length := rfl
  rw [sendThen, sendThen, e]
  split
  · exact hk (txBytes bs s) c
  · rfl

theorem streamFrom_control (kind : ReadKind) (v : Variant) (n left : Nat) : ∀ (s : State) (c : Control),
    streamFrom kind v n left (s.withControl c) = streamFrom kind v n left s := by
  induction left with
  | zero => intro s c; rfl
  | succ left ih =>
    intro s c
    have e : run (kind.seq (s.withControl c).params v (bankOperand (n - (left + 1)))) (s.withControl c) =
        (run (kind.seq s.params v (bankOperand (n - (left + 1)))) s).withControl c := run_control _ c s
    rw [streamFrom, e]
    exact sendThen_control ih _ _ _ _

theorem proceed_control (next : AfterSend) (s : State) (c : Control) : proceed next (s.withControl c) = proceed next s := by
  cases next with
  | returned => rfl
  | ended => rfl
  | nextBank kind v n left => exact streamFrom_control kind v n left s c
  | length up => rfl
  | data up len bank off => rfl
  | commit up len bank =>
    have e : run (writeRamSeq (s.withControl c).params up.variant (bankOperand bank) (s.withControl c).readBuffer)
        (s.withControl c) = (run (writeRamSeq s.params up.variant (bankOperand bank) s.readBuffer) s).withControl c :=
      run_control _ c s
    rw [proceed, proceed, commitBank, commitBank, e]
    split <;> rfl

/-! ### More room -/

/-- Where an operation goes from t when the transport makes more room: on, if it was held in `TxByte`. -/
def goOn (room : Option Nat) (t : State) : State :=
  match t.control with
  | .idle => t.hostGrants room
  | .awaitLength _ _ => t.hostGrants room
  | .awaitData _ _ _ _ => t.hostGrants room
  | .sending rest next => transmit rest next (t.hostGrants room)

theorem goOn_sending {t : State} {rest : List Byte} {next : AfterSend} (h : t.control = .sending rest next) (room : Option Nat) :
    goOn room t = transmit rest next (t.hostGrants room) := by rw [goOn, h]

theorem goOn_still {t : State} (h : ∀ rest next, t.control ≠ .sending rest next) (room : Option Nat) :
    goOn room t = t.hostGrants room := by
  unfold goOn
  split
  · rfl
  · rfl
  · rfl
  · next e => exact absurd e (h _ _)

/-- Bytes that fit still fit with more room, and the room left over is the same. -/
theorem fits_grants {s : State} {n : Nat} (h : s.roomFor n = true) (room : Option Nat) :
    (s.hostGrants room).roomFor n = true ∧ (addRoom s.txSpace room).map (· - n) = addRoom (s.txSpace.map (· - n)) room := by
  unfold State.roomFor at h
  split at h
  · next e => cases room <;> simp [State.roomFor, State.hostGrants, e, addRoom]
  · next k e =>
    have l : n ≤ k := by simpa using h
    cases room with
    | none => simp [State.roomFor, State.hostGrants, e, addRoom]
    | some b =>
      have : k + b - n = k - n + b := by omega
      simp only [State.roomFor, State.hostGrants, e, addRoom, Option.map_some, this, and_true, decide_eq_true_eq]
      omega

/-- A send given more room goes where it would have gone with that room at once, if what follows it does. -/
theorem transmit_grants_of {next : AfterSend} {room : Option Nat}
    (hk : ∀ u : State, proceed next (u.hostGrants room) = goOn room (proceed next u)) (bs : List Byte) (s : State) :
    transmit bs next (s.hostGrants room) = goOn room (transmit bs next s) := by
  rcases sendThen_cases bs next (proceed next) s with ⟨h, e⟩ | ⟨k, e, l, e'⟩
  · obtain ⟨h1, h2⟩ := fits_grants h room
    have q : txBytes bs (s.hostGrants room) = (txBytes bs s).hostGrants room := by
      simp only [txBytes, State.hostGrants, h2]
    rw [transmit, transmit, sendThen_fits _ _ _ _ h1, e, q]
    exact hk _
  · have p : transmit bs next s = _ := e'
    rw [p, goOn_sending rfl]
    cases room with
    | none =>
      rw [transmit_drains (s := s.hostGrants none) (by simp [State.Drains, State.hostGrants, e, addRoom]),
        transmit_drains (by simp [State.Drains, State.hostGrants, addRoom])]
      refine Eq.trans ?_ (proceed_control next _ s.control)
      congr 1
      simp only [State.hostGrants, State.withControl, e, addRoom, List.append_assoc, List.take_append_drop]
    | some b =>
      have e1 : (s.hostGrants (some b)).txSpace = some (k + b) := by simp [State.hostGrants, e, addRoom]
      by_cases f : bs.length ≤ k + b
      · have e2 : k + b - bs.length = 0 + b - (bs.drop k).length := by simp; omega
        rw [transmit, transmit, sendThen_fits _ _ _ _ (by simp [State.roomFor, e1, f]),
          sendThen_fits _ _ _ _ (by simp [State.roomFor, State.hostGrants, addRoom]; omega)]
        refine Eq.trans ?_ (proceed_control next _ s.control)
        congr 1
        simp only [State.hostGrants, State.withControl, txBytes, e, addRoom, List.append_assoc, List.take_append_drop,
          Option.map_some, e2]
      · rw [transmit, transmit, sendThen_short (room := k + b) _ _ _ _ e1 (by omega),
          sendThen_short (room := 0 + b) _ _ _ _ (by simp [State.hostGrants, addRoom]) (by simp; omega)]
        simp only [State.hostGrants, List.append_assoc, List.drop_drop, Nat.zero_add]
        rw [← List.take_add]

theorem streamFrom_grants (kind : ReadKind) (v : Variant) (n : Nat) (room : Option Nat) (left : Nat) : ∀ s : State,
    streamFrom kind v n left (s.hostGrants room) = goOn room (streamFrom kind v n left s) := by
  induction left with
  | zero => intro s; rfl
  | succ left ih =>
    intro s
    have e : run (kind.seq (s.hostGrants room).params v (bankOperand (n - (left + 1)))) (s.hostGrants room) =
        (run (kind.seq s.params v (bankOperand (n - (left + 1)))) s).hostGrants room := run_grants _ room s
    rw [streamFrom, e]
    exact transmit_grants_of (next := .nextBank kind v n left) ih _ _

/-- Every send given more room goes where it would have gone with that room at once. -/
theorem transmit_grants (bs : List Byte) (next : AfterSend) (room : Option Nat) (s : State) :
    transmit bs next (s.hostGrants room) = goOn room (transmit bs next s) := by
  refine transmit_grants_of (fun u => ?_) bs s
  cases next with
  | returned => rfl
  | ended => rfl
  | nextBank kind v n left => exact streamFrom_grants kind v n room left u
  | length up => rfl
  | data up len bank off => rfl
  | commit up len bank =>
    have e : run (writeRamSeq (u.hostGrants room).params up.variant (bankOperand bank) (u.hostGrants room).readBuffer)
        (u.hostGrants room) =
        (run (writeRamSeq u.params up.variant (bankOperand bank) u.readBuffer) u).hostGrants room := run_grants _ room u
    rw [proceed, proceed, commitBank, commitBank, e]
    split <;> rfl

/-- So does a received byte. -/
theorem accept_grants (x : Byte) (room : Option Nat) (s : State) (h : s.control.takes = true) :
    acceptByte x (s.hostGrants room) = goOn room (acceptByte x s) := by
  have e : (s.hostGrants room).control = s.control := rfl
  unfold acceptByte
  rw [e]
  split
  · next i => rw [i] at h; cases h
  · unfold acceptLengthByte
    split
    · unfold lengthReceived
      split
      · exact transmit_grants _ _ room s
      · exact transmit_grants [statusCode .invalidRamWriteSize] .ended room s
    · rfl
  · next up len bank off _ => exact transmit_grants _ _ room (storeByte off x s)
  · next i => rw [i] at h; cases h

/-- A command that takes bytes and, if it is then held in `TxByte`, is given more room, goes where it would have gone with
that room at once. -/
theorem take_grants (xs : List Byte) (room : Option Nat) : ∀ s : State, s.control.takes = true →
    takeBytes xs (s.hostGrants room) = resumeCommand (goOn room (takeBytes xs s)) := by
  induction xs with
  | nil =>
    intro s h
    have t : (s.withRx []).control.takes = true := h
    have e : goOn room (s.withRx []) = (s.withRx []).hostGrants room :=
      goOn_still (fun _ _ q => by rw [q] at t; cases t) room
    change _ = resumeCommand (goOn room (s.withRx []))
    rw [e]
    rfl
  | cons x xs ih =>
    intro s h
    rw [takeBytes_cons (s := s.hostGrants room) h, takeBytes_cons h, accept_grants x room s h]
    generalize acceptByte x s = w
    cases q : w.control with
    | idle =>
      rw [takeBytes_stop (s := w) (by rw [q]; rfl), goOn_still (by rw [q]; exact fun _ _ => Control.noConfusion)]
      rw [goOn_still (t := { w with rx := xs }) (by intro _ _ z; have z' : w.control = _ := z; rw [q] at z'; cases z')]
      rw [resumeCommand_stop (by change w.control.takes = false; rw [q]; rfl),
        takeBytes_stop (s := w.hostGrants room) (by change w.control.takes = false; rw [q]; rfl)]
      rfl
    | awaitLength up got =>
      rw [goOn_still (by rw [q]; exact fun _ _ => Control.noConfusion)]
      exact ih w (by rw [q]; rfl)
    | awaitData up len bank off =>
      rw [goOn_still (by rw [q]; exact fun _ _ => Control.noConfusion)]
      exact ih w (by rw [q]; rfl)
    | sending rest next =>
      rw [takeBytes_stop (s := w) (by rw [q]; rfl), goOn_sending q, goOn_sending (t := { w with rx := xs }) q]
      have e : transmit rest next (({ w with rx := xs } : State).hostGrants room) =
          (transmit rest next (w.hostGrants room)).withRx xs := transmit_rx xs rest next (w.hostGrants room)
      rw [e]
      exact (take_rx xs xs _).symm

end Sys2Proof.Machine
end

