-- ==== Sys2Proof/Laws/Stores.lean ====
section
/-! SUPPORT. Where sequences store in BankBuffer, and that events and sent bytes only accumulate: the parts of the invariant
and of the frames that hold of every sequence. -/

namespace Sys2Proof.Machine

/-! ### BankBuffer stays within its capacity -/

/-- The micro-step stores below index n, if it stores. -/
def Micro.below (n : Nat) : Micro → Bool
  | .drive _ _ => true
  | .safe => true
  | .clearV => true
  | .sample _ => true
  | .store k => decide (k < n)

theorem micro_within (n : Nat) (m : Micro) (s : State) (hm : m.below n = true)
    (h : Memory.within n s.bankBuffer = true) : Memory.within n (micro m s).bankBuffer = true := by
  cases m with
  | drive f l =>
    change Memory.within n (drive f l s).bankBuffer = true
    have e : (settle (gpioWrite (s.bss.set f l) s)).bankBuffer = s.bankBuffer := gpioWrite_bankBuffer _ _
    rw [drive]
    split
    · exact (congrArg (Memory.within n) e).trans h
    · exact (congrArg (Memory.within n) e).trans h
  | safe => exact (congrArg (Memory.within n) (gpioWrite_bankBuffer _ _)).trans h
  | clearV => exact h
  | sample i =>
    change Memory.within n (sampleBit i s).bankBuffer = true
    unfold sampleBit
    split <;> exact h
  | store k =>
    change Memory.within n (storeV k s).bankBuffer = true
    unfold storeV
    split
    · exact Memory.write_within n _ _ _ (by simpa [Micro.below] using hm) h
    · exact h

/-- A sequence that stores below n keeps BankBuffer below n. -/
theorem run_within (n : Nat) (ms : List Micro) : ∀ s : State, ms.all (Micro.below n) = true →
    Memory.within n s.bankBuffer = true → Memory.within n (run ms s).bankBuffer = true := by
  induction ms with
  | nil => exact fun _ _ h => h
  | cons m ms ih =>
    intro s hm h
    simp only [List.all_cons, Bool.and_eq_true] at hm
    exact ih _ hm.2 (micro_within n m s hm.1 h)

theorem shiftBits_below (n : Nat) (ser clk : OutField) (bit : Nat → Bool) (k : Nat) :
    (shiftBits ser clk bit k).all (Micro.below n) = true := by
  induction k with
  | zero => rfl
  | succ k ih => simp [shiftBits, Micro.below, ih]

theorem sampleBits_below (n k : Nat) : (sampleBits k).all (Micro.below n) = true := by
  induction k with
  | zero => rfl
  | succ k ih => simp [sampleBits, Micro.below, ih]

theorem shiftOutAddressSeq_below (n : Nat) (a : Addr) : (shiftOutAddressSeq a).all (Micro.below n) = true := by
  simp [shiftOutAddressSeq, shiftBits_below, Micro.below]

theorem shiftOutDataSeq_below (n : Nat) (p : Params) (b : Byte) : (shiftOutDataSeq p b).all (Micro.below n) = true := by
  simp [shiftOutDataSeq, shiftBits_below, Micro.below, assertLine, deassertLine]

theorem shiftInDataSeq_below (n : Nat) (p : Params) : (shiftInDataSeq p).all (Micro.below n) = true := by
  simp [shiftInDataSeq, sampleBits_below, Micro.below, assertLine, deassertLine]

theorem registerWriteSeq_below (n : Nat) (p : Params) (a : Addr) (d : Byte) :
    (registerWriteSeq p a d).all (Micro.below n) = true := by
  simp [registerWriteSeq, shiftOutAddressSeq_below, shiftOutDataSeq_below]

theorem registerWritesSeq_below (n : Nat) (p : Params) (ws : List (Addr × Byte)) :
    (registerWritesSeq p ws).all (Micro.below n) = true := by
  induction ws with
  | nil => rfl
  | cons w ws ih => simp [registerWritesSeq, registerWriteSeq_below, ih]

theorem resetCartridgeSeq_below (n : Nat) (p : Params) (v : Variant) :
    (resetCartridgeSeq p v).all (Micro.below n) = true := by
  simp [resetCartridgeSeq, registerWritesSeq_below, Micro.below]

theorem readCellSeq_below (n : Nat) (p : Params) (a : Addr) : (readCellSeq p a).all (Micro.below n) = true := by
  simp [readCellSeq, shiftOutAddressSeq_below, shiftInDataSeq_below, Micro.below, assertLine, deassertLine]

theorem readWindowSeq_below {n m : Nat} (h : m ≤ n) (p : Params) (base : Addr) :
    (readWindowSeq p base m).all (Micro.below n) = true := by
  induction m with
  | zero => rfl
  | succ m ih =>
    simp only [readWindowSeq, List.all_append, ih (by omega), readCellSeq_below, Bool.true_and, List.all_cons,
      List.all_nil, Bool.and_true, Micro.below, decide_eq_true_eq]
    omega

theorem writeWindowSeq_below (n m : Nat) (p : Params) (base : Addr) (data : Nat → Byte) :
    (writeWindowSeq p base data m).all (Micro.below n) = true := by
  induction m with
  | zero => rfl
  | succ m ih => simp only [writeWindowSeq, List.all_append, ih, writeCellSeq, registerWriteSeq_below, Bool.and_self]

theorem readRomShape_below (p : Params) (v : Variant) (ws : List (Addr × Byte)) (base : Addr) :
    (readRomShape p v ws base).all (Micro.below romBankSize) = true := by
  simp only [readRomShape, List.all_append, resetCartridgeSeq_below, registerWritesSeq_below,
    readWindowSeq_below (Nat.le_refl _), Bool.true_and]
  rfl

theorem all_ramShape {f : Micro → Bool} {a b w : List Micro} {x y z : Micro} (ha : a.all f = true) (hb : b.all f = true)
    (hx : f x = true) (hw : w.all f = true) (hy : f y = true) (hz : f z = true) :
    (a ++ b ++ (x :: (w ++ [y, z]))).all f = true := by
  simp only [List.all_append, List.all_cons, List.all_nil, ha, hb, hx, hw, hy, hz, Bool.and_self]

theorem readRamShape_below (p : Params) (v : Variant) (ws : List (Addr × Byte)) :
    (readRamShape p v ws).all (Micro.below romBankSize) = true :=
  all_ramShape (resetCartridgeSeq_below _ _ _) (registerWritesSeq_below _ _ _) rfl
    (readWindowSeq_below (show ramBankSize ≤ romBankSize by decide) _ _) rfl rfl

theorem writeRamShape_below (p : Params) (v : Variant) (ws : List (Addr × Byte)) (data : Nat → Byte) :
    (writeRamShape p v ws data).all (Micro.below romBankSize) = true :=
  all_ramShape (resetCartridgeSeq_below _ _ _) (registerWritesSeq_below _ _ _) rfl (writeWindowSeq_below _ _ _ _ _) rfl rfl

theorem readHeaderSeq_below (p : Params) : (mbc1ReadHeaderSeq p).all (Micro.below romBankSize) = true := by
  simp only [mbc1ReadHeaderSeq, List.all_append, resetCartridgeSeq_below,
    readWindowSeq_below (show headerLen ≤ romBankSize by decide), Bool.true_and]
  rfl

theorem rtcCellsSeq_below {n m : Nat} (h : m ≤ n) (p : Params) : (rtcCellsSeq p m).all (Micro.below n) = true := by
  induction m with
  | zero => rfl
  | succ m ih =>
    simp only [rtcCellsSeq, List.all_append, ih (by omega), registerWriteSeq_below, readCellSeq_below, List.all_cons,
      List.all_nil, assertLine, deassertLine, Micro.below, Bool.true_and, Bool.and_true, decide_eq_true_eq]
    omega

theorem readRtcSeq_below (p : Params) : (mbc3ReadRtcSeq p).all (Micro.below romBankSize) = true := by
  simp only [mbc3ReadRtcSeq, List.all_append, resetCartridgeSeq_below, registerWritesSeq_below,
    rtcCellsSeq_below (show 5 ≤ romBankSize by decide), Bool.true_and]
  rfl

theorem readRomSeq_below (p : Params) (v : Variant) (bank : BankOperand) :
    (readRomSeq p v bank).all (Micro.below romBankSize) = true := by cases v <;> exact readRomShape_below _ _ _ _

theorem readRamSeq_below (p : Params) (v : Variant) (bank : BankOperand) :
    (readRamSeq p v bank).all (Micro.below romBankSize) = true := by cases v <;> exact readRamShape_below _ _ _

theorem writeRamSeq_below (p : Params) (v : Variant) (bank : BankOperand) (data : Nat → Byte) :
    (writeRamSeq p v bank data).all (Micro.below romBankSize) = true := by cases v <;> exact writeRamShape_below _ _ _ _

/-! ### Events only accumulate -/

theorem gpioWrite_busWrites (b : Bss) (s : State) : (gpioWrite b s).busWrites = s.busWrites := by
  unfold gpioWrite clockInput
  split
  · rfl
  · split <;> rfl

theorem micro_busWrites (m : Micro) (s : State) : s.busWrites <+: (micro m s).busWrites := by
  cases m with
  | drive f l =>
    change s.busWrites <+: (drive f l s).busWrites
    have e : (settle (gpioWrite (s.bss.set f l) s)).busWrites = s.busWrites := gpioWrite_busWrites _ _
    rw [drive]
    split
    · exact ⟨[_], congrArg (· ++ _) e.symm⟩
    · exact e.symm ▸ List.prefix_refl _
  | safe => exact (gpioWrite_busWrites (safeBss s.params.levels) s).symm ▸ List.prefix_refl _
  | clearV => exact List.prefix_refl _
  | sample i =>
    change s.busWrites <+: (sampleBit i s).busWrites
    unfold sampleBit
    split <;> exact List.prefix_refl _
  | store k =>
    change s.busWrites <+: (storeV k s).busWrites
    unfold storeV
    split <;> exact List.prefix_refl _

/-- No sequence takes back an event it delivered. -/
theorem run_busWrites (ms : List Micro) : ∀ s : State, s.busWrites <+: (run ms s).busWrites := by
  induction ms with
  | nil => exact fun _ => List.prefix_refl _
  | cons m ms ih => intro s; exact (micro_busWrites m s).trans (ih _)

end Sys2Proof.Machine
end

