-- ==== Sys2Proof/Tests/Slice0.lean ====
section
/-! SUPPORT. Tests. Expected values come from spec/95_test_vectors.md (V and P numbers), from the encoding tables of
30_encoding.md and spec/opcode_table.json, or from the rule named; then one witness for every obligation with hypotheses. -/

namespace Sys2Proof.Tests
open Sys2Proof.Machine

-- The kernel evaluates these one after another: side by side they need more threads than the memory limit has room for.
set_option Elab.async false

/-! ### Well-formedness: what the checks refuse -/

theorem test_wf_unknown_rows : (Instr.unknown0607 0x05).wf = false ∧ (Instr.unknown0607 0x08).wf = false ∧
    (Instr.unknown080F 0x07).wf = false ∧ (Instr.unknown080F 0x10).wf = false ∧ (Instr.unknown101F 0x0F).wf = false ∧
    (Instr.unknown101F 0x20).wf = false ∧ (Instr.unknown203F 0x1F).wf = false ∧ (Instr.unknown203F 0x40).wf = false ∧
    (Instr.unknown407F 0x3F).wf = false ∧ (Instr.unknown407F 0x80).wf = false ∧ (Instr.unknown80FF 0x7F).wf = false := by
  decide +kernel

theorem test_wf_params : defaultParams.wf = true ∧ { defaultParams with m1Mode := 0x4000 }.wf = false ∧
    { defaultParams with m3Latch := 0x0000 }.wf = false ∧ { defaultParams with m5Romb1 := 0x2000 }.wf = false := by decide +kernel

/-- The six selectors are six, and below 0x06. -/
theorem test_wf_command_ids : defaultCommandIds.wf = true ∧ { defaultCommandIds with readRam := 0x01 }.wf = false ∧
    { defaultCommandIds with writeRtc := 0x06 }.wf = false ∧
    ({ defaultParams with cmdId := { defaultCommandIds with readRam := 0x01 } } : Params).wf = false := by decide +kernel

theorem test_wf_positions : defaultPositions.wf = true ∧ { defaultPositions with dinSer := 6 }.wf = false := by decide +kernel

theorem test_memory_wf : Memory.wf [(1, 0), (1, 0)] = false ∧ Memory.wf [(2, 0), (1, 0)] = false ∧
    Memory.within 4 [(4, 0)] = false := by decide +kernel

/-! ### Decoding: words written out from the tables, one for each constructor -/

theorem test_decode_commands : decode defaultParams ⟨.cmd, 0x00#32⟩ = .instr .parseHeader ∧
    decode defaultParams ⟨.cmd, 0x01#32⟩ = .instr .readRom ∧
    decode defaultParams ⟨.cmd, 0x02#32⟩ = .instr .readRam ∧
    decode defaultParams ⟨.cmd, 0x03#32⟩ = .instr .writeRam ∧
    decode defaultParams ⟨.cmd, 0x04#32⟩ = .instr .readRtc ∧
    decode defaultParams ⟨.cmd, 0x05#32⟩ = .instr .writeRtc ∧
    decode defaultParams ⟨.cmd, 0x06#32⟩ = .instr (.unknown0607 0x06) ∧
    decode defaultParams ⟨.cmd, 0x0F#32⟩ = .instr (.unknown080F 0x0F) ∧
    decode defaultParams ⟨.cmd, 0x10#32⟩ = .instr (.unknown101F 0x10) ∧
    decode defaultParams ⟨.cmd, 0x2A#32⟩ = .instr (.unknown203F 0x2A) ∧
    decode defaultParams ⟨.cmd, 0x7F#32⟩ = .instr (.unknown407F 0x7F) ∧
    decode defaultParams ⟨.cmd, 0xFF#32⟩ = .instr (.unknown80FF 0xFF) := by decide +kernel

/-- Another `CMD_ID` (00_scope.md R6): 0x00 and 0x05 change places, the rows of the unknown selectors stay. -/
def otherIds : Params := { defaultParams with cmdId := { defaultCommandIds with parseHeader := 0x05, writeRtc := 0x00 } }

theorem test_decode_other_ids : otherIds.wf = true ∧ decode otherIds ⟨.cmd, 0x05#32⟩ = .instr .parseHeader ∧
    decode otherIds ⟨.cmd, 0x00#32⟩ = .instr .writeRtc ∧ decode otherIds ⟨.cmd, 0x06#32⟩ = .instr (.unknown0607 0x06) ∧
    encode otherIds .writeRtc = ⟨.cmd, 0x00#32⟩ := by decide +kernel

theorem test_decode_bus : decode defaultParams ⟨.int, 0x00000010#32⟩ = .instr .reset ∧
    decode defaultParams ⟨.int, 0x00A00011#32⟩ = .instr (.shiftOutAddress 0xA000) ∧
    decode defaultParams ⟨.int, 0x0000A512#32⟩ = .instr (.shiftOutData 0xA5) ∧
    decode defaultParams ⟨.int, 0x00000013#32⟩ = .instr .shiftInData ∧
    decode defaultParams ⟨.int, 0x05200020#32⟩ = .instr (.registerWrite 0x2000 0x05) ∧
    decode defaultParams ⟨.int, 0x00000221#32⟩ = .instr (.resetCartridge .mbc5) ∧
    decode defaultParams ⟨.int, 0x00014722#32⟩ = .instr (.readCell 0x0147) ∧
    decode defaultParams ⟨.int, 0x7FA00023#32⟩ = .instr (.writeCell 0xA000 0x7F) := by decide +kernel

theorem test_decode_variants : decode defaultParams ⟨.int, 0x00002030#32⟩ = .instr (.mbc1ReadRom 0x20) ∧
    decode defaultParams ⟨.int, 0x00000031#32⟩ = .instr .mbc1ReadHeader ∧
    decode defaultParams ⟨.int, 0x00000232#32⟩ = .instr (.mbc1ReadRam 2) ∧
    decode defaultParams ⟨.int, 0x00000333#32⟩ = .instr (.mbc1WriteRam 3) ∧
    decode defaultParams ⟨.int, 0x00010040#32⟩ = .instr (.mbc3ReadRom 0x100) ∧
    decode defaultParams ⟨.int, 0x00000341#32⟩ = .instr (.mbc3ReadRam 3) ∧
    decode defaultParams ⟨.int, 0x00000342#32⟩ = .instr (.mbc3WriteRam 3) ∧
    decode defaultParams ⟨.int, 0x00000043#32⟩ = .instr .mbc3ReadRtc ∧
    decode defaultParams ⟨.int, 0x00000044#32⟩ = .instr .mbc3WriteRtc ∧
    decode defaultParams ⟨.int, 0x0001FF50#32⟩ = .instr (.mbc5ReadRom 0x1FF) ∧
    decode defaultParams ⟨.int, 0x00000851#32⟩ = .instr (.mbc5ReadRam 8) ∧
    decode defaultParams ⟨.int, 0x00000052#32⟩ = .instr (.mbc5WriteRam 0) ∧
    decode defaultParams ⟨.int, 0x00000060#32⟩ = .instr .parse := by decide +kernel

theorem test_decode_status : decode defaultParams ⟨.status, 0#32⟩ = .instr .statusOk ∧
    decode defaultParams ⟨.status, 1#32⟩ = .instr .statusUnknownCommand ∧
    decode defaultParams ⟨.status, 10#32⟩ = .instr .statusInvalidNumRomBanks ∧
    decode defaultParams ⟨.status, 11#32⟩ = .instr .statusInvalidNumRamBanks ∧
    decode defaultParams ⟨.status, 12#32⟩ = .instr .statusInvalidCartridgeType ∧
    decode defaultParams ⟨.status, 21#32⟩ = .instr .statusInvalidRamWriteSize ∧
    decode defaultParams ⟨.status, 22#32⟩ = .instr .statusCartridgeHasNoRam ∧
    decode defaultParams ⟨.status, 23#32⟩ = .instr .statusCartridgeHasNoRtc ∧
    decode defaultParams ⟨.status, 24#32⟩ = .instr .statusInvalidRtcWriteSize := by decide +kernel

/-- The bit patterns of the REGW rows of spec/opcode_table.json, in hexadecimal. -/
theorem test_decode_registers : decode defaultParams ⟨.regw .mbc1, 0x0000000A#32⟩ = .instr (.regwM1Ramg 0xA) ∧
    decode defaultParams ⟨.regw .mbc1, 0x0020001F#32⟩ = .instr (.regwM1Bank1 0x1F) ∧
    decode defaultParams ⟨.regw .mbc1, 0x00400002#32⟩ = .instr (.regwM1Bank2 2) ∧
    decode defaultParams ⟨.regw .mbc1, 0x00600001#32⟩ = .instr (.regwM1Mode 1) ∧
    decode defaultParams ⟨.regw .mbc3, 0x0000000A#32⟩ = .instr (.regwM3Ramg 0xA) ∧
    decode defaultParams ⟨.regw .mbc3, 0x00200020#32⟩ = .instr (.regwM3Romb 0x20) ∧
    decode defaultParams ⟨.regw .mbc3, 0x0040000C#32⟩ = .instr (.regwM3Ramb 0x0C) ∧
    decode defaultParams ⟨.regw .mbc3, 0x00600001#32⟩ = .instr (.regwM3Latch 1) ∧
    decode defaultParams ⟨.regw .mbc5, 0x0000000A#32⟩ = .instr (.regwM5Ramg 0xA) ∧
    decode defaultParams ⟨.regw .mbc5, 0x002000A5#32⟩ = .instr (.regwM5Romb0 0xA5) ∧
    decode defaultParams ⟨.regw .mbc5, 0x00300001#32⟩ = .instr (.regwM5Romb1 1) ∧
    decode defaultParams ⟨.regw .mbc5, 0x00400008#32⟩ = .instr (.regwM5Ramb 8) := by decide +kernel

/-- Reserved words are refused by name (R107, R117; 30_encoding.md R40). -/
theorem test_decode_rejects : decode defaultParams ⟨.status, 2#32⟩ = .rejected .noSuchStatus ∧
    decode defaultParams ⟨.status, 13#32⟩ = .rejected .noSuchStatus ∧
    decode defaultParams ⟨.status, 25#32⟩ = .rejected .noSuchStatus ∧
    decode defaultParams ⟨.int, 0x14#32⟩ = .rejected .noSuchLabel ∧
    decode defaultParams ⟨.int, 0x24#32⟩ = .rejected .noSuchLabel ∧
    decode defaultParams ⟨.int, 0x61#32⟩ = .rejected .noSuchLabel ∧
    decode defaultParams ⟨.int, 0x00000321#32⟩ = .rejected .noSuchVariant ∧
    decode defaultParams ⟨.regw .mbc1, 0x00300001#32⟩ = .rejected .noSuchRegister ∧
    decode defaultParams ⟨.regw .mbc1, 0x00600002#32⟩ = .rejected .strayBits := by decide +kernel

/-- Bare table words (log 15). -/
theorem test_table_words : decodeTableWord 8 0x03 = some .writeRam ∧ decodeTableWord 8 0x10 = some .reset ∧
    decodeTableWord 8 0x15 = some .statusInvalidRamWriteSize ∧ decodeTableWord 8 0x80 = some (.unknown80FF 0x80) ∧
    decodeTableWord 24 0x200005 = some (.regwM1Bank1 5) ∧ decodeTableWord 24 0x300001 = some (.regwM5Romb1 1) := by decide +kernel

theorem test_fetch_word : step (State.reset.withFetchWord 8 0x12) = exec (.shiftOutData 0) State.reset := by
  have h : decode defaultParams (tableSelection defaultParams 8 0x12) = .instr (.shiftOutData 0) := by decide +kernel
  have p : State.reset.params = defaultParams := rfl
  simp [step, stepIdle, stepWord, State.withFetchWord, p, h]
  rfl

/-- What the host presents is a selector: 0x10 is an unknown selector to it and never the label of `reset()` (R300). -/
theorem test_presented : step (State.reset.present 0x10) = exec (.unknown101F 0x10) State.reset := by
  have h : decode State.reset.params (selectorWord 0x10) = .instr (.unknown101F 0x10) := by decide +kernel
  change stepWord (selectorWord 0x10) State.reset = _
  rw [stepWord, h]

/-! ### The pins: GPIO traces -/

/-- The state after reset with known register contents (after power-up they are free values), and an address latched. -/
def latched (a : Addr) : State := { State.reset with asr := 0, alat := a, dsr := 0, dlat := 0, isr := 0 }

/-- RD asserted on entry. -/
def reading : State := { latched 0 with bss := { safeBss defaultLevels with rd := false } }

/-- CS asserted on entry. -/
def chipSelected : State := { latched 0 with bss := { safeBss defaultLevels with cs := false } }

/-- Every field of BSS at 0. -/
def allLow : Bss :=
  { addrSer := false, addrClk := false, addrLatch := false, doutSer := false, doutClk := false, doutLatch := false,
    doutOe := false, dinClk := false, dinLatch := false, dinLoad := false, cs := false, rd := false, wr := false }

/-- V10, V19: from 0x2C58, and from every strobe asserted. -/
theorem test_V10_reset :
    gpioTrace [.safe, .safe] { reading with bss := { reading.bss with doutClk := true, doutSer := true } } =
      [0x3C40, 0x3C40] ∧
    gpioTrace [.safe] { State.reset with bss := allLow } = [0x3C40] := by decide +kernel

theorem test_V11_shift_out_address : gpioTrace (shiftOutAddressSeq 0xA000) State.reset =
    [0x3C41, 0x3C41, 0x3C43, 0x3C42, 0x3C40, 0x3C42, 0x3C43, 0x3C41, 0x3C43, 0x3C42, 0x3C40,
     0x3C42, 0x3C42, 0x3C40, 0x3C42, 0x3C42, 0x3C40, 0x3C42, 0x3C42, 0x3C40, 0x3C42, 0x3C42,
     0x3C40, 0x3C42, 0x3C42, 0x3C40, 0x3C42, 0x3C42, 0x3C40, 0x3C42, 0x3C42, 0x3C40, 0x3C42,
     0x3C42, 0x3C40, 0x3C42, 0x3C42, 0x3C40, 0x3C42, 0x3C42, 0x3C40, 0x3C42, 0x3C42, 0x3C40,
     0x3C42, 0x3C42, 0x3C40, 0x3C42, 0x3C40, 0x3C44, 0x3C40] := by decide +kernel

/-- V12: the line ADDR_SER is left at bit 0. -/
theorem test_V12_corners : (run (shiftOutAddressSeq 0xFFFF) State.reset).gpio = 0x3C41 ∧
    (run (shiftOutAddressSeq 0x0000) State.reset).gpio = 0x3C40 ∧
    (run (shiftOutAddressSeq 0x0147) State.reset).gpio = 0x3C41 := by decide +kernel

theorem test_V13_shift_out_data : gpioTrace (shiftOutDataSeq defaultParams 0xA5) (latched 0x2000) =
    [0x3C48, 0x3C48, 0x3C58, 0x3C50, 0x3C40, 0x3C50, 0x3C58, 0x3C48, 0x3C58, 0x3C50, 0x3C40,
     0x3C50, 0x3C50, 0x3C40, 0x3C50, 0x3C58, 0x3C48, 0x3C58, 0x3C50, 0x3C40, 0x3C50, 0x3C58,
     0x3C48, 0x3C58, 0x3C48, 0x3C68, 0x3C48, 0x3C08, 0x1C08, 0x3C08, 0x3C48] := by decide +kernel

theorem test_V15_shift_in_data : gpioTrace (shiftInDataSeq defaultParams) reading =
    [0x2840, 0x2C40, 0x2C40, 0x2D40, 0x2C40, 0x2D40, 0x2C40, 0x2D40, 0x2C40, 0x2D40, 0x2C40,
     0x2D40, 0x2C40, 0x2D40, 0x2C40, 0x2D40, 0x2C40, 0x2D40, 0x2C40] := by decide +kernel

theorem test_V23_read_cell : gpioTrace (readCellSeq defaultParams 0x0147) State.reset =
    [0x2C40, 0x2C40, 0x2C40, 0x2C42, 0x2C42, 0x2C40, 0x2C42, 0x2C42, 0x2C40, 0x2C42, 0x2C42,
     0x2C40, 0x2C42, 0x2C42, 0x2C40, 0x2C42, 0x2C42, 0x2C40, 0x2C42, 0x2C42, 0x2C40, 0x2C42,
     0x2C43, 0x2C41, 0x2C43, 0x2C42, 0x2C40, 0x2C42, 0x2C43, 0x2C41, 0x2C43, 0x2C42, 0x2C40,
     0x2C42, 0x2C42, 0x2C40, 0x2C42, 0x2C42, 0x2C40, 0x2C42, 0x2C43, 0x2C41, 0x2C43, 0x2C43,
     0x2C41, 0x2C43, 0x2C43, 0x2C41, 0x2C43, 0x2C41, 0x2C45, 0x2C41, 0x2841, 0x2C41, 0x2C41,
     0x2D41, 0x2C41, 0x2D41, 0x2C41, 0x2D41, 0x2C41, 0x2D41, 0x2C41, 0x2D41, 0x2C41, 0x2D41,
     0x2C41, 0x2D41, 0x2C41, 0x2D41, 0x2C41, 0x3C41] := by decide +kernel

theorem test_P1_register_write : gpioTrace (registerWriteSeq defaultParams 0x2000 0x05) State.reset =
    [0x3C40, 0x3C40, 0x3C42, 0x3C42, 0x3C40, 0x3C42, 0x3C43, 0x3C41, 0x3C43, 0x3C42, 0x3C40,
     0x3C42, 0x3C42, 0x3C40, 0x3C42, 0x3C42, 0x3C40, 0x3C42, 0x3C42, 0x3C40, 0x3C42, 0x3C42,
     0x3C40, 0x3C42, 0x3C42, 0x3C40, 0x3C42, 0x3C42, 0x3C40, 0x3C42, 0x3C42, 0x3C40, 0x3C42,
     0x3C42, 0x3C40, 0x3C42, 0x3C42, 0x3C40, 0x3C42, 0x3C42, 0x3C40, 0x3C42, 0x3C42, 0x3C40,
     0x3C42, 0x3C42, 0x3C40, 0x3C42, 0x3C40, 0x3C44, 0x3C40, 0x3C40, 0x3C40, 0x3C50, 0x3C50,
     0x3C40, 0x3C50, 0x3C50, 0x3C40, 0x3C50, 0x3C50, 0x3C40, 0x3C50, 0x3C50, 0x3C40, 0x3C50,
     0x3C58, 0x3C48, 0x3C58, 0x3C50, 0x3C40, 0x3C50, 0x3C58, 0x3C48, 0x3C58, 0x3C48, 0x3C68,
     0x3C48, 0x3C08, 0x1C08, 0x3C08, 0x3C48] := by decide +kernel

/-- V24: bit 11 clear in every word. The WR word is 0x1408: DOUT_SER presents bit 0 of 0x7F, as in P1 (V24 prints 0x1400;
log 32). -/
theorem test_V24_write_cell : (gpioTrace (writeCellSeq defaultParams 0xA000 0x7F) chipSelected)[79]? = some 0x1408 ∧
    (gpioTrace (writeCellSeq defaultParams 0xA000 0x7F) chipSelected).length = 82 ∧
    (gpioTrace (writeCellSeq defaultParams 0xA000 0x7F) chipSelected).all (fun w => !w.getLsbD 11) = true := by
  decide +kernel

/-- V16: the cartridge drives 0x5A; what was assembled is 0x5A. -/
theorem test_V16_samples : (run (shiftInDataSeq reading.params) { reading with
    alat := 0x0147, cart := .rom { nr := 0, rom := [(0x0147, 0x5A)], ram := [] } }).v = some 0x5A :=
  congrArg State.v (run_shiftInData { reading with
    alat := 0x0147, cart := .rom { nr := 0, rom := [(0x0147, 0x5A)], ram := [] } } (Or.inl rfl))

/-- The result of an operation. -/
def after (r : Result) : State :=
  match r with
  | .next t => t
  | .fault _ => State.reset
  | .refused _ => State.reset

/-- The fault of an operation, if it is one. -/
def faultOf (r : Result) : Option Fault :=
  match r with
  | .next _ => none
  | .fault f => some f
  | .refused _ => none

/-- V18: RD asserted, then `shift_out_data(0x55)`; and a read with DOUT_OE left asserted. -/
theorem test_V18_contention : faultOf (exec (.shiftOutData 0x55) reading) = some .busContention ∧
    faultOf (exec (.readCell 0) { latched 0 with bss := { safeBss defaultLevels with doutOe := false } }) =
      some .busContention := by decide +kernel

/-! ### Events and register writes -/

theorem test_P1_event : (after (exec (.registerWrite 0x2000 0x05) (latched 0))).busWrites = [⟨0x2000, false, 0x05⟩] ∧
    (after (exec (.registerWrite 0x2000 0x05) (latched 0))).settles = 82 := by decide +kernel

theorem test_V13_event : (after (exec (.shiftOutData 0xA5) (latched 0x2000))).busWrites = [⟨0x2000, false, 0xA5⟩] := by decide +kernel

theorem test_V24_event : (after (exec (.writeCell 0xA000 0x7F) chipSelected)).busWrites = [⟨0xA000, true, 0x7F⟩] := by decide +kernel

theorem test_V21_reset_cartridge : (after (exec (.resetCartridge .mbc5) (latched 0))).busWrites =
    [⟨0x0000, false, 0⟩, ⟨0x2000, false, 0⟩, ⟨0x3000, false, 0⟩, ⟨0x4000, false, 0⟩] ∧
    (after (exec (.resetCartridge .mbc1) (latched 0))).alat = 0x6000 := by decide +kernel

/-- V22, V37 of the events: a row of format REGW is the register write at its address (R103). -/
theorem test_regw_rows : (after (exec (.regwM1Bank1 0x1F) (latched 0))).busWrites = [⟨0x2000, false, 0x1F⟩] ∧
    (after (exec (.regwM3Latch 1) (latched 0))).busWrites = [⟨0x6000, false, 0x01⟩] ∧
    (after (exec (.regwM5Romb1 1) (latched 0))).busWrites = [⟨0x3000, false, 0x01⟩] := by decide +kernel

/-! ### Variant operations: the selects and windows of V25 to V35 -/

theorem test_V27_mbc1_select : mbc1RomSelect defaultParams 0x20 = [(0x6000, 0x01), (0x2000, 0x00), (0x4000, 0x01)] ∧
    mbc1RomBase 0x20 = 0x0000 ∧
    mbc1RomSelect defaultParams 0x5F = [(0x6000, 0x01), (0x2000, 0x1F), (0x4000, 0x02)] ∧ mbc1RomBase 0x5F = 0x4000 := by
  decide +kernel

/-- V28: the operand is cut to 7 bits. -/
theorem test_V28_mbc1_truncated : mbc1RomSelect defaultParams 0x80 = mbc1RomSelect defaultParams 0x00 ∧
    mbc1RomBase 0x80 = 0x0000 := by decide +kernel

theorem test_V29_mbc1_ram : mbc1RamSelect defaultParams 2 = [(0x0000, 0x0A), (0x6000, 0x01), (0x4000, 0x02)] := by decide +kernel

theorem test_V31_mbc3_select : mbc3RomSelect defaultParams 0x20 = [(0x2000, 0x20)] ∧ mbc3RomBase 0x20 = 0x4000 ∧
    mbc3RomSelect defaultParams 0x100 = [(0x2000, 0x00)] ∧ mbc3RomBase 0x100 = 0x0000 := by decide +kernel

theorem test_V32_mbc3_ram : mbc3RamSelect defaultParams 3 = [(0x0000, 0x0A), (0x4000, 0x03)] := by decide +kernel

theorem test_V35_mbc5_select : mbc5RomSelect defaultParams 0x1A5 = [(0x2000, 0xA5), (0x3000, 0x01)] ∧
    mbc5RomSelect defaultParams 0x0FF = [(0x2000, 0xFF), (0x3000, 0x00)] := by decide +kernel

/-- An MBC1 cartridge of 128 banks whose bank 0x20 begins with 0x20. -/
def bigMbc1 : RefMbc1 :=
  { nb := 128, nr := 0, rom := [(0x20 * 16384, 0x20)], ram := [], ramg := 0, bank1 := 1, bank2 := 0, mode := 0 }

/-- An MBC5 cartridge with rumble, 512 banks of which bank 0x1A5 begins with 0xF5, and 16 RAM banks. -/
def bigMbc5 : RefMbc5 :=
  { nb := 512, nr := 16, rom := [(0x1A5 * 16384, 0xF5)], ram := [], ramg := 0, romb0 := 0, romb1 := 0, ramb := 0,
    rumble := true, motor := true }

/-- V27, V35: the bank asked for stands in the window. -/
theorem test_V27_bank_shown :
    (cartAfter (.mbc1 bigMbc1) (registerEvents (mbc1RomSelect defaultParams 0x20))).answer 0x0000 false = some 0x20 ∧
    (cartAfter (.mbc5 bigMbc5) (registerEvents (mbc5RomSelect defaultParams 0x1A5))).answer 0x4000 false = some 0xF5 := by
  decide +kernel

/-- The clock cartridge of V33 and P4. -/
def clockCart : RefMbc3 :=
  { nb := 64, nr := 4, rom := [(0x147, 0x10)], ram := [], ramg := 0, romb := 1, ramb := 0, latch := 0,
    rtcLive := ⟨0x3B, 0x1E, 0x0C, 0x2A, 0x01⟩, rtcLatched := ⟨0, 0, 0, 0, 0⟩ }

/-- V33: the latch sequence 0 then 1 captures the live clock; registers 0x08 to 0x0C follow. -/
theorem test_V33_rtc : (cartAfter (.mbc3 clockCart) (registerEvents (rtcSelect defaultParams ++ [(0x4000, 0x08)]))).answer
      0xA000 true = some 0x3B ∧
    (cartAfter (.mbc3 clockCart) (registerEvents (rtcSelect defaultParams ++ [(0x4000, 0x0C)]))).answer 0xA000 true =
      some 0x01 ∧
    (cartAfter (.mbc3 clockCart) (registerEvents (rtcSelect defaultParams ++ [(0x4000, 0x0D)]))).answer 0xA000 true = none := by
  decide +kernel

/-- V38: the reset turns the motor off; RAM bank 8 turns it on. -/
theorem test_V38_rumble :
    cartAfter (.mbc5 bigMbc5) (registerEvents (registerZeros defaultParams .mbc5)) = .mbc5 { bigMbc5 with motor := false } ∧
    cartAfter (.mbc5 { bigMbc5 with motor := false }) (registerEvents (mbc5RamSelect defaultParams 8)) =
      .mbc5 { bigMbc5 with ramg := 0x0A, ramb := 8, motor := true } := by decide +kernel

/-- R336: the flag is raised for a type the table marks as rumble only, by the descriptor in use. -/
theorem test_rumble_flag (d : Descriptor) : (({ State.reset with
      descriptor := some { d with cartType := 0x1C } } : State).breaches ⟨0x4000, false, 0x08⟩) = true ∧
    (({ State.reset with descriptor := some { d with cartType := 0x1B } } : State).breaches ⟨0x4000, false, 0x08⟩) = false := by
  constructor <;> rfl

/-- R336, V38: so it is where no descriptor is in use and the cartridge in the slot is of such a type, by its motor or by its
header, with CS on as with CS off; and not for the same write on another type. -/
theorem test_rumble_flag_cartridge :
    ({ State.reset with cart := .mbc5 bigMbc5 } : State).breaches ⟨0x4000, false, 0x08⟩ = true ∧
    ({ State.reset with cart := .mbc5 bigMbc5 } : State).breaches ⟨0x4000, true, 0x08⟩ = true ∧
    ({ State.reset with cart := .mbc5 { bigMbc5 with rumble := false, rom := [(0x147, 0x1E)] } } : State).breaches
      ⟨0x4000, false, 0x08⟩ = true ∧
    ({ State.reset with cart := .mbc5 { bigMbc5 with rumble := false, rom := [(0x147, 0x1B)] } } : State).breaches
      ⟨0x4000, false, 0x08⟩ = false ∧
    ({ State.reset with cart := .mbc5 bigMbc5 } : State).breaches ⟨0x4000, false, 0x07⟩ = false := by decide +kernel

/-- R96 to R98: what a cartridge powers up with, whatever its registers held. -/
theorem test_power_up : (State.reset.insertCartridge (.mbc1 { bigMbc1 with ramg := 0xA, bank2 := 3, mode := 1 })).cart =
      .mbc1 { bigMbc1 with ramg := 0, bank1 := 1, bank2 := 0, mode := 0 } ∧
    (State.reset.insertCartridge (.mbc5 { bigMbc5 with ramg := 0xA, romb0 := 7, ramb := 8 })).cart =
      .mbc5 { bigMbc5 with ramg := 0, romb0 := 1, romb1 := 0, ramb := 0, motor := false } := by decide +kernel

/-- R89: a byte the cartridge's list does not name is the same byte at every read. -/
theorem test_R89_idempotent : (Cartridge.rom { nr := 0, rom := [], ram := [] }).answer 0x0100 false = some (romByte [] 0x100) := rfl

theorem test_V34_write_rtc : exec .mbc3WriteRtc State.reset = .next State.reset := rfl

/-- V36. -/
theorem test_V36_banks : bank9Low 421 = 0xA5 ∧ bank9High 421 = 0x01 ∧ bank9Low 511 = 0xFF ∧ bank9High 256 = 0x01 ∧
    bank7Low 0x7F = 0x1F ∧ bank7High 0x7F = 0x03 := by decide +kernel

/-! ### HeaderParser -/

/-- A header with given title bytes and codes, the default logo, zeros elsewhere. -/
def header (title : List Byte) (t r m : Byte) : Nat → Byte := fun i =>
  if 0x04 ≤ i ∧ i < 0x34 then defaultLogo.getD (i - 0x04) 0
  else if 0x34 ≤ i ∧ i < 0x44 then title.getD (i - 0x34) 0
  else if i = 0x47 then t else if i = 0x48 then r else if i = 0x49 then m else 0

/-- V40. -/
theorem test_V40_title :
    let d := parseHeader defaultParams (header [0x54, 0x45, 0x53, 0x54, 0x47, 0x41, 0x4D, 0x45, 0, 0, 0, 0, 0, 0, 0, 0x80] 0 0 0)
    d.title = [0x54, 0x45, 0x53, 0x54, 0x47, 0x41, 0x4D, 0x45] ∧ d.cgb = .compatible ∧
      cgbDisplay d.cgb = some "CGB supported, but backwards compatible" ∧ d.manufacturer = some [0, 0, 0, 0] := by decide +kernel

/-- V41, and V43's second case. -/
theorem test_V41_title :
    (parseHeader defaultParams (header [0x54, 0x45, 0x53, 0x54, 0x47, 0x41, 0x4D, 0x45, 0x80] 0 0 0)).cgb = .plain ∧
    (parseHeader defaultParams (header [0x41, 0x42, 0x43, 0x44, 0x45, 0x46, 0x47, 0x48, 0x49, 0x4A, 0x4B, 0x4C, 0x4D, 0x4E, 0x4F,
      0x80] 0 0 0)).manufacturer = some [0x4C, 0x4D, 0x4E, 0x4F] := by decide +kernel

/-- V44. -/
theorem test_V44_printable : titleOf (header [0x1F, 0x42] 0 0 0) = [] ∧ titleOf (header [0x41, 0x42, 0x43, 0x7F, 0x45] 0 0 0) =
    [0x41, 0x42, 0x43] ∧ titleOf (header [0x20, 0x7E, 0x20, 0x7E] 0 0 0) = [0x20, 0x7E, 0x20, 0x7E] := by decide +kernel

/-- V45, V46. -/
theorem test_V45_sizes : romBanksOf 0 = .banks 2 ∧ romBanksOf 8 = .banks 512 ∧ romBanksOf 9 = .error ∧
    romBanksOf 0x52 = .error ∧ ramBanksOf 1 = .error ∧ ramBanksOf 2 = .banks 1 ∧ ramBanksOf 4 = .banks 16 ∧
    ramBanksOf 5 = .banks 8 ∧ ramBanksOf 6 = .error := by decide +kernel

/-- V48. -/
theorem test_V48_logo : (parseHeader defaultParams (header [] 0 0 0)).logoValid = true ∧
    (parseHeader defaultParams (fun i => if i = 0x33 then 0x3F else header [] 0 0 0 i)).logoValid = false := by decide +kernel

/-- V49. -/
theorem test_V49_totality : (parseHeader defaultParams (fun _ => 0xFF)).romBanks = .error ∧
    (parseHeader defaultParams (fun _ => 0xFF)).family = .unsupported ∧
    (parseHeader defaultParams (fun _ => 0x00)).family = .romOnly ∧
    (parseHeader defaultParams (fun _ => 0x00)).romBanks = .banks 2 := by decide +kernel

/-! ### Frames and commands -/

/-- V50. -/
theorem test_V50_frames : frameHeader .ok 5 = [0x00, 0x05, 0x00, 0x00, 0x00] ∧
    frameHeader .ok 32768 = [0x00, 0x00, 0x80, 0x00, 0x00] ∧ frameHeader .ok 300 = [0x00, 0x2C, 0x01, 0x00, 0x00] ∧
    frameHeader .ok 8388608 = [0x00, 0x00, 0x00, 0x80, 0x00] ∧ frameHeader .ok 0 = [0x00] ∧
    frameHeader .invalidRamWriteSize 0 = [0x15] := by decide +kernel

/-- V52, V53: no bus activity, nothing taken from RX. -/
theorem test_V52_write_rtc : (after (exec .writeRtc { State.reset with rx := [0xAA] })).tx = [0x18] ∧
    (after (exec .writeRtc { State.reset with rx := [0xAA] })).rx = [0xAA] ∧
    (after (exec (.unknown101F 0x10) State.reset)).tx = [0x01] ∧ (after (exec (.unknown101F 0x10) State.reset)).settles = 0 := by
  decide +kernel

/-- A `write_ram` of four MBC3 banks waiting for its length; the first OK has been sent. -/
def awaitingLength (rx : List Byte) : State :=
  { State.reset with tx := [0x00], rx := rx, control := .awaitLength ⟨.mbc3, 4⟩ [], selector := some 0x03 }

/-- P3a: length 16383 is refused. -/
theorem test_P3a_refused : (after (step (awaitingLength [0xFF, 0x3F, 0x00, 0x00]))).tx = [0x00, 0x15] ∧
    (after (step (awaitingLength [0xFF, 0x3F, 0x00, 0x00]))).control = .idle ∧
    (after (step (awaitingLength [0xFF, 0x3F, 0x00, 0x00]))).rx = [] := by decide +kernel

/-- P3b, its first bytes: length 32768 is acknowledged, data bytes are echoed one by one. -/
theorem test_P3b_echo : (after (step (awaitingLength [0x00, 0x80, 0x00, 0x00, 0x03, 0x08, 0x0D]))).tx =
      [0x00, 0x00, 0x03, 0x08, 0x0D] ∧
    (after (step (awaitingLength [0x00, 0x80, 0x00, 0x00, 0x03, 0x08, 0x0D]))).control =
      .awaitData ⟨.mbc3, 4⟩ 32768 0 3 ∧
    (after (step (awaitingLength [0x00, 0x80, 0x00, 0x00, 0x03, 0x08, 0x0D]))).readBuffer 2 = 0x0D := by decide +kernel

/-- V56: with the host silent there is no step. -/
theorem test_V56_held : step (awaitingLength []) = .fault .heldForHostByte ∧ step State.reset = .fault .waitingForSelector :=
  ⟨rfl, rfl⟩

/-- R297: on a transport with room for three bytes an OK frame of five stands half sent, and with no room there is no step; two
bytes drained make room for the rest, and TX still begins with them (10_state.md R46). -/
theorem test_R297_held : transmit (frameHeader .ok 5) .ended (State.reset.transportBounded 3) =
      { State.reset with tx := [0x00, 0x05, 0x00], txSpace := some 0, control := .sending [0x00, 0x00] .ended } ∧
    step (transmit (frameHeader .ok 5) .ended (State.reset.transportBounded 3)) = .fault .heldForHostSpace ∧
    step ((transmit (frameHeader .ok 5) .ended (State.reset.transportBounded 3)).hostDrains 2) =
      .next { State.reset with tx := [0x00, 0x05, 0x00, 0x00, 0x00], txDrained := 2, txSpace := some 0 } := by
  have h : frameHeader .ok 5 = [0x00, 0x05, 0x00, 0x00, 0x00] := by decide +kernel
  rw [h]
  exact ⟨rfl, rfl, rfl⟩

/-- One operation at a time (20_memory.md R92). -/
theorem test_busy : exec .reset (awaitingLength []) = .refused .commandInProgress := rfl

/-! ### Headers given by the cartridge -/

/-- After reset, with a cartridge whose header has these codes, and bytes offered by the host. -/
def headed (t r m : Byte) (rx : List Byte) : State :=
  { State.reset with cart := .rom { nr := 1, rom := [(0x147, t), (0x148, r), (0x149, m)], ram := [] }, rx := rx }

/-- The descriptor of a described command, by its header bytes. -/
theorem described_codes {c : Byte} {s h : State} {d : Descriptor} (hd : Described c s h d) (hp : s.params = defaultParams) :
    d.romBanks = romBanksOf (h.readBuffer 0x48) ∧ d.ramBanks = ramBanksOf (h.readBuffer 0x49) ∧
    d.ramSizeCode = h.readBuffer 0x49 ∧ d.family = (typeRowOf defaultParams.typeTable (h.readBuffer 0x47)).family ∧
    d.hasRtc = (typeRowOf defaultParams.typeTable (h.readBuffer 0x47)).hasRtc := by
  rw [hd.eq.2, ← hp, ← hd.fields.params]
  exact ⟨rfl, rfl, rfl, rfl, rfl⟩

/-- The host drains there, and after the header read as well. -/
theorem headed_drains {c t r m : Byte} {rx : List Byte} {h : State} {d : Descriptor}
    (hd : Described c (headed t r m rx) h d) : h.Drains := hd.fields.txSpace

/-- A command begun there has a descriptor with those codes. -/
theorem headed_described (c t r m : Byte) (rx : List Byte) : ∃ (h : State) (d : Descriptor), Described c (headed t r m rx) h d ∧
    h.readBuffer 0x47 = t ∧ h.readBuffer 0x48 = r ∧ h.readBuffer 0x49 = m ∧ d.romBanks = romBanksOf r ∧
    d.ramBanks = ramBanksOf m ∧ d.ramSizeCode = m ∧ d.family = (typeRowOf defaultParams.typeTable t).family ∧
    d.hasRtc = (typeRowOf defaultParams.typeTable t).hasRtc := by
  have hf : (headed t r m rx).Free := ⟨rfl, rfl⟩
  obtain ⟨h, d, hd⟩ : ∃ h d, Described c (headed t r m rx) h d := ⟨_, _, describe hf c⟩
  have h1 : h.readBuffer 0x47 = t := hd.headerByte (by decide) rfl
  have h2 : h.readBuffer 0x48 = r := hd.headerByte (by decide) rfl
  have h3 : h.readBuffer 0x49 = m := hd.headerByte (by decide) rfl
  have k := described_codes hd rfl
  rw [h1, h2, h3] at k
  exact ⟨h, d, hd, h1, h2, h3, k⟩

/-- V51, `read_rom`: size code 9 on an unsupported type is a size error; size code 1 there is a type error. -/
theorem test_V51_read_rom : (∃ h : State, exec .readRom (headed 0x05 0x09 0x00 []) = .next (h.ended [0x0A])) ∧
    ∃ h : State, exec .readRom (headed 0x05 0x01 0x00 []) = .next (h.ended [0x0C]) := by
  refine ⟨?_, ?_⟩
  · obtain ⟨h, d, hd, -, -, -, e1, -, -, e2, -⟩ := headed_described 0x01 0x05 0x09 0x00 []
    refine ⟨h, ?_⟩
    rw [exec_readRom_described hd, answerRom_raised (st := .invalidNumRomBanks), raise_ended (headed_drains hd)]
    · rfl
    · rw [← hd.eq.2, romCheck, e1]; rfl
  · obtain ⟨h, d, hd, -, -, -, e1, -, -, e2, -⟩ := headed_described 0x01 0x05 0x01 0x00 []
    refine ⟨h, ?_⟩
    rw [exec_readRom_described hd, answerRom_raised (st := .invalidCartridgeType), raise_ended (headed_drains hd)]
    · rfl
    · rw [← hd.eq.2, romCheck, e1, romBanksOf, if_pos (by decide)]
      simp only [familyCheck, e2, show (typeRowOf defaultParams.typeTable 0x05).family = .unsupported from by decide, moduleOf]

/-- V51, `read_ram` and `write_ram`: code 1 is "no RAM", code 7 is out of the domain. -/
theorem test_V51_ram : (∃ h : State, exec .readRam (headed 0x03 0x01 0x01 []) = .next (h.ended [0x16])) ∧
    ∃ h : State, exec .writeRam (headed 0x03 0x01 0x07 []) = .next (h.ended [0x0B]) := by
  refine ⟨?_, ?_⟩
  · obtain ⟨h, d, hd, -, -, -, -, -, e1, -, -⟩ := headed_described 0x02 0x03 0x01 0x01 []
    refine ⟨h, ?_⟩
    rw [exec_readRam_described hd, answerRam_raised (st := .cartridgeHasNoRam), raise_ended (headed_drains hd)]
    · rfl
    · rw [← hd.eq.2, ramCheck, e1]; rfl
  · obtain ⟨h, d, hd, -, -, -, -, e1, e2, -, -⟩ := headed_described 0x03 0x03 0x01 0x07 []
    refine ⟨h, ?_⟩
    rw [exec_writeRam_described hd, answerUpload_raised (st := .invalidNumRamBanks), raise_ended (headed_drains hd)]
    · rfl
    · rw [← hd.eq.2, ramCheck, e2, e1]; rfl

/-- V51, `read_rtc`: MBC3 without a timer, and a type without a row (never INVALID_CARTRIDGE_TYPE). -/
theorem test_V51_read_rtc : (∃ h : State, exec .readRtc (headed 0x13 0x02 0x03 []) = .next (h.ended [0x17])) ∧
    ∃ h : State, exec .readRtc (headed 0x04 0x02 0x03 []) = .next (h.ended [0x17]) := by
  refine ⟨?_, ?_⟩
  · obtain ⟨h, d, hd, -, -, -, -, -, -, -, e⟩ := headed_described 0x04 0x13 0x02 0x03 []
    refine ⟨h, ?_⟩
    rw [exec_readRtc_described hd, answerRtc_raised (headed_drains hd)]
    rw [← hd.eq.2, rtcCapable, e]; exact Bool.and_false _
  · obtain ⟨h, d, hd, -, -, -, -, -, -, -, e⟩ := headed_described 0x04 0x04 0x02 0x03 []
    refine ⟨h, ?_⟩
    rw [exec_readRtc_described hd, answerRtc_raised (headed_drains hd)]
    rw [← hd.eq.2, rtcCapable, e]; exact Bool.and_false _

/-! ### Witnesses: a concrete state and operands for the hypotheses of each obligation, clause by clause -/

/-- For every obligation whose hypothesis on the state is `Free` alone: SelectorSpaceIsTotal, ResetDrivesSafe,
ResetCartridgeZeroesTheRegisters, the three ReadRom ones, ReadHeaderFillsTheHeader, ReadRamFillsTheBuffer,
WriteRamStoresTheBuffer, ReadRtcTakesTheSnapshot, Mbc3WriteRtcDoesNothing, ParseReadsEveryField, StatusRowsSendTheirCode,
ReadDescriptorAlwaysCompletes, WriteRtcAndUnknownSelectors. -/
theorem witness_free : State.reset.Free ∧ State.reset.Drains ∧ State.reset.params = defaultParams := ⟨⟨rfl, rfl⟩, rfl, rfl⟩

/-- For every obligation about a command from its descriptor on: the witnesses below begin in these states, where the host drains
and the six selectors stand at 0x00 to 0x05. -/
theorem witness_headed (t r m : Byte) (rx : List Byte) : (headed t r m rx).Drains ∧ (headed t r m rx).Free ∧
    (headed t r m rx).params.cmdId = ⟨0x00, 0x01, 0x02, 0x03, 0x04, 0x05⟩ := ⟨rfl, ⟨rfl, rfl⟩, rfl⟩

theorem witness_SelectorSpaceIsTotal : otherIds.wf = true ∧ (0x00 : Byte) = otherIds.cmdId.writeRtc ∧
    6 ≤ (0x06 : Byte).toNat ∧ 6 ≤ (0xFF : Byte).toNat := by decide +kernel

theorem witness_DecodeOfEncode : defaultParams.wf = true ∧ (Instr.unknown0607 0x07).wf = true ∧
    (Instr.unknown80FF 0x80).wf = true ∧ (Instr.registerWrite 0xFFFF 0xFF).wf = true := by decide

theorem witness_EncodeOfDecode : decode defaultParams ⟨.int, 0xFFFFFF20#32⟩ = .instr (.registerWrite 0xFFFF 0xFF) ∧
    decode defaultParams ⟨.regw .mbc3, 0x0040000C#32⟩ = .instr (.regwM3Ramb 0x0C) := by decide

theorem witness_StepRunsTheDecodedOperation : (State.reset.present 0x05).Free ∧ (State.reset.present 0x05).bench = [] ∧
    (State.reset.present 0x05).pending = 0x05 :: [] ∧
    decode (State.reset.present 0x05).params ⟨.cmd, (0x05 : Byte).setWidth 32⟩ = .instr .writeRtc ∧
    ({ State.reset with bench := [⟨.int, 0x10#32⟩] } : State).Free ∧ decode defaultParams ⟨.int, 0x10#32⟩ = .instr .reset :=
  ⟨⟨rfl, rfl⟩, rfl, rfl, by decide, ⟨rfl, rfl⟩, by decide⟩

theorem witness_UnassignedWordsAreRefused : ({ State.reset with bench := [⟨.status, 2#32⟩] } : State).Free ∧
    ({ State.reset with bench := [⟨.status, 2#32⟩] } : State).bench = ⟨.status, 2#32⟩ :: [] ∧
    (2#32).toNat ∉ [0, 1, 10, 11, 12, 21, 22, 23, 24] ∧ (0x100#32).toNat ∉ [0, 1, 10, 11, 12, 21, 22, 23, 24] ∧
    ((0x14#32).extractLsb' 0 8).toNat ∉ [0x10, 0x11, 0x12, 0x13, 0x20, 0x21, 0x22, 0x23, 0x30, 0x31, 0x32, 0x33, 0x40, 0x41, 0x42,
      0x43, 0x44, 0x50, 0x51, 0x52, 0x60] := ⟨⟨rfl, rfl⟩, rfl, by decide, by decide, by decide⟩

/-- `read_rom` of a 512-bank MBC5 cartridge held in `TxByte` with three bytes to go of its second bank. -/
def streaming (room : Option Nat) : State :=
  { latched 0x7FFF with
    tx := [0x11], txSpace := room, control := .sending [1, 2, 3] (.nextBank .rom .mbc5 512 510), selector := some 0x01
    descriptor := some (parseHeader defaultParams (header [] 0x19 8 0)) }

/-- A STATUS row run on its own, held before its one byte. -/
def answering : State := { latched 0 with txSpace := some 0, control := .sending [0x00] .returned }

theorem witness_StepWaitsForTheHost : (awaitingLength []).contention = false ∧ (awaitingLength []).control.takes = true ∧
    (awaitingLength []).rx = [] ∧ (streaming (some 0)).contention = false ∧
    (streaming (some 0)).control = .sending [1, 2, 3] (.nextBank .rom .mbc5 512 510) ∧ (streaming (some 0)).txSpace = some 0 ∧
    (streaming (some 0)).txDrained < (streaming (some 0)).tx.length ∧ (some 1 : Option Nat) ≠ some 0 ∧ (none : Option Nat) ≠ some 0 ∧
    State.reset.contention = false ∧ State.reset.control = .idle ∧ State.reset.pending = [] ∧ State.reset.bench = [] :=
  ⟨rfl, rfl, rfl, rfl, rfl, rfl, by decide, by decide, by decide, rfl, rfl, rfl, rfl⟩

/-- A command in `RxByte` and one in `TxByte`, each with a step. -/
theorem witness_OneOperationAtATime : (awaitingLength [1]).contention = false ∧ (awaitingLength [1]).control ≠ .idle ∧
    (∃ t, step (awaitingLength [1]) = .next t) ∧ answering.contention = false ∧ answering.control ≠ .idle ∧
    ∃ t, step (answering.hostGrants (some 1)) = .next t :=
  ⟨rfl, by decide, ⟨_, rfl⟩, rfl, by decide, _, rfl⟩

theorem witness_QuietGpioWrites : State.reset.asserted .dinLoad = false ∧
    ¬ (State.reset.asserted .doutOe = true ∧ State.reset.asserted .rd = true) := by decide

theorem witness_SerialWordsAreMsbFirst : State.reset.bss.addrLatch = false ∧ State.reset.bss.doutLatch = false := by decide

/-- Lines at rest after reset, with RD asserted, and with CS asserted. -/
theorem witness_lines : State.reset.LinesRest ∧ reading.LinesRest ∧ chipSelected.LinesRest :=
  ⟨⟨rfl, rfl, rfl⟩, ⟨rfl, rfl, rfl⟩, ⟨rfl, rfl, rfl⟩⟩

theorem witness_ShiftOutAddressLatchesTheAddress : reading.Free ∧ reading.LinesRest ∧
    ¬ (reading.asserted .doutOe = true ∧ reading.asserted .rd = true) ∧ chipSelected.Free ∧ chipSelected.LinesRest ∧
    ¬ (chipSelected.asserted .doutOe = true ∧ chipSelected.asserted .rd = true) :=
  ⟨⟨rfl, rfl⟩, ⟨rfl, rfl, rfl⟩, by decide, ⟨rfl, rfl⟩, ⟨rfl, rfl, rfl⟩, by decide⟩

/-- Also for RegisterWriteDeliversOneEvent. -/
theorem witness_ShiftOutDataWritesTheByte : chipSelected.Free ∧ chipSelected.LinesRest ∧ chipSelected.asserted .rd = false :=
  ⟨⟨rfl, rfl⟩, ⟨rfl, rfl, rfl⟩, by decide⟩

/-- DOUT_OE asserted, RD off. -/
def driving : State := { latched 0 with bss := { safeBss defaultLevels with doutOe := false } }

theorem witness_ShiftInDataReturnsTheBus : driving.Free ∧ ¬ (driving.asserted .doutOe = true ∧ driving.asserted .rd = true) ∧
    driving.asserted .doutOe = true ∧ reading.asserted .doutOe = false ∧ reading.asserted .rd = true ∧
    State.reset.asserted .doutOe = false ∧ State.reset.asserted .rd = false :=
  ⟨⟨rfl, rfl⟩, by decide, by decide, by decide, by decide, by decide, by decide⟩

theorem witness_RegisterRowsWriteTheirRegister : registerRow defaultParams (.regwM1Mode 1) = some (0x6000, 0x01) ∧
    registerRow defaultParams (.regwM3Ramb 0xFF) = some (0x4000, 0xFF) ∧ State.reset.Free ∧ State.reset.LinesRest ∧
    State.reset.asserted .rd = false := ⟨by decide, by decide, ⟨rfl, rfl⟩, ⟨rfl, rfl, rfl⟩, by decide⟩

theorem witness_ReadCellReturnsTheCartridgeByte : chipSelected.Free ∧ chipSelected.LinesRest ∧
    chipSelected.asserted .doutOe = false := ⟨⟨rfl, rfl⟩, ⟨rfl, rfl, rfl⟩, by decide⟩

theorem witness_ContentionIsAFault : ({ latched 0 with bss := allLow } : State).Free ∧
    ({ latched 0 with bss := allLow } : State).asserted .doutOe = true ∧
    ({ latched 0 with bss := allLow } : State).asserted .rd = true ∧
    ({ latched 0 with contention := true } : State).contention = true ∧
    registerRow defaultParams (.regwM5Ramb 0) = some (0x4000, 0) :=
  ⟨⟨rfl, rfl⟩, by decide, by decide, rfl, by decide⟩

theorem witness_ResetCartridgeZeroesTheRegisters : (registerZeros defaultParams .mbc5).getLast? = some (0x4000, 0x00) := by decide

theorem witness_ReadRamFillsTheBuffer : (ramBankWrites defaultParams 3 .mbc1).getLast? = some (0x4000, 0x03) ∧
    (ramBankWrites defaultParams 0xFFFF .mbc3).getLast? = some (0x4000, 0xFF) := by decide

/-- A reference MBC1 cartridge of four banks with RAM, and the others below. -/
def smallMbc1 : RefMbc1 :=
  { nb := 4, nr := 4, rom := [(3 * 16384 + 16383, 0x77)], ram := [], ramg := 0, bank1 := 1, bank2 := 0, mode := 0 }

def smallRom : RefRom := { nr := 1, rom := [(16384 + 16383, 0x77)], ram := [] }

def smallMbc3 : RefMbc3 := { clockCart with rom := [(63 * 16384, 0x77)] }

/-- After reset with a cartridge. -/
def slotted (c : Cartridge) : State := { State.reset with cart := c }

theorem witness_ResetCartridgeGivesPowerUpState : (slotted (.mbc1 smallMbc1)).Free ∧
    (slotted (.mbc1 smallMbc1)).params = defaultParams ∧ (slotted (.mbc1 smallMbc1)).cart = .mbc1 smallMbc1 ∧
    (slotted (.mbc3 smallMbc3)).cart = .mbc3 smallMbc3 ∧ (slotted (.mbc5 bigMbc5)).cart = .mbc5 bigMbc5 ∧
    (0x3FFF : Addr).toNat < 0x4000 ∧ 0x8000 ≤ (0x8000 : Addr).toNat :=
  ⟨⟨rfl, rfl⟩, rfl, rfl, rfl, rfl, by decide, by decide⟩

/-- The last byte of the last bank of each. -/
theorem witness_RomBanksReachThemselves : (slotted (.rom smallRom)).Free ∧ (slotted (.rom smallRom)).params = defaultParams ∧
    (16383 : Nat) < 16384 ∧ (1 : Nat) < 2 ∧ 3 < smallMbc1.nb ∧ smallMbc1.nb ≤ 128 ∧ 63 < smallMbc3.nb ∧ smallMbc3.nb ≤ 128 ∧
    511 < bigMbc5.nb ∧ bigMbc5.nb ≤ 512 ∧ romByte smallMbc1.rom (3 * 16384 + 16383) = 0x77 :=
  ⟨⟨rfl, rfl⟩, rfl, by decide, by decide, by decide, by decide, by decide, by decide, by decide, by decide, by decide⟩

theorem witness_RamRoundTrip : (slotted (.rom smallRom)).Free ∧ (slotted (.rom smallRom)).params = defaultParams ∧
    smallRom.nr = 1 ∧ 0 < smallMbc1.nr ∧ (3 : BankOperand).toNat < 4 ∧ 0 < smallMbc3.nr ∧ 0 < bigMbc5.nr :=
  ⟨⟨rfl, rfl⟩, rfl, rfl, by decide, by decide, by decide, by decide⟩

/-- Each kind of cartridge, and the edges of the two windows. -/
theorem witness_PowerUpPresentsBankZero : State.reset.Free ∧ State.reset.params = defaultParams ∧
    (∃ r, Cartridge.rom smallRom = .rom r ∧ r.rom = smallRom.rom) ∧
    (∃ r, Cartridge.mbc5 bigMbc5 = .mbc5 r ∧ r.rom = bigMbc5.rom) ∧
    (∀ r, Cartridge.mbc5 bigMbc5 ≠ .rom r) ∧ (0x3FFF : Addr).toNat < 0x4000 ∧ 0x8000 ≤ (0x8000 : Addr).toNat ∧
    (0x4F : Nat) < 0x50 :=
  ⟨⟨rfl, rfl⟩, rfl, ⟨_, rfl, rfl⟩, ⟨_, rfl, rfl⟩, (fun _ => by simp), by decide, by decide, by decide⟩

/-- A type with a row, and one without; and codes on both sides of the size domains. -/
theorem witness_ParseReadsEveryField : defaultParams.typeTable.find? (fun r => r.code == 0x00) =
      some ⟨0x00, "ROM ONLY", .romOnly, false, false, false⟩ ∧ (∀ r ∈ defaultParams.typeTable, r.code ≠ 0x04) ∧
    (8 : Byte).toNat ≤ 8 ∧ 8 < (9 : Byte).toNat ∧ 5 < (6 : Byte).toNat := by
  decide +kernel

/-- Two parameter sets that differ elsewhere, and two buffers that differ beyond the 80 bytes. -/
theorem witness_ParseIsPure : defaultParams.logo = otherIds.logo ∧ defaultParams.typeTable = otherIds.typeTable ∧
    defaultParams.cmdId ≠ otherIds.cmdId ∧
    ∀ i, i < 0x50 → (fun _ => 0 : Nat → Byte) i = (fun k => if k < 0x50 then 0 else 1 : Nat → Byte) i :=
  ⟨rfl, rfl, by decide, by decide⟩

theorem witness_RomSizeCodes : (∃ h d, Described 0x01 (headed 0x01 0x08 0 []) h d ∧ (h.readBuffer 0x48).toNat ≤ 8) ∧
    ∃ h d, Described 0x01 (headed 0x01 0x09 0 []) h d ∧ 8 < (h.readBuffer 0x48).toNat := by
  refine ⟨?_, ?_⟩
  · obtain ⟨h, d, hd, -, e, -⟩ := headed_described 0x01 0x01 0x08 0 []
    exact ⟨h, d, hd, by rw [e]; decide⟩
  · obtain ⟨h, d, hd, -, e, -⟩ := headed_described 0x01 0x01 0x09 0 []
    exact ⟨h, d, hd, by rw [e]; decide⟩

/-- Each RAM-size code 0 to 6, for both commands. -/
theorem witness_RamSizeCodes (m : Byte) : (∃ h d, Described 0x02 (headed 0x01 0 m []) h d ∧ h.readBuffer 0x49 = m) ∧
    ∃ h d, Described 0x03 (headed 0x01 0 m []) h d ∧ h.readBuffer 0x49 = m := by
  refine ⟨?_, ?_⟩
  · obtain ⟨h, d, hd, -, -, e, -⟩ := headed_described 0x02 0x01 0 m []
    exact ⟨h, d, hd, e⟩
  · obtain ⟨h, d, hd, -, -, e, -⟩ := headed_described 0x03 0x01 0 m []
    exact ⟨h, d, hd, e⟩

theorem witness_BankOperandsReassemble : (511 : BankOperand).toNat < 512 ∧ (127 : BankOperand).toNat < 128 := by decide

/-- A transport that drains, one with just the room, and one with a byte too little. -/
theorem witness_FramesAreByteExact : (0 : Length) = 0 ∧ (1 : Length) ≠ 0 ∧ State.reset.Drains ∧
    (State.reset.transportBounded 5).txSpace = some 5 ∧ ([0, 5, 0, 0, 0] : List Byte).length ≤ 5 ∧
    (State.reset.transportBounded 4).txSpace = some 4 ∧ 4 < ([0, 5, 0, 0, 0] : List Byte).length :=
  ⟨rfl, by decide, rfl, rfl, by decide, rfl, by decide⟩

theorem witness_ParseHeaderSendsTheReport : ∃ h d, Described 0x00 (headed 0xFF 0xFF 0xFF []) h d := by
  obtain ⟨h, d, hd, -⟩ := headed_described 0x00 0xFF 0xFF 0xFF []
  exact ⟨h, d, hd⟩

/-- `read_rom` with size code 8, and `read_ram`, `write_ram` with size codes 2 and 5, on an unsupported type. -/
theorem witness_UnsupportedTypesAreRefused :
    (∃ h d, Described 0x01 (headed 0x05 8 0 []) h d ∧ servedBy d.family = none ∧ (h.readBuffer 0x48).toNat ≤ 8) ∧
    (∃ h d, Described 0x02 (headed 0x05 0 2 []) h d ∧ servedBy d.family = none ∧ 2 ≤ (h.readBuffer 0x49).toNat ∧
      (h.readBuffer 0x49).toNat ≤ 5) ∧
    ∃ h d, Described 0x03 (headed 0x05 0 5 []) h d ∧ servedBy d.family = none ∧ 2 ≤ (h.readBuffer 0x49).toNat ∧
      (h.readBuffer 0x49).toNat ≤ 5 := by
  have f : servedBy (typeRowOf defaultParams.typeTable 0x05).family = none := by decide
  refine ⟨?_, ?_, ?_⟩
  · obtain ⟨h, d, hd, -, e, -, -, -, -, g, -⟩ := headed_described 0x01 0x05 8 0 []
    exact ⟨h, d, hd, by rw [g, f], by rw [e]; decide⟩
  · obtain ⟨h, d, hd, -, -, e, -, -, -, g, -⟩ := headed_described 0x02 0x05 0 2 []
    exact ⟨h, d, hd, by rw [g, f], by rw [e]; decide, by rw [e]; decide⟩
  · obtain ⟨h, d, hd, -, -, e, -, -, -, g, -⟩ := headed_described 0x03 0x05 0 5 []
    exact ⟨h, d, hd, by rw [g, f], by rw [e]; decide, by rw [e]; decide⟩

theorem witness_ReadRomStreamsEveryBank : ∃ h d, Described 0x01 (headed 0x19 8 0 []) h d ∧ d.romBanks = .banks 512 ∧
    servedBy d.family = some .mbc5 := by
  obtain ⟨h, d, hd, -, -, -, e, -, -, g, -⟩ := headed_described 0x01 0x19 8 0 []
  exact ⟨h, d, hd, by rw [e]; decide, by rw [g]; decide⟩

theorem witness_ReadRamStreamsEveryBank : ∃ h d, Described 0x02 (headed 0x08 0 4 []) h d ∧ d.ramSizeCode ≠ 0 ∧
    d.ramSizeCode ≠ 1 ∧ d.ramBanks = .banks 16 ∧ servedBy d.family = some .mbc1 := by
  obtain ⟨h, d, hd, -, -, -, -, e, k, g, -⟩ := headed_described 0x02 0x08 0 4 []
  exact ⟨h, d, hd, by rw [k]; decide, by rw [k]; decide, by rw [e]; decide, by rw [g]; decide⟩

theorem witness_WriteRamHoldsForTheLength : ∃ h d, Described 0x03 (headed 0x13 2 3 []) h d ∧ d.ramSizeCode ≠ 0 ∧
    d.ramSizeCode ≠ 1 ∧ d.ramBanks = .banks 4 ∧ servedBy d.family = some .mbc3 ∧ (headed 0x13 2 3 []).rx = [] := by
  obtain ⟨h, d, hd, -, -, -, -, e, k, g, -⟩ := headed_described 0x03 0x13 2 3 []
  exact ⟨h, d, hd, by rw [k]; decide, by rw [k]; decide, by rw [e]; decide, by rw [g]; decide, rfl⟩

theorem witness_WriteRamRefusesAnotherLength : (awaitingLength [0xFF, 0x3F, 0, 0]).contention = false ∧
    (awaitingLength [0xFF, 0x3F, 0, 0]).Drains ∧
    (Upload.mk .mbc3 4).legal = true ∧ (awaitingLength [0xFF, 0x3F, 0, 0]).control = .awaitLength ⟨.mbc3, 4⟩ [] ∧
    (0xFF : Byte).toNat + 256 * (0x3F : Byte).toNat + 65536 * (0 : Byte).toNat + 16777216 * (0 : Byte).toNat ≠ 4 * 8192 :=
  ⟨rfl, rfl, by decide, rfl, by decide⟩

/-- Three of four length bytes; and 100 data bytes of bank 0 (V56). -/
theorem witness_WriteRamTakesAPartOfABank : (awaitingLength [1, 2, 3]).contention = false ∧ (awaitingLength [1, 2, 3]).rx ≠ [] ∧
    (awaitingLength [1, 2, 3]).control = .awaitLength ⟨.mbc3, 4⟩ [] ∧ 0 + (awaitingLength [1, 2, 3]).rx.length < 4 ∧
    ({ awaitingLength (List.replicate 100 0) with control := .awaitData ⟨.mbc3, 4⟩ 32768 0 0 } : State).control =
      .awaitData ⟨.mbc3, 4⟩ 32768 0 0 ∧ 0 + (awaitingLength (List.replicate 100 0)).rx.length < 8192 ∧
    (awaitingLength (List.replicate 100 0)).Drains :=
  ⟨rfl, by decide, rfl, by decide, rfl, by decide, rfl⟩

/-- One bank, 8192 data bytes, one byte more than the command takes. -/
theorem witness_WriteRamCommitsEveryBank : ∃ h d,
    Described 0x03 (headed 0x03 0 2 (0x00 :: 0x20 :: 0x00 :: 0x00 :: (List.replicate 8192 0x5A ++ [0x01]))) h d ∧
    d.ramSizeCode ≠ 0 ∧ d.ramSizeCode ≠ 1 ∧ d.ramBanks = .banks 1 ∧ servedBy d.family = some .mbc1 ∧
    (0x00 : Byte).toNat + 256 * (0x20 : Byte).toNat + 65536 * (0x00 : Byte).toNat + 16777216 * (0x00 : Byte).toNat = 1 * 8192 ∧
    (List.replicate 8192 (0x5A : Byte)).length = 1 * 8192 := by
  obtain ⟨h, d, hd, -, -, -, -, e, k, g, -⟩ :=
    headed_described 0x03 0x03 0 2 (0x00 :: 0x20 :: 0x00 :: 0x00 :: (List.replicate 8192 0x5A ++ [0x01]))
  exact ⟨h, d, hd, by rw [k]; decide, by rw [k]; decide, by rw [e]; decide, by rw [g]; decide, by decide,
    by rw [List.length_replicate]⟩

/-- After one length byte the command still waits; after a wrong length it is idle; and on a transport without room it is held
with the refusal still to send. -/
theorem witness_HostBytesMayArriveInPieces : (awaitingLength []).contention = false ∧ (awaitingLength []).control.takes = true ∧
    (awaitingLength []).rx = [] ∧ (∃ t, step ((awaitingLength []).hostSends [0]) = .next t ∧ t.control.takes = true) ∧
    (∃ t, step ((awaitingLength []).hostSends [1, 0, 0, 0]) = .next t ∧ t.control.takes = false) ∧
    ∃ t, step (((awaitingLength []).transportBounded 0).hostSends [1, 0, 0, 0]) = .next t ∧ t.control = .sending [0x15] .ended :=
  ⟨rfl, rfl, rfl, ⟨_, rfl, by decide⟩, ⟨_, rfl, by decide⟩, _, rfl, by decide⟩

/-- An operation that waits in `TxByte`, and one that does not; a step of a suspended one that waits again, and one that does
not. -/
theorem witness_HostMayDrainInPieces : (some 1 : Option Nat) ≠ some 0 ∧
    (∃ t, exec .writeRtc (State.reset.transportBounded 0) = .next t ∧ t.control = .sending [0x18] .ended) ∧
    (∃ t, exec .writeRtc (State.reset.transportBounded 1) = .next t ∧ t.control = .idle) ∧
    answering.control ≠ .idle ∧ (∃ t, step (answering.hostGrants (some 1)) = .next t ∧ t.control = .idle) ∧
    ∃ t, step (streaming (some 2)) = .next t ∧ t.control = .sending [3] (.nextBank .rom .mbc5 512 510) :=
  ⟨by decide, ⟨_, rfl, by decide⟩, ⟨_, rfl, by decide⟩, by decide, ⟨_, rfl, by decide⟩,
    _, step_sending (s := streaming (some 2)) rfl rfl (by decide), by
      have e : (transmit [1, 2, 3] (.nextBank .rom .mbc5 512 510) (streaming (some 2))).control = _ :=
        congrArg State.control (sendThen_short [1, 2, 3] _ _ (streaming (some 2)) rfl (by decide))
      rw [resumeCommand_stop (congrArg Control.takes e), e]; rfl⟩

theorem witness_ReadRtcSendsTheSnapshot :
    (∃ h d, Described 0x04 (headed 0x13 2 3 []) h d ∧ ¬ (d.family = .mbc3 ∧ d.hasRtc = true)) ∧
    ∃ h d, Described 0x04 (headed 0x10 5 3 []) h d ∧ d.family = .mbc3 ∧ d.hasRtc = true := by
  refine ⟨?_, ?_⟩
  · obtain ⟨h, d, hd, -, -, -, -, -, -, g, e⟩ := headed_described 0x04 0x13 2 3 []
    exact ⟨h, d, hd, by rw [g, e]; decide⟩
  · obtain ⟨h, d, hd, -, -, -, -, -, -, g, e⟩ := headed_described 0x04 0x10 5 3 []
    exact ⟨h, d, hd, by rw [g]; decide, by rw [e]; decide⟩

theorem witness_RomOnlyCartridgeIsReadWhole : (headed 0 0 0 []).Free ∧ (headed 0 0 0 []).Drains ∧
    (headed 0 0 0 []).params = defaultParams ∧
    (headed 0 0 0 []).cart = .rom { nr := 1, rom := [(0x147, 0), (0x148, 0), (0x149, 0)], ram := [] } ∧
    romByte [(0x147, 0), (0x148, 0), (0x149, 0)] 0x147 = 0x00 ∧
    romByte [(0x147, 0), (0x148, 0), (0x149, 0)] 0x148 = 0x00 := ⟨⟨rfl, rfl⟩, rfl, rfl, rfl, by decide, by decide⟩

theorem witness_ClockIsReadWhole : (slotted (.mbc3 clockCart)).Free ∧ (slotted (.mbc3 clockCart)).Drains ∧
    (slotted (.mbc3 clockCart)).params = defaultParams ∧
    (slotted (.mbc3 clockCart)).cart = .mbc3 clockCart ∧ romByte clockCart.rom 0x147 = 0x10 :=
  ⟨⟨rfl, rfl⟩, rfl, rfl, rfl, by decide⟩

/-- A state in the invariant that no reset gives: `write_ram` is suspended in the middle of its last bank. -/
def uploading : State :=
  { latched 0xA000 with
    rx := [0x55], control := .awaitData ⟨.mbc5, 16⟩ 131072 15 8191, selector := some 0x03
    descriptor := some (parseHeader defaultParams (header [] 0x1B 0 4)) }

/-- One operation that needs to start at rest, one that opens with `reset_cartridge` from a broken state, and the last bank of a
suspended `write_ram`, whose step commits it. -/
theorem witness_CartridgeOperationsEndAtRest : cartridgeLevel .writeRtc = true ∧ State.reset.AtRest ∧
    (∃ t, exec .writeRtc State.reset = .next t) ∧ cartridgeLevel (.mbc5WriteRam 0) = true ∧
    startsWithReset (.mbc5WriteRam 0) = true ∧ (∃ t, exec (.mbc5WriteRam 0) { latched 0 with bss := allLow } = .next t) ∧
    uploading.control ≠ .idle ∧ uploading.AtRest ∧ ∃ t, step uploading = .next t :=
  ⟨rfl, rfl, ⟨_, rfl⟩, rfl, rfl, ⟨_, exec_writeRam (s := { latched 0 with bss := allLow }) ⟨rfl, rfl⟩ .mbc5 0⟩, by decide, rfl,
    _, step_held rfl (by decide) (by decide)⟩

/-- An operation of each layer: the streams are the commands' alone. A step that sends, and a byte of two sent still to drain. -/
theorem witness_OwnersOfTheStreams : (∃ t, step (streaming (some 5)) = .next t) ∧
    ({ State.reset with tx := [1, 2], txDrained := 1 } : State).txDrained ≤ 2 ∧ (∃ t, exec (.mbc3ReadRom 1) State.reset = .next t) ∧ Instr.mbc3ReadRom 1 ≠ .writeRam ∧
    Instr.mbc3ReadRom 1 ≠ .parseHeader ∧ (encode defaultParams (.mbc3ReadRom 1)).format ≠ .cmd ∧
    (encode defaultParams (.mbc3ReadRom 1)).format ≠ .status :=
  ⟨⟨_, step_sending rfl rfl (by decide)⟩, by decide, ⟨_, exec_mbc3ReadRom (s := State.reset) ⟨rfl, rfl⟩ 1⟩, by decide, by decide, by decide, by decide⟩

/-- Suspended in `RxByte`; in `TxByte` between two banks; in `TxByte` as a STATUS row on its own. -/
theorem witness_EveryStepKeepsTheInvariant : (uploading.Inv ∧ ∃ t, step uploading = .next t) ∧
    ((streaming (some 5)).Inv ∧ ∃ t, step (streaming (some 5)) = .next t) ∧
    (answering.hostGrants none).Inv ∧ ∃ t, step (answering.hostGrants none) = .next t :=
  ⟨⟨⟨rfl, rfl, rfl, rfl, rfl, rfl, by decide, ⟨rfl, rfl, rfl⟩, by decide, rfl⟩, ⟨_, step_held rfl (by decide) (by decide)⟩⟩,
    ⟨⟨rfl, rfl, rfl, rfl, rfl, rfl, by decide, ⟨rfl, rfl, rfl⟩, by decide, rfl⟩, ⟨_, step_sending rfl rfl (by decide)⟩⟩,
    ⟨rfl, rfl, rfl, rfl, rfl, rfl, by decide, rfl, by decide, rfl⟩, ⟨_, rfl⟩⟩

/-- An idle state in the invariant: a serial line left high, bytes of the last command in the buffer. -/
theorem witness_EveryOperationCompletes : ({ latched 0 with
    bss := { safeBss defaultLevels with addrSer := true }, bankBuffer := [(0, 1), (16383, 2)] } : State).Inv :=
  ⟨rfl, rfl, rfl, rfl, rfl, rfl, rfl, rfl, by decide, rfl⟩

end Sys2Proof.Tests
end

section
/-! PROOFS. The selector byte (30_encoding.md R108, R109): what it decodes to, that `CMD_ID` leaves no byte below 6 without a
command, and what the selectors that read no header answer. -/

namespace Sys2Proof

theorem Params.cmdId_wf {p : Params} (hw : p.wf = true) : p.cmdId.wf = true := by
  simp only [Params.wf, Bool.and_eq_true, and_assoc] at hw
  exact hw.1

theorem setWidth_eq_byteWord (c : Byte) : c.setWidth 32 = byteWord c := by
  apply BitVec.eq_of_toNat_eq
  rw [byteWord, packWord_toNat, BitVec.toNat_setWidth, Nat.mod_eq_of_lt (by omega)]
  simp

theorem mem_lowBytes {b : Byte} (h : b.toNat < 6) : b ∈ (List.range 6).map (BitVec.ofNat 8) :=
  List.mem_map.2 ⟨b.toNat, List.mem_range.2 h, by simp⟩

/-- The pigeonhole: six distinct bytes below 6 are all the bytes below 6. -/
theorem CommandIds.mem_toList {ids : CommandIds} (hw : ids.wf = true) {c : Byte} (h : c.toNat < 6) : c ∈ ids.toList := by
  simp only [CommandIds.wf, Bool.and_eq_true, decide_eq_true_eq, List.all_eq_true] at hw
  obtain ⟨hnodup, hlow⟩ := hw
  have hsub : ids.toList.Subperm ((List.range 6).map (BitVec.ofNat 8)) :=
    List.subperm_of_subset hnodup fun b hb => mem_lowBytes (hlow b hb)
  exact (hsub.perm_of_length_le (by simp [CommandIds.toList])).mem_iff.2 (mem_lowBytes h)

/-- Below 6 every byte is a command. -/
theorem command_some {ids : CommandIds} (hw : ids.wf = true) {c : Byte} (h : c.toNat < 6) :
    ∃ i, ids.command c = some i := by
  obtain ⟨h1, h2, h3, h4, h5, h6⟩ := command_ids hw
  have hc := CommandIds.mem_toList hw h
  simp only [CommandIds.toList, List.mem_cons, List.not_mem_nil, or_false] at hc
  rcases hc with rfl | rfl | rfl | rfl | rfl | rfl
  exacts [⟨_, h1⟩, ⟨_, h2⟩, ⟨_, h3⟩, ⟨_, h4⟩, ⟨_, h5⟩, ⟨_, h6⟩]

/-- From 6 on every byte has a row of the unknown selectors. -/
theorem unknownRow_some {c : Byte} (h : 6 ≤ c.toNat) : ∃ i, unknownRow c = some i := by
  rw [unknownRow, if_neg (by omega)]
  split_ifs <;> exact ⟨_, rfl⟩

theorem commandOf_command {ids : CommandIds} {c : Byte} {i : Instr} (h : ids.command c = some i) :
    commandOf ids c = some i := by
  rw [commandOf, h]

theorem commandOf_unknown {ids : CommandIds} (hw : ids.wf = true) {c : Byte} (h : 6 ≤ c.toNat) :
    commandOf ids c = unknownRow c := by
  rw [commandOf, command_none hw h]

theorem commandOf_total {ids : CommandIds} (hw : ids.wf = true) (c : Byte) : ∃ i, commandOf ids c = some i := by
  by_cases h : c.toNat < 6
  · obtain ⟨i, hi⟩ := command_some hw h
    exact ⟨i, commandOf_command hi⟩
  · rw [commandOf_unknown hw (Nat.le_of_not_lt h)]
    exact unknownRow_some (Nat.le_of_not_lt h)

theorem decode_selector {p : Params} {c : Byte} {i : Instr} (h : commandOf p.cmdId c = some i) :
    decode p ⟨.cmd, c.setWidth 32⟩ = .instr i := by
  simp only [setWidth_eq_byteWord, decode, decodeCmd, byteWord, labelOf_packWord, h]
  simp [byteOnly]

end Sys2Proof

namespace Sys2Proof.Machine

/-- Every row of the unknown selectors is the one response of R109. -/
theorem exec_unknownRow {c : Byte} {i : Instr} (h : unknownRow c = some i) (s : State) :
    exec i s = unknownSelector c s := by
  unfold unknownRow at h
  split_ifs at h <;> cases h <;> rfl

/-- A command that raises at once sends its status byte and ends, where the host drains (R290). -/
theorem raise_startCommand_ended {s : State} (hd : s.Drains) (st : Status) (c : Byte) :
    raise st (startCommand c s) = s.ended [statusCode st] :=
  raise_ended (s := startCommand c s) hd st

theorem unknownSelector_ended {s : State} (hf : s.Free) (hd : s.Drains) (c : Byte) :
    unknownSelector c s = .next (s.ended [0x01]) := by
  rw [unknownSelector, begin_free hf.clean hf.idle, raise_startCommand_ended hd, statusCode]

theorem exec_writeRtc_ended {s : State} (hf : s.Free) (hd : s.Drains) : exec .writeRtc s = .next (s.ended [0x18]) := by
  rw [exec, execWriteRtc, begin_free hf.clean hf.idle, raise_startCommand_ended hd, statusCode]

/-- Settles O3: six distinct bytes below 6 leave no byte without an operation, and a selector that reads no header raises. -/
theorem selectorSpaceIsTotal : Obligations.SelectorSpaceIsTotal := by
  unfold Obligations.SelectorSpaceIsTotal
  intro p c hw
  have hids := p.cmdId_wf hw
  obtain ⟨i, hi⟩ := commandOf_total hids c
  have names {j : Instr} (h : p.cmdId.command c = some j) : i = j :=
    Option.some.inj (hi.symm.trans (commandOf_command h))
  obtain ⟨h1, h2, h3, h4, h5, h6⟩ := command_ids hids
  refine ⟨i, decode_selector hi, fun e => names (e ▸ h1), fun e => names (e ▸ h2), fun e => names (e ▸ h3),
    fun e => names (e ▸ h4), fun e => names (e ▸ h5), fun e => names (e ▸ h6), ?_, ?_⟩
  · intro e s hf hd
    rw [names (e ▸ h6)]
    exact exec_writeRtc_ended hf hd
  · intro hc s hf hd
    rw [exec_unknownRow ((commandOf_unknown hids hc).symm.trans hi), unknownSelector_ended hf hd]

end Sys2Proof.Machine
end

section
/-! PROOFS. What operations do to the signal register BSS: below the command layer an operation is one sequence of micro-steps
(`BusOp`), and a command uses the bus only by operations that end with `reset()` (`BusKept`; 10_state.md R25). -/

namespace Sys2Proof.Machine

/-! ### Lines at rest -/

theorem State.RestsButSerial.ready {s : State} (h : s.RestsButSerial) : s.bss.Ready s.params.levels :=
  ⟨congrArg Bss.dinLoad h, congrArg Bss.doutOe h, congrArg Bss.rd h, congrArg Bss.addrLatch h, congrArg Bss.doutLatch h⟩

theorem State.RestsButSerial.bss_eq {s : State} (h : s.RestsButSerial) :
    s.bss = { safeBss s.params.levels with addrSer := s.bss.addrSer, doutSer := s.bss.doutSer } := by rw [← h]

theorem State.AtRest.restsButSerial {s : State} (h : s.AtRest) : s.RestsButSerial := by
  rw [State.AtRest] at h
  rw [State.RestsButSerial, h]
  rfl

theorem BusDone.atRest {s t : State} {es : List BusWrite} {n : Nat} (h : BusDone s t es n) : t.AtRest :=
  h.rest.trans (congrArg (fun p : Params => safeBss p.levels) h.same.params.symm)

section primitives
variable {s : State} (h : s.RestsButSerial)
include h

/-- The primitives and cells leave every line at rest but the serial ones, where they find them so (40_busdriver.md R136). -/
theorem restsButSerial_shiftOutAddress (a : Addr) : (run (shiftOutAddressSeq a) s).RestsButSerial := by
  rw [run_shiftOutAddress a s ⟨h.ready.load, .inl h.ready.oe⟩ h.ready.aLatch]
  rw [State.RestsButSerial, State.addressed, h.bss_eq]
  rfl

theorem restsButSerial_shiftOutData (d : Byte) : (run (shiftOutDataSeq s.params d) s).RestsButSerial := by
  rw [run_shiftOutData d s h.ready.load h.ready.rd h.ready.dLatch]
  rw [State.RestsButSerial, State.dataSent, h.bss_eq]
  rfl

theorem restsButSerial_shiftInData : (run (shiftInDataSeq s.params) s).RestsButSerial := by
  rw [run_shiftInData s (.inl h.ready.oe)]
  rw [State.RestsButSerial, State.dataTaken, h.bss_eq]
  rfl

theorem restsButSerial_registerWrite (a : Addr) (d : Byte) : (run (registerWriteSeq s.params a d) s).RestsButSerial := by
  have ha := restsButSerial_shiftOutAddress h a
  have hp := (run_untouched (shiftOutAddressSeq a) s).params
  rw [registerWriteSeq, run_append, ← hp]
  exact restsButSerial_shiftOutData ha d

theorem restsButSerial_readCell (a : Addr) : (run (readCellSeq s.params a) s).RestsButSerial := by
  rw [run_readCell a s h.ready.load h.ready.oe h.ready.aLatch]
  rw [State.RestsButSerial, State.cellRead, h.bss_eq]
  rfl

end primitives

/-! ### Operations below the command layer -/

/-- What such an operation has done when it answers: a sequence of micro-steps that stores inside BankBuffer and met no second
driver, and the lines are back at rest; after a cartridge-level one they stand at SAFE (10_state.md R25, 40_busdriver.md R136). -/
structure BusOp (i : Instr) (s t : State) : Prop where
  ran    : ∃ ms : List Micro, ms.all (Micro.below romBankSize) = true ∧ run ms s = t
  clean  : t.contention = false
  serial : s.RestsButSerial → t.RestsButSerial
  rest   : cartridgeLevel i = true → s.AtRest ∨ startsWithReset i = true → t.AtRest

theorem BusOp.untouched {i : Instr} {s t : State} (h : BusOp i s t) : Untouched s t := by
  obtain ⟨ms, -, rfl⟩ := h.ran
  exact run_untouched ms s

theorem BusOp.busWrites {i : Instr} {s t : State} (h : BusOp i s t) : s.busWrites <+: t.busWrites := by
  obtain ⟨ms, -, rfl⟩ := h.ran
  exact run_busWrites ms s

/-- An operation of files 41 to 44 that ends with `reset()`. -/
theorem BusDone.busOp {i : Instr} {s : State} {ms : List Micro} {es : List BusWrite} {n : Nat}
    (hb : ms.all (Micro.below romBankSize) = true) (hf : s.Free) (h : BusDone s (run ms s) es n) : BusOp i s (run ms s) :=
  ⟨⟨ms, hb, rfl⟩, (h.free hf).clean, fun _ => h.atRest.restsButSerial, fun _ _ => h.atRest⟩

/-- A primitive or a cell, which may have met a second driver. -/
theorem busOp_of_conclude {i : Instr} {s t : State} {ms : List Micro} (hi : cartridgeLevel i = false)
    (hb : ms.all (Micro.below romBankSize) = true) (hr : s.RestsButSerial → (run ms s).RestsButSerial)
    (h : conclude (run ms s) = .next t) : BusOp i s t := by
  obtain ⟨hc, rfl⟩ := conclude_next h
  exact ⟨⟨ms, hb, rfl⟩, hc, hr, by simp [hi]⟩

/-- `register_write`, `write_cell` and the twelve register rows are one transaction. -/
theorem busOp_regwTransaction {i : Instr} {s t : State} {reg : Params → Addr} {d : Byte} (hi : cartridgeLevel i = false)
    (h : regwTransaction reg d s = .next t) : BusOp i s t :=
  have ⟨_, _, hk⟩ := begin_next h
  busOp_of_conclude hi (registerWriteSeq_below _ _ _ _) (restsButSerial_registerWrite · _ _) hk

/-- An operation that cannot stop once it has begun. -/
theorem begin_total {s t : State} {f : State → State} (h : begin s (fun s => .next (f s)) = .next t) : t = f s :=
  have ⟨_, _, hk⟩ := begin_next h
  (Host.Outcome.next.inj hk).symm

/-! ### What the command layer keeps of the bus -/

/-- From s to t the bus was used, if at all, by operations that end with `reset()`: SAFE is kept, and no event is taken back. -/
structure BusKept (s t : State) : Prop where
  rest   : s.AtRest → t.AtRest
  events : s.busWrites <+: t.busWrites

theorem BusKept.trans {s t u : State} (h : BusKept s t) (k : BusKept t u) : BusKept s u :=
  ⟨fun r => k.rest (h.rest r), h.events.trans k.events⟩

/-- Nothing on the bus: parameters, BSS and events are the same. -/
theorem BusKept.of_eq {s t : State} (hp : t.params = s.params) (hb : t.bss = s.bss) (he : t.busWrites = s.busWrites) :
    BusKept s t :=
  ⟨fun r => by rw [State.AtRest, hp, hb]; exact r, he ▸ List.prefix_refl _⟩

theorem BusKept.refl (s : State) : BusKept s s := .of_eq rfl rfl rfl

theorem BusDone.busKept {s t : State} {es : List BusWrite} {n : Nat} (h : BusDone s t es n) : BusKept s t :=
  ⟨fun _ => h.atRest, h.events ▸ List.prefix_append _ _⟩

theorem busKept_sendThen {k : State → State} (hk : ∀ t, BusKept t (k t)) (bs : List Byte) (next : AfterSend) (s : State) :
    BusKept s (sendThen bs next k s) :=
  sendThen_ind bs next k s (BusKept.trans (t := txBytes bs s) (.of_eq rfl rfl rfl) (hk _)) fun _ _ _ => .of_eq rfl rfl rfl

theorem busKept_streamFrom (kind : ReadKind) (v : Variant) (n left : Nat) : ∀ s : State,
    BusKept s (streamFrom kind v n left s) := by
  induction left with
  | zero => exact fun s => .of_eq rfl rfl rfl
  | succ left ih =>
    intro s
    obtain ⟨es, m, d⟩ := finishes_bank kind v s (bankOperand (n - (left + 1)))
    exact d.busKept.trans (busKept_sendThen ih _ _ _)

theorem finishes_writeRam (s : State) (v : Variant) (bank : BankOperand) (data : Nat → Byte) :
    ∃ es n, BusDone s (run (writeRamSeq s.params v bank data) s) es n := by
  rw [run_writeRam]
  exact ⟨_, _, done_ramWritten s v _ data⟩

theorem busKept_commit (up : Upload) (len : Length) (bank : Nat) (s : State) : BusKept s (commitBank up len bank s) := by
  obtain ⟨es, m, d⟩ := finishes_writeRam s up.variant (bankOperand bank) s.readBuffer
  rw [commitBank]
  split
  · exact d.busKept.trans (.of_eq rfl rfl rfl)
  · exact d.busKept.trans (.of_eq rfl rfl rfl)

theorem busKept_proceed (next : AfterSend) (s : State) : BusKept s (proceed next s) := by
  cases next with
  | nextBank kind v n left => exact busKept_streamFrom kind v n left s
  | commit up len bank => exact busKept_commit up len bank s
  | returned | ended | length _ | data _ _ _ _ => exact .of_eq rfl rfl rfl

theorem busKept_transmit (bs : List Byte) (next : AfterSend) (s : State) : BusKept s (transmit bs next s) :=
  busKept_sendThen (busKept_proceed next) bs next s

theorem busKept_acceptByte (x : Byte) (s : State) : BusKept s (acceptByte x s) := by
  unfold acceptByte
  split
  · exact .refl s
  · unfold acceptLengthByte
    split
    · unfold lengthReceived
      split
      · exact busKept_transmit _ _ s
      · exact busKept_transmit [statusCode .invalidRamWriteSize] .ended s
    · exact .of_eq rfl rfl rfl
  · next off _ => exact BusKept.trans (t := storeByte off x s) (.of_eq rfl rfl rfl) (busKept_transmit _ _ _)
  · exact .refl s

theorem busKept_takeBytes (xs : List Byte) : ∀ s : State, BusKept s (takeBytes xs s) := by
  induction xs with
  | nil => exact fun s => .of_eq rfl rfl rfl
  | cons x xs ih =>
    intro s
    cases h : s.control.takes with
    | true => rw [takeBytes_cons h]; exact (busKept_acceptByte x s).trans (ih _)
    | false => rw [takeBytes_stop h]; exact .of_eq rfl rfl rfl

theorem busKept_resumeCommand (s : State) : BusKept s (resumeCommand s) := busKept_takeBytes s.rx s

end Sys2Proof.Machine
end

section
/-! PROOFS. The invariant but for the position (`State.Sound`), who owns a position, and what a command does before it sends
anything (`Work`): each with the lemmas by which an operation keeps it. -/

namespace Sys2Proof.Machine

/-! ### The invariant but for the position -/

/-- The invariant without what it says of the control position: what holds in the middle of a command as well. -/
structure State.Sound (s : State) : Prop where
  clean      : s.contention = false
  rests      : s.RestsButSerial
  bufferWf   : Memory.wf s.bankBuffer = true
  bufferSize : Memory.within romBankSize s.bankBuffer = true
  reportWf   : Memory.wf s.reportBuf = true
  reportSize : Memory.within reportMax s.reportBuf = true
  drained    : s.txDrained ≤ s.tx.length
  cartWf     : s.cart.wf = true

theorem State.Inv.sound {s : State} (h : s.Inv) : s.Sound :=
  ⟨h.clean, h.rests, h.bufferWf, h.bufferSize, h.reportWf, h.reportSize, h.drained, h.cartWf⟩

theorem State.Sound.inv {s : State} (h : s.Sound) (hl : s.control.legal = true) (hp : s.OwnsPosition) : s.Inv :=
  ⟨h.clean, h.rests, h.bufferWf, h.bufferSize, h.reportWf, h.reportSize, hl, hp, h.drained, h.cartWf⟩

/-- Sent bytes, the position, the working values and the inputs are no part of it. -/
theorem State.Sound.elsewhere {s t : State} (h : s.Sound)
    (e : t = { s with tx := t.tx, txSpace := t.txSpace, control := t.control, selector := t.selector,
                      descriptor := t.descriptor, v := t.v, rx := t.rx, pending := t.pending, bench := t.bench })
    (htx : s.tx <+: t.tx) : t.Sound where
  clean := (congrArg (fun u : State => u.contention) e).trans h.clean
  rests := by
    have hb : t.bss = s.bss := by rw [e]
    have hp : t.params = s.params := by rw [e]
    rw [State.RestsButSerial, hb, hp]
    exact h.rests
  bufferWf := (congrArg (fun u : State => Memory.wf u.bankBuffer) e).trans h.bufferWf
  bufferSize := (congrArg (fun u : State => Memory.within romBankSize u.bankBuffer) e).trans h.bufferSize
  reportWf := (congrArg (fun u : State => Memory.wf u.reportBuf) e).trans h.reportWf
  reportSize := (congrArg (fun u : State => Memory.within reportMax u.reportBuf) e).trans h.reportSize
  drained := (congrArg (fun u : State => u.txDrained) e).le.trans (h.drained.trans htx.length_le)
  cartWf := (congrArg (fun u : State => u.cart.wf) e).trans h.cartWf

theorem State.Sound.memoriesWf {s : State} (h : s.Sound) : MemoriesWf s := ⟨h.bufferWf, h.reportWf, h.cartWf⟩

theorem State.Sound.run {s : State} {ms : List Micro} (h : s.Sound) (hb : ms.all (Micro.below romBankSize) = true)
    (hc : (run ms s).contention = false) (hr : (run ms s).RestsButSerial) : (run ms s).Sound where
  clean := hc
  rests := hr
  bufferWf := (run_memoriesWf ms h.memoriesWf).buffer
  bufferSize := run_within _ ms s hb h.bufferSize
  reportWf := (run_memoriesWf ms h.memoriesWf).report
  reportSize := (run_untouched ms s).reportBuf ▸ h.reportSize
  drained := (run_untouched ms s).txDrained ▸ (run_untouched ms s).tx ▸ h.drained
  cartWf := (run_memoriesWf ms h.memoriesWf).cart

theorem State.Sound.done {s : State} {ms : List Micro} {es : List BusWrite} {n : Nat} (h : s.Sound)
    (hb : ms.all (Micro.below romBankSize) = true) (d : BusDone s (Machine.run ms s) es n) : (Machine.run ms s).Sound :=
  h.run hb (d.same.contention.trans h.clean) d.atRest.restsButSerial

theorem BusOp.sound {i : Instr} {s t : State} (h : BusOp i s t) (hs : s.Sound) : t.Sound := by
  obtain ⟨ms, hb, rfl⟩ := h.ran
  exact hs.run hb h.clean (h.serial hs.rests)

theorem State.Sound.storeByte {s : State} (h : s.Sound) {off : Nat} (ho : off < romBankSize) (x : Byte) :
    (storeByte off x s).Sound :=
  ⟨h.clean, h.rests, Memory.write_wf _ _ _ h.bufferWf, Memory.write_within _ _ _ _ ho h.bufferSize, h.reportWf, h.reportSize,
    h.drained, h.cartWf⟩

theorem State.Sound.parseBuffer {s : State} (h : s.Sound) : (parseBuffer s).Sound :=
  h.elsewhere rfl (List.prefix_refl _)

theorem State.Sound.writeReport {s : State} (h : s.Sound) {r : List Byte} (hr : r.length ≤ reportMax) :
    (writeReport r s).Sound :=
  ⟨h.clean, h.rests, h.bufferWf, h.bufferSize, Memory.writeBytes_wf _ _ _ h.reportWf,
    Memory.writeBytes_within _ _ _ _ (by omega) h.reportSize, h.drained, h.cartWf⟩

theorem renderReport_length_le (d : Descriptor) : (renderReport d).length ≤ reportMax := by
  have h : 1 ≤ reportMax := Nat.le_max_left _ _
  rw [renderReport, List.length_cons, List.length_take]
  omega

/-! ### The command that runs -/

theorem State.Runs.mono {s t : State} {c : Byte} (h : s.Runs c) (hr : s.AtRest → t.AtRest)
    (hs : t.selector = s.selector) (hd : t.descriptor = s.descriptor) : t.Runs c :=
  ⟨hr h.rest, hs.trans h.selector, hd ▸ h.descriptor⟩

/-- A send stays its operation's while SAFE, the parameters and the working values are kept. -/
theorem State.OwnsSend.mono {s t : State} {next : AfterSend} (h : s.OwnsSend next) (hr : s.AtRest → t.AtRest)
    (hp : t.params = s.params) (hs : t.selector = s.selector) (hd : t.descriptor = s.descriptor) : t.OwnsSend next := by
  cases next with
  | returned => exact hs.trans h
  | ended => trivial
  | nextBank _ _ _ _ | length _ | data _ _ _ _ | commit _ _ _ =>
    rw [State.OwnsSend] at h ⊢
    exact hp ▸ h.mono hr hs hd

theorem State.OwnsPosition.mono {s t : State} (h : s.OwnsPosition) (hc : t.control = s.control) (hr : s.AtRest → t.AtRest)
    (hp : t.params = s.params) (hs : t.selector = s.selector) (hd : t.descriptor = s.descriptor) : t.OwnsPosition := by
  unfold State.OwnsPosition at h ⊢
  rw [hc]
  split at h
  · exact hs.trans h
  · exact hp ▸ h.mono hr hs hd
  · exact hp ▸ h.mono hr hs hd
  · exact h.mono hr hp hs hd

theorem BusDone.ownsSend {s t : State} {next : AfterSend} {es : List BusWrite} {n : Nat} (d : BusDone s t es n)
    (h : s.OwnsSend next) : t.OwnsSend next :=
  h.mono (fun _ => d.atRest) d.same.params d.same.selector d.same.descriptor

/-! ### The work of a command before its first send -/

/-- From s to u, before it sends anything, the operation i only used the bus and its own working values; ReportBuf is
`parse_header`'s alone. -/
structure Work (i : Instr) (s u : State) : Prop where
  rest   : startsWithReset i = true → u.AtRest
  bus    : BusKept s u
  kept   : Progress { s with reportBuf := u.reportBuf } u
  report : i ≠ .parseHeader → u.reportBuf = s.reportBuf
  sound  : s.Sound → u.Sound

/-- A STATUS row has nothing to do before it sends. -/
theorem work_none {i : Instr} (hi : startsWithReset i = false) (s : State) : Work i s s :=
  ⟨by simp [hi], .refl s, .refl s, fun _ => rfl, id⟩

/-- A command that reads no header. -/
theorem work_startCommand {i : Instr} (hi : startsWithReset i = false) (c : Byte) (s : State) :
    Work i s (startCommand c s) :=
  ⟨by simp [hi], .of_eq rfl rfl rfl, ⟨rfl, rfl, List.prefix_refl _, rfl, rfl, rfl, rfl⟩, fun _ => rfl,
    fun h => h.elsewhere rfl (List.prefix_refl _)⟩

/-- The state from which every command that reads the header goes on (46_command_protocol.md R243). -/
def State.described (s : State) (c : Byte) : State := readDescriptor (startCommand c s)

theorem described_fields {s : State} (hf : s.Free) (c : Byte) : DescribedFields c s (s.described c) := (describe hf c).fields

theorem described_runs {s : State} (hf : s.Free) (c : Byte) : (s.described c).Runs c :=
  have k := described_fields hf c
  ⟨k.rest, k.selector, k.descriptor ▸ rfl⟩

theorem described_sound {s : State} (h : s.Sound) (c : Byte) : (s.described c).Sound := by
  have hc : (startCommand c s).Sound := h.elsewhere rfl (List.prefix_refl _)
  have d := done_headerRead (startCommand c s)
  rw [← run_readHeader] at d
  exact (hc.done (readHeaderSeq_below _) d).parseBuffer

theorem busKept_parseBuffer (s : State) : BusKept s (parseBuffer s) := .of_eq rfl rfl rfl

theorem busKept_described (s : State) (c : Byte) : BusKept s (s.described c) := by
  have h : BusKept s (startCommand c s) := .of_eq rfl rfl rfl
  rw [State.described, readDescriptor_eq]
  exact (h.trans (done_headerRead _).busKept).trans (busKept_parseBuffer _)

theorem DescribedFields.progress {c : Byte} {s h : State} (k : DescribedFields c s h) : Progress s h :=
  ⟨k.params, k.reportBuf, k.tx ▸ List.prefix_refl _, k.txDrained, k.rx, k.pending, k.bench⟩

theorem Progress.asideReport {s u : State} (k : Progress s u) : Progress { s with reportBuf := u.reportBuf } u :=
  ⟨k.params, rfl, k.tx, k.txDrained, k.rx, k.pending, k.bench⟩

theorem work_described (i : Instr) {s : State} (hf : s.Free) (c : Byte) : Work i s (s.described c) :=
  have k := described_fields hf c
  ⟨fun _ => k.rest, busKept_described s c, k.progress.asideReport, fun _ => k.reportBuf, fun h => described_sound h c⟩

/-- More bus work of an operation that ends with `reset()`. -/
theorem Work.run {i : Instr} {s u : State} {ms : List Micro} {es : List BusWrite} {n : Nat} (w : Work i s u)
    (hb : ms.all (Micro.below romBankSize) = true) (d : BusDone u (run ms u) es n) : Work i s (run ms u) where
  rest _ := d.atRest
  bus := w.bus.trans d.busKept
  kept :=
    have p := progress_run ms u
    ⟨p.params.trans w.kept.params, rfl, w.kept.tx.trans p.tx, p.txDrained.trans w.kept.txDrained, p.rx.trans w.kept.rx,
      p.pending.trans w.kept.pending, p.bench.trans w.kept.bench⟩
  report hi := d.same.reportBuf.trans (w.report hi)
  sound h := (w.sound h).done hb d

/-- The report, rendered into ReportBuf. -/
theorem Work.writeReport {s u : State} (w : Work .parseHeader s u) (d : Descriptor) :
    Work .parseHeader s (writeReport (renderReport d) u) where
  rest h := w.rest h
  bus := w.bus.trans (.of_eq rfl rfl rfl)
  kept := ⟨w.kept.params, rfl, w.kept.tx, w.kept.txDrained, w.kept.rx, w.kept.pending, w.kept.bench⟩
  report h := absurd rfl h
  sound h := (w.sound h).writeReport (renderReport_length_le d)

/-! ### The bank counts of the header -/

theorem familyCheck_passed {d : Descriptor} {n m : Nat} {v : Variant} (e : familyCheck d n = .passed v m) : n = m := by
  unfold familyCheck at e
  split at e
  · cases e
  · cases e; rfl

theorem rom_counts {h : State} {v : Variant} {n : Nat} (e : romCheck h.bufferDescriptor = .passed v n) :
    ReadKind.rom.counts n = true := by
  have hb : romBanksOf (h.readBuffer 0x48) = .banks n := by
    unfold romCheck at e
    split at e
    · cases e
    · next m hm => exact familyCheck_passed e ▸ hm
  unfold romBanksOf at hb
  split at hb
  · next hc =>
    cases hb
    generalize (h.readBuffer 0x48).toNat = k at hc ⊢
    interval_cases k <;> rfl
  · cases hb

/-- A RAM count that passes is above 0, since code 0 is refused before (60_exceptions.md R291). -/
theorem ram_counts {h : State} {v : Variant} {n : Nat} (e : ramCheck h.bufferDescriptor = .passed v n) :
    ReadKind.ram.counts n = true := by
  unfold ramCheck at e
  split at e
  · cases e
  · next hn =>
    have hz : h.readBuffer 0x49 ≠ 0 := fun z => hn (.inl z)
    have hb : ramBanksOf (h.readBuffer 0x49) = .banks n := by
      split at e
      · cases e
      · next m hm => exact familyCheck_passed e ▸ hm
    unfold ramBanksOf at hb
    rw [if_neg hz] at hb
    split_ifs at hb <;> cases hb <;> rfl

theorem upload_legal {v : Variant} {n : Nat} (h : ReadKind.ram.counts n = true) : Upload.legal ⟨v, n⟩ = true := by
  simpa [ReadKind.counts, Upload.legal, or_assoc] using h

theorem ReadKind.counts_pos {kind : ReadKind} {n : Nat} (h : kind.counts n = true) : 0 < n := by
  apply Nat.pos_of_ne_zero
  rintro rfl
  cases kind <;> exact absurd h (by decide)

end Sys2Proof.Machine
end

section
/-! PROOFS. What an operation can do, said once for all 54 rows (`exec_effect`), and what a step can do (`step_next`). Below the
command layer an operation is a `BusOp`; a command or a STATUS row is `Work` and then one send, with what follows the send as a
value, so that a finished and a held operation are one case. -/

namespace Sys2Proof.Machine

/-- What an operation that answers t from s has done. A send that fits goes on with `next` at once and one that does not is held
with it, so `transmit` is the rest of the operation; only `write_ram` takes bytes after its send. -/
inductive Effect (s : State) (i : Instr) (t : State) : Prop
  | bus (b : BusOp i s t)
  | parsed (hi : i = .parse) (ht : t = parseBuffer s)
  | sent (u : State) (bs : List Byte) (next : AfterSend) (w : Work i s u)
      (hf : (Laws.RowFormat.row i).1 = .cmd ∨ (Laws.RowFormat.row i).1 = .status) (hl : next.legal = true)
      (ho : s.selector = none → u.OwnsSend next) (ht : t = transmit bs next u)
  | uploading (u : State) (bs : List Byte) (up : Upload) (hi : i = .writeRam) (w : Work i s u) (hl : up.legal = true)
      (hr : u.Runs u.params.cmdId.writeRam) (ht : t = resumeCommand (transmit bs (.length up) u))

/-- A command that has read the header runs, under the selector `CMD_ID` gives it. -/
theorem described_runs_own {s : State} (hf : s.Free) (c : CommandIds → Byte) :
    (s.described (c s.params.cmdId)).Runs (c (s.described (c s.params.cmdId)).params.cmdId) := by
  rw [(described_fields hf (c s.params.cmdId)).params]
  exact described_runs hf _

theorem readSeq_below (kind : ReadKind) (p : Params) (v : Variant) (bank : BankOperand) :
    (kind.seq p v bank).all (Micro.below romBankSize) = true := by
  cases kind with
  | rom => exact readRomSeq_below p v bank
  | ram => exact readRamSeq_below p v bank

section effect
variable {i : Instr} {s u : State}

/-- An operation that raises a status after its work (60_exceptions.md R290). -/
theorem effect_raise (w : Work i s u) (hf : (Laws.RowFormat.row i).1 = .cmd ∨ (Laws.RowFormat.row i).1 = .status)
    (st : Status) : Effect s i (raise st u) :=
  .sent u [statusCode st] .ended w hf rfl (fun _ => trivial) rfl

/-- A streamed payload: the first bank is read, and its send begins (46_command_protocol.md R245, R246). -/
theorem effect_stream (w : Work i s u) (hf : (Laws.RowFormat.row i).1 = .cmd) {kind : ReadKind}
    {v : Variant} {n : Nat} (hn : kind.counts n = true) (ho : u.OwnsSend (.nextBank kind v n n)) :
    Effect s i (streamFrom kind v n n u) := by
  obtain ⟨left, rfl⟩ : ∃ left, n = left + 1 := ⟨n - 1, by have := kind.counts_pos hn; omega⟩
  obtain ⟨es, m, d⟩ := finishes_bank kind v u (bankOperand (left + 1 - (left + 1)))
  have ho' := d.ownsSend (next := .nextBank kind v (left + 1) left) ho
  have hl : (AfterSend.nextBank kind v (left + 1) left).legal = true := by simp [AfterSend.legal, hn]
  exact .sent _ _ _ (w.run (readSeq_below kind u.params v _) d) (.inl hf) hl (fun _ => ho') rfl

theorem effect_answerReport (w : Work .parseHeader s u) : Effect s .parseHeader (answerReport u) :=
  .sent _ _ .ended (w.writeReport _) (.inl rfl) rfl (fun _ => trivial) rfl

theorem effect_answerRom (w : Work .readRom s u) (hr : u.Runs u.params.cmdId.readRom) : Effect s .readRom (answerRom u) := by
  cases e : romCheck u.bufferDescriptor with
  | raised st => rw [answerRom_raised e]; exact effect_raise w (.inl rfl) st
  | passed v n => rw [answerRom_passed e]; exact effect_stream w rfl (rom_counts e) hr

theorem effect_answerRam (w : Work .readRam s u) (hr : u.Runs u.params.cmdId.readRam) : Effect s .readRam (answerRam u) := by
  cases e : ramCheck u.bufferDescriptor with
  | raised st => rw [answerRam_raised e]; exact effect_raise w (.inl rfl) st
  | passed v n => rw [answerRam_passed e]; exact effect_stream w rfl (ram_counts e) hr

theorem effect_answerUpload (w : Work .writeRam s u) (hr : u.Runs u.params.cmdId.writeRam) :
    Effect s .writeRam (answerUpload u) := by
  cases e : ramCheck u.bufferDescriptor with
  | raised st => rw [answerUpload_raised e]; exact effect_raise w (.inl rfl) st
  | passed v n => rw [answerUpload_passed e]; exact .uploading u _ _ rfl w (upload_legal (ram_counts e)) hr rfl

theorem effect_answerRtc (w : Work .readRtc s u) : Effect s .readRtc (answerRtc u) := by
  rw [answerRtc]
  split
  · have d := done_rtcRead u
    rw [← run_readRtc] at d
    have w' := w.run (readRtcSeq_below u.params) d
    generalize run (mbc3ReadRtcSeq u.params) u = r at w' ⊢
    exact .sent r (frameHeader .ok 5 ++ r.bufferBytes 5) .ended w' (.inl rfl) rfl (fun _ => trivial) rfl
  · exact effect_raise w (.inl rfl) _

end effect

/-- An operation of files 40 to 44 whose answer is known. -/
theorem busOp_of_exec {i : Instr} {s t u : State} {ms : List Micro} {es : List BusWrite} {n : Nat}
    (e : exec i s = .next u) (r : run ms s = u) (hb : ms.all (Micro.below romBankSize) = true) (d : BusDone s u es n)
    (h : exec i s = .next t) : BusOp i s t := by
  subst r
  cases e.symm.trans h
  exact d.busOp hb (exec_free h)

theorem busOp_readBank {kind : ReadKind} {v : Variant} {bank : BankOperand} {s t : State}
    (h : exec (kind.op v bank) s = .next t) : BusOp (kind.op v bank) s t :=
  have ⟨_, _, d⟩ := finishes_bank kind v s bank
  busOp_of_exec (exec_bank (exec_free h) kind v bank) rfl (readSeq_below kind _ v bank) d h

theorem busOp_writeBank {v : Variant} {bank : BankOperand} {s t : State} (h : exec (writeRamOf v bank) s = .next t) :
    BusOp (writeRamOf v bank) s t :=
  busOp_of_exec (exec_writeRam (exec_free h) v bank) (run_writeRam s v bank s.readBuffer) (writeRamSeq_below _ _ _ _)
    (done_ramWritten s v _ _) h

/-- The selectors that are no command. -/
theorem effect_unknownSelector {i : Instr} {s t : State} {c : Byte} (hr : startsWithReset i = false)
    (hf : (Laws.RowFormat.row i).1 = .cmd) (h : unknownSelector c s = .next t) : Effect s i t :=
  begin_total h ▸ effect_raise (work_startCommand hr c s) (.inl hf) _

/-- The STATUS rows but OK. -/
theorem effect_raiseAlone {i : Instr} {s t : State} {st : Status} (hr : startsWithReset i = false)
    (hf : (Laws.RowFormat.row i).1 = .status) (h : raiseAlone st s = .next t) : Effect s i t :=
  begin_total h ▸ effect_raise (work_none hr s) (.inr hf) st

/-- Every operation that answers does one of these. -/
theorem exec_effect {i : Instr} {s t : State} (h : exec i s = .next t) : Effect s i t := by
  have hf := exec_free h
  cases i with
  | parseHeader =>
    change execParseHeader s = _ at h
    have e : t = answerReport (s.described s.params.cmdId.parseHeader) := (begin_total h :)
    rw [e]
    exact effect_answerReport (work_described _ hf _)
  | readRom =>
    change execReadRom s = _ at h
    have e : t = answerRom (s.described s.params.cmdId.readRom) := (begin_total h :)
    rw [e]
    exact effect_answerRom (work_described _ hf _) (described_runs_own hf CommandIds.readRom)
  | readRam =>
    change execReadRam s = _ at h
    have e : t = answerRam (s.described s.params.cmdId.readRam) := (begin_total h :)
    rw [e]
    exact effect_answerRam (work_described _ hf _) (described_runs_own hf CommandIds.readRam)
  | writeRam =>
    change execWriteRam s = _ at h
    have e : t = answerUpload (s.described s.params.cmdId.writeRam) := (begin_total h :)
    rw [e]
    exact effect_answerUpload (work_described _ hf _) (described_runs_own hf CommandIds.writeRam)
  | readRtc =>
    change execReadRtc s = _ at h
    have e : t = answerRtc (s.described s.params.cmdId.readRtc) := (begin_total h :)
    rw [e]
    exact effect_answerRtc (work_described _ hf _)
  | writeRtc =>
    change execWriteRtc s = _ at h
    have e : t = raise .invalidRtcWriteSize (startCommand s.params.cmdId.writeRtc s) := (begin_total h :)
    rw [e]
    exact effect_raise (i := .writeRtc) (work_startCommand rfl _ s) (.inl rfl) _
  | unknown0607 c | unknown080F c | unknown101F c | unknown203F c | unknown407F c | unknown80FF c =>
    exact effect_unknownSelector rfl rfl h
  | reset =>
    have e : execReset s = .next (driveSafe s) := begin_free hf.clean hf.idle _
    have d : BusDone s (driveSafe s) [] 1 := driveSafe_eq s ▸ (bused_safeDriven s).toDone rfl
    exact .bus (busOp_of_exec e (ms := [.safe]) rfl rfl d h)
  | shiftOutAddress a =>
    change execShiftOutAddress a s = _ at h
    obtain ⟨-, -, hk⟩ := begin_next h
    exact .bus (busOp_of_conclude rfl (shiftOutAddressSeq_below _ a) (restsButSerial_shiftOutAddress · a) hk)
  | shiftOutData d =>
    change execShiftOutData d s = _ at h
    obtain ⟨-, -, hk⟩ := begin_next h
    exact .bus (busOp_of_conclude rfl (shiftOutDataSeq_below _ _ d) (restsButSerial_shiftOutData · d) hk)
  | shiftInData =>
    change execShiftInData s = _ at h
    obtain ⟨-, -, hk⟩ := begin_next h
    exact .bus (busOp_of_conclude rfl (shiftInDataSeq_below _ _) restsButSerial_shiftInData hk)
  | readCell a =>
    change execReadCell a s = _ at h
    obtain ⟨-, -, hk⟩ := begin_next h
    exact .bus (busOp_of_conclude rfl (readCellSeq_below _ _ a) (restsButSerial_readCell · a) hk)
  | registerWrite a d => exact .bus (busOp_regwTransaction (reg := fun _ => a) (d := d) rfl h)
  | writeCell a d => exact .bus (busOp_regwTransaction (reg := fun _ => a) (d := d) rfl h)
  | regwM1Ramg _ | regwM1Bank1 _ | regwM1Bank2 _ | regwM1Mode _ | regwM3Ramg _ | regwM3Romb _ | regwM3Ramb _ | regwM3Latch _
  | regwM5Ramg _ | regwM5Romb0 _ | regwM5Romb1 _ | regwM5Ramb _ => exact .bus (busOp_regwTransaction rfl h)
  | parse =>
    change execParse s = _ at h
    exact .parsed rfl (begin_total h)
  | statusOk =>
    change execStatusOk s = _ at h
    exact .sent s (frameHeader .ok 0) .returned (work_none rfl s) (.inr rfl) rfl id (begin_total h)
  | statusUnknownCommand | statusInvalidNumRomBanks | statusInvalidNumRamBanks | statusInvalidCartridgeType
  | statusInvalidRamWriteSize | statusCartridgeHasNoRam | statusCartridgeHasNoRtc | statusInvalidRtcWriteSize =>
    exact effect_raiseAlone rfl rfl h
  | resetCartridge v =>
    have d := (bused_cartridgeReset s v).toDone (congrArg (fun p : Params => safeBss p.levels) (cartridgeReset_params s v))
    exact .bus (busOp_of_exec (exec_resetCartridge hf v) (run_resetCartridge v s) (resetCartridgeSeq_below _ _ _) d h)
  | mbc1ReadHeader =>
    exact .bus (busOp_of_exec (exec_mbc1ReadHeader hf) (run_readHeader s) (readHeaderSeq_below _) (done_headerRead s) h)
  | mbc3ReadRtc =>
    exact .bus (busOp_of_exec (exec_mbc3ReadRtc hf) (run_readRtc s) (readRtcSeq_below _) (done_rtcRead s) h)
  | mbc1ReadRom bank => exact .bus (busOp_readBank (kind := .rom) (v := .mbc1) h)
  | mbc3ReadRom bank => exact .bus (busOp_readBank (kind := .rom) (v := .mbc3) h)
  | mbc5ReadRom bank => exact .bus (busOp_readBank (kind := .rom) (v := .mbc5) h)
  | mbc1ReadRam bank => exact .bus (busOp_readBank (kind := .ram) (v := .mbc1) h)
  | mbc3ReadRam bank => exact .bus (busOp_readBank (kind := .ram) (v := .mbc3) h)
  | mbc5ReadRam bank => exact .bus (busOp_readBank (kind := .ram) (v := .mbc5) h)
  | mbc1WriteRam bank => exact .bus (busOp_writeBank (v := .mbc1) h)
  | mbc3WriteRam bank => exact .bus (busOp_writeBank (v := .mbc3) h)
  | mbc5WriteRam bank => exact .bus (busOp_writeBank (v := .mbc5) h)
  | mbc3WriteRtc =>
    change execMbc3WriteRtc s = _ at h
    obtain rfl : t = s := (begin_total h :)
    exact .bus ⟨⟨[], rfl, rfl⟩, hf.clean, id, fun _ k => k.resolve_right (by decide)⟩

/-! ### Every step -/

theorem stepWord_next {sel : Selection} {s t : State} (h : stepWord sel s = .next t) : ∃ i, exec i s = .next t := by
  unfold stepWord at h
  split at h
  · next i _ => exact ⟨i, h⟩
  · cases h

theorem stepIdle_next {s t : State} (h : stepIdle s = .next t) :
    ∃ i pending bench, exec i { s with pending := pending, bench := bench } = .next t := by
  unfold stepIdle at h
  split at h
  · obtain ⟨i, e⟩ := stepWord_next h
    exact ⟨i, s.pending, _, e⟩
  · split at h
    · cases h
    · obtain ⟨i, e⟩ := stepWord_next h
      exact ⟨i, _, s.bench, e⟩

theorem stepHeld_next {s t : State} (h : stepHeld s = .next t) : t = resumeCommand s := by
  unfold stepHeld at h
  split at h
  · cases h
  · exact (Host.Outcome.next.inj h).symm

theorem stepSending_next {rest : List Byte} {next : AfterSend} {s t : State} (h : stepSending rest next s = .next t) :
    t = resumeCommand (transmit rest next s) := by
  unfold stepSending at h
  split at h
  · cases h
  · exact (Host.Outcome.next.inj h).symm

/-- Every step is an operation from an idle sequencer, bytes taken in `RxByte`, or a held send that goes on. -/
theorem step_next {s t : State} (h : step s = .next t) :
    (s.control = .idle ∧ ∃ i pending bench, exec i { s with pending := pending, bench := bench } = .next t) ∨
    (s.control ≠ .idle ∧ t = resumeCommand s) ∨
    ∃ rest next, s.control = .sending rest next ∧ t = resumeCommand (transmit rest next s) := by
  unfold step at h
  split at h
  · cases h
  · split at h
    · next hi => exact .inl ⟨hi, stepIdle_next h⟩
    · next hi => exact .inr (.inl ⟨by simp [hi], stepHeld_next h⟩)
    · next hi => exact .inr (.inl ⟨by simp [hi], stepHeld_next h⟩)
    · next rest next hi => exact .inr (.inr ⟨rest, next, hi, stepSending_next h⟩)

end Sys2Proof.Machine
end

section
/-! PROOFS. INV-SAFE (10_state.md R25): a cartridge-level operation leaves BSS at SAFE, and so does every step of a suspended
one, since what a command does after its work on the bus only uses operations that end with `reset()`. -/

namespace Sys2Proof.Machine

theorem Work.atRest {i : Instr} {s u : State} (w : Work i s u) (h : s.AtRest ∨ startsWithReset i = true) : u.AtRest :=
  h.elim w.bus.rest w.rest

theorem exec_atRest {i : Instr} {s t : State} (hl : cartridgeLevel i = true) (hr : s.AtRest ∨ startsWithReset i = true)
    (h : exec i s = .next t) : t.AtRest := by
  cases exec_effect h with
  | bus b => exact b.rest hl hr
  | parsed hi ht =>
    subst hi ht
    exact (busKept_parseBuffer s).rest (hr.resolve_right (by decide))
  | sent u bs next w _ _ _ ht => exact ht ▸ (busKept_transmit bs next u).rest (w.atRest hr)
  | uploading u bs up _ w _ _ ht =>
    exact ht ▸ ((busKept_transmit bs (.length up) u).trans (busKept_resumeCommand _)).rest (w.atRest hr)

/-- Settles O56: what follows the bus work of an operation keeps SAFE, whether it is held or not. -/
theorem cartridgeOperationsEndAtRest : Obligations.CartridgeOperationsEndAtRest := by
  unfold Obligations.CartridgeOperationsEndAtRest
  refine ⟨fun i s t hl hr h => exec_atRest hl hr h, fun s t hc hr h => ?_⟩
  obtain ⟨hi, -⟩ | ⟨-, rfl⟩ | ⟨rest, next, -, rfl⟩ := step_next h
  · exact absurd hi hc
  · exact (busKept_resumeCommand s).rest hr
  · exact ((busKept_transmit rest next s).trans (busKept_resumeCommand _)).rest hr

end Sys2Proof.Machine
end

section
/-! PROOFS. The invariant: right after reset, and across every step. -/

namespace Sys2Proof.Machine

/-- Settles O58: every strobe starts at SAFE, the memories list nothing, and no command runs. -/
theorem invariantAtReset : Obligations.InvariantAtReset :=
  ⟨rfl, rfl, rfl, rfl, rfl, rfl, rfl, rfl, Nat.le_refl 0, rfl⟩

/-! ### A send keeps the invariant -/

theorem inv_endCommand {s : State} (h : s.Sound) : (endCommand s).Inv :=
  (State.Sound.elsewhere (t := endCommand s) h rfl (List.prefix_refl _)).inv rfl rfl

theorem sound_withControl {s : State} (h : s.Sound) (c : Control) : (s.withControl c).Sound :=
  h.elsewhere rfl (List.prefix_refl _)

theorem sound_txBytes {s : State} (h : s.Sound) (bs : List Byte) : (txBytes bs s).Sound :=
  h.elsewhere rfl (List.prefix_append _ _)

/-- A send whose continuation keeps the invariant keeps it; held, it has a byte left to send. -/
theorem inv_sendThen {k : State → State} {bs : List Byte} {next : AfterSend} {s : State} (h : s.Sound)
    (hl : next.legal = true) (ho : s.OwnsSend next) (hk : (k (txBytes bs s)).Inv) : (sendThen bs next k s).Inv := by
  refine sendThen_ind bs next k s hk fun room _ hroom => ?_
  have hd : bs.drop room ≠ [] := by simpa using hroom
  refine (h.elsewhere rfl (List.prefix_append _ _)).inv ?_ (ho.mono id rfl rfl rfl)
  simp [Control.legal, hd, hl]

theorem inv_raise {s : State} (h : s.Sound) (st : Status) : (raise st s).Inv :=
  inv_sendThen h rfl trivial (inv_endCommand (sound_txBytes h _))

theorem inv_streamFrom {kind : ReadKind} {v : Variant} {n left : Nat} (hn : kind.counts n = true) (hl : left ≤ n) :
    ∀ {s : State}, s.Sound → s.OwnsSend (.nextBank kind v n left) → (streamFrom kind v n left s).Inv := by
  induction left with
  | zero => exact fun h _ => inv_endCommand h
  | succ left ih =>
    intro s h ho
    obtain ⟨es, m, d⟩ := finishes_bank kind v s (bankOperand (n - (left + 1)))
    have ht := h.done (readSeq_below kind _ v _) d
    have ho' := d.ownsSend (next := .nextBank kind v n left) ho
    have legal : (AfterSend.nextBank kind v n left).legal = true := by
      simp only [AfterSend.legal, hn, Bool.true_and, decide_eq_true_eq]
      omega
    exact inv_sendThen ht legal ho' (ih (by omega) (sound_txBytes ht _) (ho'.mono id rfl rfl rfl))

theorem Upload.within_iff {up : Upload} {len : Length} {bank off : Nat} : up.within len bank off = true ↔
    up.legal = true ∧ len = payloadLength up.bankCount ramBankSize ∧ bank < up.bankCount ∧ off < ramBankSize := by
  simp [Upload.within, and_assoc]

theorem inv_commitBank {up : Upload} {len : Length} {bank : Nat} {s : State} (h : s.Sound)
    (hw : up.within len bank 0 = true) (ho : s.OwnsSend (.commit up len bank)) : (commitBank up len bank s).Inv := by
  obtain ⟨es, m, d⟩ := finishes_writeRam s up.variant (bankOperand bank) s.readBuffer
  have ht := h.done (writeRamSeq_below _ _ _ _) d
  have ho' := d.ownsSend ho
  rw [commitBank]
  generalize run (writeRamSeq s.params up.variant (bankOperand bank) s.readBuffer) s = t at ht ho' ⊢
  split
  · next hb =>
    obtain ⟨hu, hlen, -, hoff⟩ := Upload.within_iff.1 hw
    exact (sound_withControl ht (.awaitData up len (bank + 1) 0)).inv (Upload.within_iff.2 ⟨hu, hlen, hb, hoff⟩)
      (ho'.mono id rfl rfl rfl)
  · exact inv_endCommand ht

theorem inv_proceed {next : AfterSend} {s : State} (h : s.Sound) (hl : next.legal = true) (ho : s.OwnsSend next) :
    (proceed next s).Inv := by
  cases next with
  | returned => exact (sound_withControl h .idle).inv rfl ho
  | ended => exact inv_endCommand h
  | nextBank kind v n left =>
    simp only [AfterSend.legal, Bool.and_eq_true, decide_eq_true_eq] at hl
    exact inv_streamFrom hl.1 hl.2.le h ho
  | length up =>
    have hl' : (Control.awaitLength up []).legal = true := by simpa [Control.legal, AfterSend.legal] using hl
    exact (sound_withControl h (.awaitLength up [])).inv hl' (ho.mono id rfl rfl rfl)
  | data up len bank off => exact (sound_withControl h (.awaitData up len bank off)).inv hl (ho.mono id rfl rfl rfl)
  | commit up len bank => exact inv_commitBank h hl ho

theorem inv_transmit {bs : List Byte} {next : AfterSend} {s : State} (h : s.Sound) (hl : next.legal = true)
    (ho : s.OwnsSend next) : (transmit bs next s).Inv :=
  inv_sendThen h hl ho (inv_proceed (sound_txBytes h bs) hl (ho.mono id rfl rfl rfl))

/-! ### Bytes received keep the invariant -/

/-- What stands in RX or is presented is no part of the invariant. -/
theorem State.Inv.inputs {s : State} (h : s.Inv) (rx pending : List Byte) (bench : List Selection) :
    State.Inv { s with rx := rx, pending := pending, bench := bench } :=
  have hs : State.Sound { s with rx := rx, pending := pending, bench := bench } :=
    h.sound.elsewhere rfl (List.prefix_refl _)
  hs.inv h.legal (h.position.mono rfl id rfl rfl rfl)

theorem inv_acceptLengthByte {up : Upload} {got : List Byte} {s : State} (h : s.Sound) (hu : up.legal = true)
    (hg : got.length < 4) (hr : s.Runs s.params.cmdId.writeRam) (x : Byte) : (acceptLengthByte up got x s).Inv := by
  unfold acceptLengthByte
  split
  · unfold lengthReceived
    split
    · next hlen =>
      have hb : 0 < up.bankCount := by
        apply Nat.pos_of_ne_zero
        intro z
        simp [Upload.legal, z] at hu
      exact inv_transmit h (Upload.within_iff.2 ⟨hu, hlen, hb, by decide⟩) hr
    · exact inv_raise h _
  · next hn =>
    have h3 : got.length ≠ 3 := fun e => by
      obtain ⟨a, b, c, rfl⟩ := List.length_eq_three.1 e
      exact hn a b c rfl
    have legal : (Control.awaitLength up (got ++ [x])).legal = true := by
      simp only [Control.legal, hu, Bool.true_and, decide_eq_true_eq, List.length_append, List.length_singleton]
      omega
    exact (sound_withControl h (.awaitLength up (got ++ [x]))).inv legal (hr.mono id rfl rfl)

theorem afterEcho_legal {up : Upload} {len : Length} {bank off : Nat} (h : up.within len bank off = true) :
    (afterEcho up len bank off).legal = true := by
  obtain ⟨hu, hlen, hb, -⟩ := Upload.within_iff.1 h
  unfold afterEcho
  split
  · next ho => exact Upload.within_iff.2 ⟨hu, hlen, hb, ho⟩
  · exact Upload.within_iff.2 ⟨hu, hlen, hb, by decide⟩

theorem inv_acceptDataByte {up : Upload} {len : Length} {bank off : Nat} {s : State} (h : s.Sound)
    (hw : up.within len bank off = true) (hr : s.Runs s.params.cmdId.writeRam) (x : Byte) :
    (acceptDataByte up len bank off x s).Inv := by
  have ho : off < romBankSize := Nat.lt_trans (Upload.within_iff.1 hw).2.2.2 (by decide)
  have hr' : (storeByte off x s).Runs (storeByte off x s).params.cmdId.writeRam := hr.mono id rfl rfl
  refine inv_transmit (h.storeByte ho x) (afterEcho_legal hw) ?_
  unfold afterEcho
  split <;> exact hr'

theorem inv_acceptByte (x : Byte) {s : State} (h : s.Inv) : (acceptByte x s).Inv := by
  have hl := h.legal
  have hp := h.position
  unfold State.OwnsPosition at hp
  unfold acceptByte
  split
  · exact h
  · next up got hc =>
    rw [hc] at hl hp
    simp only [Control.legal, Bool.and_eq_true, decide_eq_true_eq] at hl
    exact inv_acceptLengthByte h.sound hl.1 hl.2 hp x
  · next up len bank off hc =>
    rw [hc] at hl hp
    exact inv_acceptDataByte h.sound hl hp x
  · exact h

theorem inv_takeBytes (xs : List Byte) : ∀ {s : State}, s.Inv → (takeBytes xs s).Inv := by
  induction xs with
  | nil => exact fun h => h.inputs [] _ _
  | cons x xs ih =>
    intro s h
    cases hc : s.control.takes with
    | true => rw [takeBytes_cons hc]; exact ih (inv_acceptByte x h)
    | false => rw [takeBytes_stop hc]; exact h.inputs (x :: xs) _ _

theorem inv_resumeCommand {s : State} (h : s.Inv) : (resumeCommand s).Inv := inv_takeBytes s.rx h

/-! ### Operations and steps keep the invariant -/

/-- An idle state is in the invariant when it is sound and has no selector. -/
theorem State.Sound.inv_of_idle {s : State} (h : s.Sound) (hc : s.control = .idle) (hs : s.selector = none) : s.Inv :=
  h.inv (by rw [hc]; rfl) (by rw [State.OwnsPosition, hc]; exact hs)

theorem State.Inv.selector_of_idle {s : State} (h : s.Inv) (hc : s.control = .idle) : s.selector = none := by
  have hp := h.position
  rw [State.OwnsPosition, hc] at hp
  exact hp

theorem exec_inv {i : Instr} {s t : State} (hs : s.Inv) (h : exec i s = .next t) : t.Inv := by
  have hc := (exec_free h).idle
  have hsel := hs.selector_of_idle hc
  cases exec_effect h with
  | bus b => exact (b.sound hs.sound).inv_of_idle (b.untouched.control.trans hc) (b.untouched.selector.trans hsel)
  | parsed _ ht => exact ht ▸ hs.sound.parseBuffer.inv_of_idle hc hsel
  | sent u bs next w _ hl ho ht => exact ht ▸ inv_transmit (w.sound hs.sound) hl (ho hsel)
  | uploading u bs up _ w hl hr ht => exact ht ▸ inv_resumeCommand (inv_transmit (w.sound hs.sound) hl hr)

/-- Settles O59: a step is an operation, or goes on with a suspended one, and each keeps the invariant. -/
theorem everyStepKeepsTheInvariant : Obligations.EveryStepKeepsTheInvariant := by
  unfold Obligations.EveryStepKeepsTheInvariant
  intro s t hs h
  obtain ⟨-, i, pending, bench, e⟩ | ⟨-, rfl⟩ | ⟨rest, next, hc, rfl⟩ := step_next h
  · exact exec_inv (hs.inputs s.rx pending bench) e
  · exact inv_resumeCommand hs
  · have hl := hs.legal
    have hp := hs.position
    rw [State.OwnsPosition, hc] at hp
    rw [hc] at hl
    simp only [Control.legal, Bool.and_eq_true, decide_eq_true_eq] at hl
    exact inv_resumeCommand (inv_transmit hs.sound hl.2 hp)

end Sys2Proof.Machine
end

section
/-! PROOFS. Who may touch the streams (10_state.md R46, 20_memory.md R85, 60_exceptions.md R297). -/

namespace Sys2Proof.Machine

theorem progress_resumeCommand (s : State) : ∃ r, Progress { s with rx := r } (resumeCommand s) := progress_takeBytes s.rx s

/-- What an operation that answers t from s has done to the streams: `Progress` but for RX and ReportBuf, and to these two only
what their owners may. -/
structure StreamsOwned (i : Instr) (s t : State) : Prop where
  kept   : Progress { s with rx := t.rx, reportBuf := t.reportBuf } t
  rx     : i ≠ .writeRam → t.rx = s.rx
  report : i ≠ .parseHeader → t.reportBuf = s.reportBuf
  events : s.busWrites <+: t.busWrites

theorem Progress.own {s t : State} {r : List Byte} {m : Memory} (k : Progress { s with rx := r, reportBuf := m } t) :
    Progress { s with rx := t.rx, reportBuf := t.reportBuf } t :=
  ⟨k.params, rfl, k.tx, k.txDrained, rfl, k.pending, k.bench⟩

/-- Progress, then progress from other bytes in RX. -/
theorem Progress.trans_rx {s t u : State} {r : List Byte} (h : Progress s t) (k : Progress { t with rx := r } u) :
    Progress { s with rx := r } u :=
  ⟨k.params.trans h.params, k.reportBuf.trans h.reportBuf, h.tx.trans k.tx, k.txDrained.trans h.txDrained, k.rx,
    k.pending.trans h.pending, k.bench.trans h.bench⟩

theorem BusOp.progress {i : Instr} {s t : State} (h : BusOp i s t) : Progress s t := by
  obtain ⟨ms, -, rfl⟩ := h.ran
  exact progress_run ms s

theorem progress_parseBuffer (s : State) : Progress s (parseBuffer s) := ⟨rfl, rfl, List.prefix_refl _, rfl, rfl, rfl, rfl⟩

theorem exec_streamsOwned {i : Instr} {s t : State} (h : exec i s = .next t) : StreamsOwned i s t := by
  cases exec_effect h with
  | bus b => exact ⟨b.progress.own, fun _ => b.progress.rx, fun _ => b.progress.reportBuf, b.busWrites⟩
  | parsed _ ht =>
    subst ht
    have k := progress_parseBuffer s
    exact ⟨k.own, fun _ => k.rx, fun _ => k.reportBuf, (busKept_parseBuffer s).events⟩
  | sent u bs next w _ _ _ ht =>
    subst ht
    have p := progress_transmit bs next u
    have k := w.kept.trans p
    exact ⟨k.own, fun _ => k.rx, fun hi => p.reportBuf.trans (w.report hi), (w.bus.trans (busKept_transmit bs next u)).events⟩
  | uploading u bs up hi w _ _ ht =>
    subst hi ht
    obtain ⟨r, q⟩ := progress_resumeCommand (transmit bs (.length up) u)
    have p := (progress_transmit bs (.length up) u).trans_rx q
    have b := w.bus.trans ((busKept_transmit bs (.length up) u).trans (busKept_resumeCommand _))
    exact ⟨(w.kept.trans_rx p).own, fun hi => absurd rfl hi, fun hi => p.reportBuf.trans (w.report hi), b.events⟩

/-- No operation below the command layer sends anything or moves the control position (20_memory.md R85, 46 R244). -/
theorem exec_belowCommand {i : Instr} {s t : State} (h : exec i s = .next t) (hc : (Laws.RowFormat.row i).1 ≠ .cmd)
    (hs : (Laws.RowFormat.row i).1 ≠ .status) :
    t.tx = s.tx ∧ t.txSpace = s.txSpace ∧ t.control = s.control ∧ t.selector = s.selector := by
  cases exec_effect h with
  | bus b => exact ⟨b.untouched.tx, b.untouched.txSpace, b.untouched.control, b.untouched.selector⟩
  | parsed _ ht => exact ht ▸ ⟨rfl, rfl, rfl, rfl⟩
  | sent _ _ _ _ hf => exact absurd hf (not_or.2 ⟨hc, hs⟩)
  | uploading _ _ _ hi => exact absurd (hi ▸ rfl) hc

theorem encode_format (p : Params) (i : Instr) : (encode p i).format = (Laws.RowFormat.row i).1 := by
  cases i <;> rfl

theorem step_tx {s t : State} (h : step s = .next t) : s.tx <+: t.tx ∧ t.txDrained = s.txDrained := by
  obtain ⟨-, i, pending, bench, e⟩ | ⟨-, rfl⟩ | ⟨rest, next, -, rfl⟩ := step_next h
  · have k := (exec_streamsOwned e).kept
    exact ⟨k.tx, k.txDrained⟩
  · obtain ⟨r, p⟩ := progress_resumeCommand s
    exact ⟨p.tx, p.txDrained⟩
  · obtain ⟨r, p⟩ := progress_resumeCommand (transmit rest next s)
    have k := (progress_transmit rest next s).trans_rx p
    exact ⟨k.tx, k.txDrained⟩

/-- Settles O57: each part is what an operation, a step or the host's draining was shown to do to the streams. -/
theorem ownersOfTheStreams : Obligations.OwnersOfTheStreams := by
  unfold Obligations.OwnersOfTheStreams
  refine ⟨fun s t h => step_tx h, fun s n => ⟨rfl, fun hd => ?_⟩, fun i s t h => ?_⟩
  · rw [hostDrains_txDrained, undrained_length]
    omega
  · obtain ⟨k, hrx, hreport, hevents⟩ := exec_streamsOwned h
    refine ⟨k.txDrained, k.params, k.pending, k.bench, k.tx, hevents, hrx, hreport, fun sel e hc hs => ?_⟩
    rw [← e, encode_format] at hc hs
    exact exec_belowCommand h hc hs

end Sys2Proof.Machine
end

section
/-! PROOFS. The idle step (10_state.md R34), and GPIO writes nothing answers to (R27, R28). -/

namespace Sys2Proof.Machine

/-- What decodes from a word of format CMD is a row of that format (30_encoding.md R108). -/
theorem encode_format_of_decode_cmd {p : Params} {w : BitVec 32} {i : Instr} (h : decode p ⟨.cmd, w⟩ = .instr i) :
    (encode p i).format = .cmd := by
  change decodeCmd p.cmdId w = .instr i at h
  unfold decodeCmd at h
  split at h
  · next j hj =>
    unfold byteOnly at h
    split at h
    · cases h
      rw [(commandOf_spec hj).2]
    · cases h
  · cases h

theorem step_idle {s : State} (hf : s.Free) : step s = stepIdle s := by
  rw [step, if_neg (by simp [hf.clean]), hf.idle]

theorem stepWord_instr {sel : Selection} {s : State} {i : Instr} (h : decode s.params sel = .instr i) :
    stepWord sel s = exec i s := by
  rw [stepWord, h]

/-- Settles O5: what the dispatch loop presents reaches the decoder as a word of format CMD. -/
theorem stepRunsTheDecodedOperation : Obligations.StepRunsTheDecodedOperation := by
  unfold Obligations.StepRunsTheDecodedOperation
  intro s i hf
  rw [step_idle hf, stepIdle]
  refine ⟨fun c rest hb hp hd => ⟨?_, encode_format_of_decode_cmd hd⟩, fun sel rest hb hd => ?_⟩
  · rw [setWidth_eq_byteWord] at hd
    rw [hb, hp]
    exact stepWord_instr hd
  · rw [hb]
    exact stepWord_instr hd

theorem quiet_of_asserted {s : State} (hl : s.asserted .dinLoad = false)
    (hd : ¬ (s.asserted .doutOe = true ∧ s.asserted .rd = true)) : s.bss.quiet s.params.levels := by
  refine ⟨(asserted_eq_false s .dinLoad).1 hl, ?_⟩
  rw [not_and_or, Bool.not_eq_true, Bool.not_eq_true] at hd
  exact hd.imp (asserted_eq_false s .doutOe).1 (asserted_eq_false s .rd).1

/-- DIN_LATCH is on no register (log 28): a write that changes it, or nothing, has no edge to answer. -/
theorem gpioWrite_dinLatch {s : State} (h : s.bss.quiet s.params.levels) (l : Bool) :
    gpioWrite { s.bss with dinLatch := l } s = { s with bss := { s.bss with dinLatch := l } } := by
  obtain ⟨hload, hsingle⟩ := h
  have hc := Bss.single_beq hsingle
  simp [gpioWrite, clockAddress, clockData, setPins, clockInput, State.asserted, Bss.asserted, Bss.get, Strobe.field, levelOf,
    hload, hc]

/-- Settles O9: a write that repeats the levels is one that drives DIN_LATCH to the level it has. -/
theorem quietGpioWrites : Obligations.QuietGpioWrites := by
  unfold Obligations.QuietGpioWrites
  intro s hl hd
  have h := gpioWrite_dinLatch (quiet_of_asserted hl hd)
  refine ⟨h s.bss.dinLatch, fun l => ?_⟩
  rw [drive, if_neg (by simp)]
  exact congrArg settle (h l)

end Sys2Proof.Machine
end

section
/-! PROOFS. The two holds and the idle wait (20_memory.md R84, 60_exceptions.md R297), and that nothing else begins while an
operation is suspended (20_memory.md R92). -/

namespace Sys2Proof.Machine

theorem ne_idle_of_takes {c : Control} (h : c.takes = true) : c ≠ .idle := by
  rintro rfl
  cases h

/-! ### A step that waits -/

/-- A command in `RxByte` with RX empty has no step (R297). -/
theorem step_withoutByte {s : State} (hc : s.contention = false) (ht : s.control.takes = true) (hx : s.rx = []) :
    step s = .fault .heldForHostByte := by
  have e : stepHeld s = .fault .heldForHostByte := by rw [stepHeld, hx]
  rw [step, if_neg (by simp [hc])]
  cases hi : s.control with
  | awaitLength up got => exact e
  | awaitData up len bank off => exact e
  | idle | sending rest next => rw [hi] at ht; cases ht

/-- An operation in `TxByte` on a transport without room has no step (R297). -/
theorem step_withoutRoom {s : State} {rest : List Byte} {next : AfterSend} (hc : s.contention = false)
    (hi : s.control = .sending rest next) (hr : s.txSpace = some 0) : step s = .fault .heldForHostSpace := by
  rw [step, if_neg (by simp [hc]), hi]
  change stepSending rest next s = _
  rw [stepSending, if_pos hr]

/-- Room given is room, whatever there was before. -/
theorem addRoom_ne_zero (a : Option Nat) {room : Option Nat} (h : room ≠ some 0) : addRoom a room ≠ some 0 := by
  cases room with
  | none => cases a <;> simp [addRoom]
  | some n =>
    have hn : n ≠ 0 := fun z => h (congrArg some z)
    cases a <;> simp [addRoom, hn]

/-- A host with something to drain makes room (R84). -/
theorem hostDrains_makesRoom {s : State} {n : Nat} (hn : 0 < n) (hd : s.txDrained < s.tx.length) :
    (s.hostDrains n).txSpace ≠ some 0 := by
  rw [hostDrains_txSpace]
  refine addRoom_ne_zero _ fun h => ?_
  have h' := Option.some.inj h
  rw [undrained_length] at h'
  omega

/-- Settles O7: each hold is a fault of `step`, and what the host gives is what the step asks for. -/
theorem stepWaitsForTheHost : Obligations.StepWaitsForTheHost := by
  unfold Obligations.StepWaitsForTheHost
  intro s hc
  refine ⟨fun ht hx => ⟨step_withoutByte hc ht hx, fun b => ?_⟩,
    fun rest next hi hr => ⟨step_withoutRoom hc hi hr, ?_, ?_⟩, fun hi hp hb => ?_⟩
  · have hx' : (s.hostSends [b]).rx ≠ [] := by simp [State.hostSends]
    exact ⟨_, step_held (s := s.hostSends [b]) hc ht hx'⟩
  · exact fun room h => ⟨_, step_sending (s := s.hostGrants room) hc hi (addRoom_ne_zero _ h)⟩
  · exact fun n hn hd => ⟨_, step_sending (s := s.hostDrains n) hc hi (hostDrains_makesRoom hn hd)⟩
  · rw [step_idle ⟨hc, hi⟩, stepIdle, hb, hp]

/-! ### One operation at a time -/

/-- Nothing begins while an operation is suspended (U14). -/
theorem begin_suspended {s : State} (hc : s.contention = false) (hi : s.control ≠ .idle) (k : State → Result) :
    begin s k = .refused .commandInProgress := by
  rw [begin, if_neg (by simp [hc])]
  cases h : s.control with
  | idle => exact absurd h hi
  | awaitLength _ _ | awaitData _ _ _ _ | sending _ _ => rfl

/-- The cartridge stays while an operation is suspended (U24). -/
theorem insertCartridge_suspended {s : State} (hi : s.control ≠ .idle) (c : Cartridge) : s.insertCartridge c = s := by
  unfold State.insertCartridge
  cases h : s.control with
  | idle => exact absurd h hi
  | awaitLength _ _ | awaitData _ _ _ _ | sending _ _ => rfl

/-- A step of a suspended operation leaves what is presented alone. -/
theorem step_suspended_presented {s t : State} (hi : s.control ≠ .idle) (h : step s = .next t) :
    t.pending = s.pending ∧ t.bench = s.bench := by
  obtain ⟨hidle, -⟩ | ⟨-, rfl⟩ | ⟨rest, next, -, rfl⟩ := step_next h
  · exact absurd hidle hi
  · obtain ⟨r, k⟩ := progress_resumeCommand s
    exact ⟨k.pending, k.bench⟩
  · obtain ⟨r, q⟩ := progress_resumeCommand (transmit rest next s)
    have k := (progress_transmit rest next s).trans_rx q
    exact ⟨k.pending, k.bench⟩

/-- Settles O8: every operation begins by `begin`, and a step of a suspended one is its own progress. -/
theorem oneOperationAtATime : Obligations.OneOperationAtATime := by
  unfold Obligations.OneOperationAtATime
  intro s hc hi
  refine ⟨fun i => ?_, fun t h => step_suspended_presented hi h, insertCartridge_suspended hi⟩
  obtain ⟨k, e⟩ := exec_begins i s
  rw [e, begin_suspended hc hi]

/-! ### Deliveries of the host -/

/-- A step of a command in `RxByte` to which the host has sent bytes takes those. -/
theorem step_hostSends {s : State} {bs : List Byte} (hc : s.contention = false) (ht : s.control.takes = true)
    (hx : s.rx = []) (hb : bs ≠ []) : step (s.hostSends bs) = .next (takeBytes bs s) := by
  have e : s.hostSends bs = s.withRx bs := by rw [State.hostSends, State.withRx, hx, List.nil_append]
  rw [e, step_held (s := s.withRx bs) hc ht hb]
  exact congrArg Host.Outcome.next (take_rx bs bs s)

/-- Settles O50: bytes taken in two deliveries are bytes taken (`take_append`). -/
theorem hostBytesMayArriveInPieces : Obligations.HostBytesMayArriveInPieces := by
  unfold Obligations.HostBytesMayArriveInPieces
  intro s t xs ys hc ht hx hne h
  obtain rfl : takeBytes xs s = t := Host.Outcome.next.inj ((step_hostSends hc ht hx hne).symm.trans h)
  obtain ⟨stops, asks⟩ := take_append xs ys s
  rw [step_hostSends hc ht hx (List.append_ne_nil_of_left_ne_nil hne ys)]
  refine ⟨fun hs => by rw [stops hs]; rfl, fun ha hys => ?_⟩
  obtain ⟨hrx, e⟩ := asks ha
  rw [e, step_hostSends ((take_contention xs s).trans hc) ha hrx hys]

end Sys2Proof.Machine
end

section
/-! PROOFS. How the host spreads its draining (20_memory.md R84, R90, 60_exceptions.md R297): every operation and every step,
given more room afterwards, goes where it goes with that room at once. -/

namespace Sys2Proof.Machine

/-- An operation or a step answered t; r is its answer with `room` more from the start. They agree: t goes on to r (at once, where
it is not held), and it can, since no contention stands in its way and RX holds nothing more that it asks for. -/
structure GoesOn (room : Option Nat) (t : State) (r : Result) : Prop where
  answer : r = .next (resumeCommand (goOn room t))
  clean  : t.contention = false
  taken  : t.control.takes = true → t.rx = []

section goesOn
variable {room : Option Nat} {t : State} {r : Result}

/-- Not held in `TxByte`: the answer with more room is t with that room. -/
theorem GoesOn.still (g : GoesOn room t r) (h : ∀ rest next, t.control ≠ .sending rest next) :
    r = .next (t.hostGrants room) := by
  rw [g.answer, goOn_still h]
  cases ht : t.control.takes with
  | false => rw [resumeCommand_stop (s := t.hostGrants room) ht]
  | true =>
    have hx := g.taken ht
    have e : resumeCommand (t.hostGrants room) = (t.hostGrants room).withRx [] := by
      rw [resumeCommand, show (t.hostGrants room).rx = [] from hx]
      rfl
    rw [e, State.withRx, ← hx]
    rfl

/-- Held in `TxByte`: the answer with more room is what the next step answers. -/
theorem GoesOn.held (g : GoesOn room t r) (hr : room ≠ some 0) {rest : List Byte} {next : AfterSend}
    (h : t.control = .sending rest next) : r = step (t.hostGrants room) := by
  rw [g.answer, goOn_sending h]
  exact (step_sending (s := t.hostGrants room) g.clean h (addRoom_ne_zero _ hr)).symm

/-- Both, as the obligation says them. -/
theorem GoesOn.pieces (g : GoesOn room t r) (hr : room ≠ some 0) :
    ((∀ rest next, t.control ≠ .sending rest next) → r = .next (t.hostGrants room)) ∧
    (∀ rest next, t.control = .sending rest next → r = step (t.hostGrants room)) :=
  ⟨g.still, fun _ _ h => g.held hr h⟩

end goesOn

/-! ### What takes bytes -/

/-- A command that still asks for bytes has taken all there were. -/
theorem resumeCommand_taken {s : State} (h : (resumeCommand s).control.takes = true) : (resumeCommand s).rx = [] :=
  ((take_append s.rx [] s).2 h).1

/-- More room before the bytes are taken or after: the same place. -/
theorem resumeCommand_goOn (room : Option Nat) (s : State) :
    resumeCommand (goOn room (resumeCommand s)) = resumeCommand (goOn room s) := by
  cases h : s.control.takes with
  | false => rw [resumeCommand_stop h]
  | true =>
    have hs : ∀ rest next, s.control ≠ .sending rest next := fun rest next e => by rw [e] at h; cases h
    rw [goOn_still hs]
    exact (take_grants s.rx room s h).symm

theorem goesOn_resumeCommand {room : Option Nat} {s : State} (hc : s.contention = false) :
    GoesOn room (resumeCommand s) (.next (resumeCommand (goOn room s))) :=
  ⟨by rw [resumeCommand_goOn], (take_contention s.rx s).trans hc, resumeCommand_taken⟩

/-! ### What sends and takes no bytes -/

/-- What follows a send never comes to `RxByte`: all but the continuations of `write_ram`. -/
def AfterSend.silent : AfterSend → Bool
  | .returned | .ended | .nextBank _ _ _ _ => true
  | .length _ | .data _ _ _ _ | .commit _ _ _ => false

theorem sendThen_takes {k : State → State} (hk : ∀ t, (k t).control.takes = false) (bs : List Byte) (next : AfterSend)
    (s : State) : (sendThen bs next k s).control.takes = false :=
  sendThen_ind bs next k s (P := fun t => t.control.takes = false) (hk _) fun _ _ _ => rfl

theorem streamFrom_takes (kind : ReadKind) (v : Variant) (n left : Nat) : ∀ s : State,
    (streamFrom kind v n left s).control.takes = false := by
  induction left with
  | zero => exact fun _ => rfl
  | succ left ih => exact fun s => sendThen_takes ih _ _ _

theorem transmit_takes {next : AfterSend} (h : next.silent = true) (bs : List Byte) (s : State) :
    (transmit bs next s).control.takes = false := by
  refine sendThen_takes (fun t => ?_) bs next s
  cases next with
  | returned | ended => rfl
  | nextBank kind v n left => exact streamFrom_takes kind v n left t
  | length _ | data _ _ _ _ | commit _ _ _ => cases h

/-- `read_rtc` with the snapshot in BankBuffer (R248). -/
def sendSnapshot (r : State) : State := transmit (frameHeader .ok 5 ++ r.bufferBytes 5) .ended r

theorem answerRtc_snapshot {h : State} (e : rtcCapable h.bufferDescriptor = true) :
    answerRtc h = sendSnapshot h.rtcRead := by
  rw [answerRtc, if_pos e, run_readRtc, sendSnapshot]

theorem answerRtc_incapable {h : State} (e : rtcCapable h.bufferDescriptor = false) :
    answerRtc h = raise .cartridgeHasNoRtc h := by
  rw [answerRtc, if_neg (by simp [e])]

theorem rtcRead_grants (s : State) (room : Option Nat) : (s.hostGrants room).rtcRead = s.rtcRead.hostGrants room := by
  have e : run (mbc3ReadRtcSeq (s.hostGrants room).params) (s.hostGrants room) =
      (run (mbc3ReadRtcSeq s.params) s).hostGrants room := run_grants _ room s
  rw [← run_readRtc, e, run_readRtc]

section sends
variable {room : Option Nat} {u : State} (hc : u.contention = false)
include hc

theorem goesOn_transmit {next : AfterSend} (h : next.silent = true) (bs : List Byte) :
    GoesOn room (transmit bs next u) (.next (transmit bs next (u.hostGrants room))) := by
  have g := goesOn_resumeCommand (room := room) ((transmit_contention bs next u).trans hc)
  rw [← transmit_grants, resumeCommand_stop (transmit_takes h bs u), resumeCommand_stop (transmit_takes h bs _)] at g
  exact g

theorem goesOn_raise (st : Status) : GoesOn room (raise st u) (.next (raise st (u.hostGrants room))) :=
  goesOn_transmit hc (next := .ended) rfl [statusCode st]

theorem goesOn_streamFrom (kind : ReadKind) (v : Variant) (n left : Nat) :
    GoesOn room (streamFrom kind v n left u) (.next (streamFrom kind v n left (u.hostGrants room))) := by
  have g := goesOn_resumeCommand (room := room) ((streamFrom_contention kind v n left u).trans hc)
  rw [← streamFrom_grants, resumeCommand_stop (streamFrom_takes kind v n left u),
    resumeCommand_stop (streamFrom_takes kind v n left _)] at g
  exact g

theorem goesOn_sendSnapshot : GoesOn room (sendSnapshot u) (.next (sendSnapshot (u.hostGrants room))) :=
  goesOn_transmit hc (next := .ended) rfl (frameHeader .ok 5 ++ u.bufferBytes 5)

/-! ### The commands, from their descriptor -/

theorem goesOn_answerReport : GoesOn room (answerReport u) (.next (answerReport (u.hostGrants room))) :=
  goesOn_transmit (u := writeReport (renderReport u.bufferDescriptor) u) hc (next := .ended) rfl _

theorem goesOn_answerRom : GoesOn room (answerRom u) (.next (answerRom (u.hostGrants room))) := by
  cases h : romCheck u.bufferDescriptor with
  | raised st => rw [answerRom_raised h, answerRom_raised (h := u.hostGrants room) h]; exact goesOn_raise hc st
  | passed v n => rw [answerRom_passed h, answerRom_passed (h := u.hostGrants room) h]; exact goesOn_streamFrom hc .rom v n n

theorem goesOn_answerRam : GoesOn room (answerRam u) (.next (answerRam (u.hostGrants room))) := by
  cases h : ramCheck u.bufferDescriptor with
  | raised st => rw [answerRam_raised h, answerRam_raised (h := u.hostGrants room) h]; exact goesOn_raise hc st
  | passed v n => rw [answerRam_passed h, answerRam_passed (h := u.hostGrants room) h]; exact goesOn_streamFrom hc .ram v n n

theorem goesOn_answerUpload : GoesOn room (answerUpload u) (.next (answerUpload (u.hostGrants room))) := by
  cases h : ramCheck u.bufferDescriptor with
  | raised st => rw [answerUpload_raised h, answerUpload_raised (h := u.hostGrants room) h]; exact goesOn_raise hc st
  | passed v n =>
    rw [answerUpload_passed h, answerUpload_passed (h := u.hostGrants room) h, transmit_grants]
    exact goesOn_resumeCommand ((transmit_contention _ _ u).trans hc)

theorem goesOn_answerRtc : GoesOn room (answerRtc u) (.next (answerRtc (u.hostGrants room))) := by
  cases h : rtcCapable u.bufferDescriptor with
  | true =>
    rw [answerRtc_snapshot h, answerRtc_snapshot (h := u.hostGrants room) h, rtcRead_grants]
    exact goesOn_sendSnapshot ((done_rtcRead u).same.contention.trans hc)
  | false =>
    rw [answerRtc_incapable h, answerRtc_incapable (h := u.hostGrants room) h]
    exact goesOn_raise hc _

end sends

/-! ### Every operation -/

theorem parseBuffer_grants (s : State) (room : Option Nat) :
    parseBuffer (s.hostGrants room) = (parseBuffer s).hostGrants room := rfl

theorem startCommand_grants (c : Byte) (s : State) (room : Option Nat) :
    startCommand c (s.hostGrants room) = (startCommand c s).hostGrants room := rfl

theorem readDescriptor_grants (s : State) (room : Option Nat) :
    readDescriptor (s.hostGrants room) = (readDescriptor s).hostGrants room := by
  have e : run (mbc1ReadHeaderSeq (s.hostGrants room).params) (s.hostGrants room) =
      (run (mbc1ReadHeaderSeq s.params) s).hostGrants room := run_grants _ room s
  rw [readDescriptor, readDescriptor, e, parseBuffer_grants]

/-- The header read and `parse` neither send nor wait. -/
theorem described_grants (s : State) (room : Option Nat) (c : Byte) :
    (s.hostGrants room).described c = (s.described c).hostGrants room := by
  rw [State.described, startCommand_grants, readDescriptor_grants, State.described]

/-- The formats of the rows below the command layer, which send nothing (30_encoding.md R100). -/
def belowCommand : Format → Bool
  | .int | .regw _ => true
  | .cmd | .status => false

/-! What each command does, from the header read on. -/

theorem exec_parseHeader_eq (s : State) :
    exec .parseHeader s = begin s (fun s => .next (answerReport (s.described s.params.cmdId.parseHeader))) := rfl

theorem exec_readRom_eq (s : State) :
    exec .readRom s = begin s (fun s => .next (answerRom (s.described s.params.cmdId.readRom))) := rfl

theorem exec_readRam_eq (s : State) :
    exec .readRam s = begin s (fun s => .next (answerRam (s.described s.params.cmdId.readRam))) := rfl

theorem exec_writeRam_eq (s : State) :
    exec .writeRam s = begin s (fun s => .next (answerUpload (s.described s.params.cmdId.writeRam))) := rfl

theorem exec_readRtc_eq (s : State) :
    exec .readRtc s = begin s (fun s => .next (answerRtc (s.described s.params.cmdId.readRtc))) := rfl

section begins
variable {room : Option Nat} {s t : State}

/-- An operation that begins from s begins with more room too. -/
theorem begin_grants {k : State → Result} (h : begin s k = .next t) :
    begin (s.hostGrants room) k = k (s.hostGrants room) :=
  have ⟨hc, hi, _⟩ := begin_next h
  begin_free (s := s.hostGrants room) hc hi k

/-- A command that reads the header, by what it does once the descriptor is there. -/
theorem goesOn_described {c : CommandIds → Byte} {answer : State → State}
    (ha : ∀ u : State, u.contention = false → GoesOn room (answer u) (.next (answer (u.hostGrants room))))
    (h : begin s (fun s => .next (answer (s.described (c s.params.cmdId)))) = .next t) :
    GoesOn room t (begin (s.hostGrants room) (fun s => .next (answer (s.described (c s.params.cmdId))))) := by
  have ⟨hc, hi, _⟩ := begin_next h
  rw [begin_grants h, begin_total h, described_grants]
  exact ha _ (described_fields ⟨hc, hi⟩ _).contention

/-- A STATUS row, or a selector that reads no header: `before` is what it does before it sends. -/
theorem goesOn_begin {before : State → State} {bs : List Byte} {next : AfterSend} (hn : next.silent = true)
    (hb : ∀ u : State, (before u).contention = u.contention)
    (hg : before (s.hostGrants room) = (before s).hostGrants room)
    (h : begin s (fun s => .next (transmit bs next (before s))) = .next t) :
    GoesOn room t (begin (s.hostGrants room) (fun s => .next (transmit bs next (before s)))) := by
  have ⟨hc, _, _⟩ := begin_next h
  rw [begin_grants h, begin_total h, hg]
  exact goesOn_transmit ((hb s).trans hc) hn bs

/-- An operation below the command layer neither waits nor sends, so more room is only more room. -/
theorem goesOn_below {i : Instr} (hf : belowCommand (Laws.RowFormat.row i).1 = true) (h : exec i s = .next t)
    (e : exec i (s.hostGrants room) = .next (t.hostGrants room)) : GoesOn room t (exec i (s.hostGrants room)) := by
  have hcmd : (Laws.RowFormat.row i).1 ≠ .cmd := fun z => by rw [z] at hf; cases hf
  have hstatus : (Laws.RowFormat.row i).1 ≠ .status := fun z => by rw [z] at hf; cases hf
  have hfree := exec_free h
  obtain ⟨-, -, hcontrol, -⟩ := exec_belowCommand h hcmd hstatus
  have hi : t.control = .idle := hcontrol.trans hfree.idle
  have hc : t.contention = false := by
    cases exec_effect h with
    | bus b => exact b.clean
    | parsed _ ht => exact ht ▸ hfree.clean
    | sent _ _ _ _ hf' => exact absurd hf' (not_or.2 ⟨hcmd, hstatus⟩)
    | uploading _ _ _ hi' => exact absurd (hi' ▸ rfl) hcmd
  have hnot : (t.hostGrants room).control.takes = false := by
    change t.control.takes = false
    rw [hi]
    rfl
  refine ⟨?_, hc, fun ht => absurd hi (ne_idle_of_takes ht)⟩
  rw [e, goOn_still (fun _ _ z => by rw [hi] at z; cases z), resumeCommand_stop hnot]

/-- A sequence of micro-steps, read off the state, that runs to its end. -/
theorem begin_run_grants {ms : State → List Micro} (hms : ms (s.hostGrants room) = ms s)
    (h : begin s (fun s => .next (run (ms s) s)) = .next t) :
    begin (s.hostGrants room) (fun s => .next (run (ms s) s)) = .next (t.hostGrants room) := by
  rw [begin_grants h, begin_total h, hms, run_grants]

/-- A primitive or a cell: a sequence that may meet a second driver. -/
theorem begin_conclude_grants {ms : State → List Micro} (hms : ms (s.hostGrants room) = ms s)
    (h : begin s (fun s => conclude (run (ms s) s)) = .next t) :
    begin (s.hostGrants room) (fun s => conclude (run (ms s) s)) = .next (t.hostGrants room) := by
  have ⟨_, _, hk⟩ := begin_next h
  obtain ⟨hc, rfl⟩ := conclude_next hk
  rw [begin_grants h, hms, run_grants]
  exact conclude_clean (s := (run (ms s) s).hostGrants room) hc

theorem regwTransaction_grants {reg : Params → Addr} {d : Byte} (h : regwTransaction reg d s = .next t) :
    regwTransaction reg d (s.hostGrants room) = .next (t.hostGrants room) :=
  begin_conclude_grants (ms := fun s => registerWriteSeq s.params (reg s.params) d) rfl h

theorem readBank_grants {kind : ReadKind} {v : Variant} {bank : BankOperand} (h : exec (kind.op v bank) s = .next t) :
    exec (kind.op v bank) (s.hostGrants room) = .next (t.hostGrants room) := by
  have hf := exec_free h
  have e : run (kind.seq (s.hostGrants room).params v bank) (s.hostGrants room) =
      (run (kind.seq s.params v bank) s).hostGrants room := run_grants _ room s
  obtain rfl := Host.Outcome.next.inj ((exec_bank hf kind v bank).symm.trans h)
  rw [exec_bank (u := s.hostGrants room) ⟨hf.clean, hf.idle⟩, e]

theorem writeBank_grants {v : Variant} {bank : BankOperand} (h : exec (writeRamOf v bank) s = .next t) :
    exec (writeRamOf v bank) (s.hostGrants room) = .next (t.hostGrants room) := by
  have hf := exec_free h
  have e : run (writeRamSeq (s.hostGrants room).params v bank (s.hostGrants room).readBuffer) (s.hostGrants room) =
      (run (writeRamSeq s.params v bank s.readBuffer) s).hostGrants room := run_grants _ room s
  obtain rfl := Host.Outcome.next.inj ((exec_writeRam hf v bank).symm.trans h)
  rw [exec_writeRam (s := s.hostGrants room) ⟨hf.clean, hf.idle⟩, ← run_writeRam, e, run_writeRam]

end begins

/-- Every operation that answers, given more room afterwards, goes where it goes with that room at once. -/
theorem exec_goesOn {i : Instr} {s t : State} (room : Option Nat) (h : exec i s = .next t) :
    GoesOn room t (exec i (s.hostGrants room)) := by
  cases i with
  | parseHeader =>
    rw [exec_parseHeader_eq] at h ⊢
    exact goesOn_described (c := CommandIds.parseHeader) (fun _ => goesOn_answerReport) h
  | readRom =>
    rw [exec_readRom_eq] at h ⊢
    exact goesOn_described (c := CommandIds.readRom) (fun _ => goesOn_answerRom) h
  | readRam =>
    rw [exec_readRam_eq] at h ⊢
    exact goesOn_described (c := CommandIds.readRam) (fun _ => goesOn_answerRam) h
  | writeRam =>
    rw [exec_writeRam_eq] at h ⊢
    exact goesOn_described (c := CommandIds.writeRam) (fun _ => goesOn_answerUpload) h
  | readRtc =>
    rw [exec_readRtc_eq] at h ⊢
    exact goesOn_described (c := CommandIds.readRtc) (fun _ => goesOn_answerRtc) h
  | writeRtc =>
    exact goesOn_begin (before := fun s => startCommand s.params.cmdId.writeRtc s) (bs := [statusCode .invalidRtcWriteSize])
      (next := .ended) rfl (fun _ => rfl) rfl h
  | unknown0607 c | unknown080F c | unknown101F c | unknown203F c | unknown407F c | unknown80FF c =>
    exact goesOn_begin (before := startCommand c) (bs := [statusCode .unknownCommand]) (next := .ended) rfl (fun _ => rfl) rfl h
  | statusOk => exact goesOn_begin (before := id) (bs := frameHeader .ok 0) (next := .returned) rfl (fun _ => rfl) rfl h
  | statusUnknownCommand | statusInvalidNumRomBanks | statusInvalidNumRamBanks | statusInvalidCartridgeType
  | statusInvalidRamWriteSize | statusCartridgeHasNoRam | statusCartridgeHasNoRtc | statusInvalidRtcWriteSize =>
    exact goesOn_begin (before := id) (next := .ended) rfl (fun _ => rfl) rfl h
  | shiftOutAddress a => exact goesOn_below rfl h (begin_conclude_grants (ms := fun _ => shiftOutAddressSeq a) rfl h)
  | shiftOutData d => exact goesOn_below rfl h (begin_conclude_grants (ms := fun s => shiftOutDataSeq s.params d) rfl h)
  | shiftInData => exact goesOn_below rfl h (begin_conclude_grants (ms := fun s => shiftInDataSeq s.params) rfl h)
  | readCell a => exact goesOn_below rfl h (begin_conclude_grants (ms := fun s => readCellSeq s.params a) rfl h)
  | registerWrite a d => exact goesOn_below rfl h (regwTransaction_grants (reg := fun _ => a) (d := d) h)
  | writeCell a d => exact goesOn_below rfl h (regwTransaction_grants (reg := fun _ => a) (d := d) h)
  | regwM1Ramg _ | regwM1Bank1 _ | regwM1Bank2 _ | regwM1Mode _ | regwM3Ramg _ | regwM3Romb _ | regwM3Ramb _ | regwM3Latch _
  | regwM5Ramg _ | regwM5Romb0 _ | regwM5Romb1 _ | regwM5Ramb _ => exact goesOn_below rfl h (regwTransaction_grants h)
  | reset => exact goesOn_below rfl h (begin_run_grants (ms := fun _ => [.safe]) rfl h)
  | resetCartridge v => exact goesOn_below rfl h (begin_run_grants (ms := fun s => resetCartridgeSeq s.params v) rfl h)
  | mbc1ReadHeader => exact goesOn_below rfl h (begin_run_grants (ms := fun s => mbc1ReadHeaderSeq s.params) rfl h)
  | mbc3ReadRtc => exact goesOn_below rfl h (begin_run_grants (ms := fun s => mbc3ReadRtcSeq s.params) rfl h)
  | mbc3WriteRtc => exact goesOn_below rfl h (begin_run_grants (ms := fun _ => []) rfl h)
  | mbc1ReadRom bank => exact goesOn_below rfl h (readBank_grants (kind := .rom) (v := .mbc1) h)
  | mbc3ReadRom bank => exact goesOn_below rfl h (readBank_grants (kind := .rom) (v := .mbc3) h)
  | mbc5ReadRom bank => exact goesOn_below rfl h (readBank_grants (kind := .rom) (v := .mbc5) h)
  | mbc1ReadRam bank => exact goesOn_below rfl h (readBank_grants (kind := .ram) (v := .mbc1) h)
  | mbc3ReadRam bank => exact goesOn_below rfl h (readBank_grants (kind := .ram) (v := .mbc3) h)
  | mbc5ReadRam bank => exact goesOn_below rfl h (readBank_grants (kind := .ram) (v := .mbc5) h)
  | mbc1WriteRam bank => exact goesOn_below rfl h (writeBank_grants (v := .mbc1) h)
  | mbc3WriteRam bank => exact goesOn_below rfl h (writeBank_grants (v := .mbc3) h)
  | mbc5WriteRam bank => exact goesOn_below rfl h (writeBank_grants (v := .mbc5) h)
  | parse =>
    refine goesOn_below rfl h ?_
    have hf := exec_free h
    cases (exec_parse hf).symm.trans h
    exact exec_parse (s := s.hostGrants room) ⟨hf.clean, hf.idle⟩

/-! ### Every step of a suspended operation -/

theorem step_clean {s t : State} (h : step s = .next t) : s.contention = false := by
  cases hc : s.contention with
  | false => rfl
  | true => rw [step, if_pos hc] at h; cases h

theorem step_goesOn_held {s t : State} (room : Option Nat) (ht : s.control.takes = true) (h : step s = .next t) :
    GoesOn room t (step (s.hostGrants room)) := by
  have hc := step_clean h
  have hx : s.rx ≠ [] := fun z => by rw [step_withoutByte hc ht z] at h; cases h
  have hs : ∀ rest next, s.control ≠ .sending rest next := fun rest next e => by rw [e] at ht; cases ht
  cases (step_held hc ht hx).symm.trans h
  have g := goesOn_resumeCommand (room := room) hc
  rw [goOn_still hs] at g
  rw [step_held (s := s.hostGrants room) hc ht hx]
  exact g

theorem step_goesOn_sending {s t : State} {room : Option Nat} (hr : room ≠ some 0) {rest : List Byte} {next : AfterSend}
    (hi : s.control = .sending rest next) (h : step s = .next t) : GoesOn room t (step (s.hostGrants room)) := by
  have hc := step_clean h
  have hspace : s.txSpace ≠ some 0 := fun z => by rw [step_withoutRoom hc hi z] at h; cases h
  cases (step_sending hc hi hspace).symm.trans h
  rw [step_sending (s := s.hostGrants room) hc hi (addRoom_ne_zero _ hr), transmit_grants]
  exact goesOn_resumeCommand ((transmit_contention rest next s).trans hc)

theorem step_goesOn {s t : State} {room : Option Nat} (hr : room ≠ some 0) (hi : s.control ≠ .idle) (h : step s = .next t) :
    GoesOn room t (step (s.hostGrants room)) := by
  cases e : s.control with
  | idle => exact absurd e hi
  | awaitLength up got => exact step_goesOn_held room (by rw [e]; rfl) h
  | awaitData up len bank off => exact step_goesOn_held room (by rw [e]; rfl) h
  | sending rest next => exact step_goesOn_sending hr e h

/-- Settles O51: an operation, or a step of a suspended one, with more room from the start is the same one going on. -/
theorem hostMayDrainInPieces : Obligations.HostMayDrainInPieces := by
  unfold Obligations.HostMayDrainInPieces
  intro s t room hr
  exact ⟨fun i h => (exec_goesOn room h).pieces hr, fun hi h => (step_goesOn hr hi h).pieces hr⟩

end Sys2Proof.Machine
end

section
/-! PROOFS. The reference cartridges (20_memory.md R95 to R98) under the default register map: what the register writes of the
bank operations select, and what the ROM windows then show. -/

namespace Sys2Proof.Machine

/-- A byte the cartridge fixes stands in the buffer after the window that read it. -/
theorem WindowInBuffer.readBuffer_eq {s t : State} {base : Addr} {n i : Nat} {cs : Bool} {b : Byte}
    (w : WindowInBuffer s t base n cs) (hi : i < n) (ha : t.cart.answer (base + BitVec.ofNat 16 i) cs = some b) :
    t.readBuffer i = b := by
  obtain ⟨k, -, -, e⟩ := (w i).1 hi
  rw [e, ha, Option.getD_some]

/-- Byte i of a ROM read: what the cartridge answers once the operation's register writes have been made. -/
theorem romRead_readBuffer {s : State} {v : Variant} {select : List (Addr × Byte)} {base : Addr} {i : Nat} {b : Byte}
    (hi : i < romBankSize)
    (ha : (cartAfter s.cart (registerEvents (registerZeros s.params v ++ select))).answer (base + BitVec.ofNat 16 i) false =
      some b) : (s.romRead v select base).readBuffer i = b := by
  rw [← zeroWrites_eq] at ha
  exact (inBuffer_romRead s v select base).readBuffer_eq hi ((done_romRead s v select base).cart ▸ ha)

/-- An offset into a window that does not run over the end of the address space (30_encoding.md R113). -/
theorem offset_toNat {base : Addr} {i : Nat} (h : base.toNat + i < 65536) :
    (base + BitVec.ofNat 16 i).toNat = base.toNat + i := by
  rw [BitVec.toNat_add, BitVec.toNat_ofNat]
  omega

theorem romIndex_of_lt {bank nb : Nat} (h : bank < nb) (off : Nat) : romIndex bank nb off = bank * 16384 + off := by
  rw [romIndex, Nat.mod_eq_of_lt h]

/-! ### The switchable window -/

section switchable
variable {a : Addr} {i : Nat} (ha : a.toNat = 0x4000 + i) (hi : i < 0x4000) (cs : Bool)
include ha hi

theorem RefMbc1.answer_switchable (c : RefMbc1) :
    c.answer a cs = some (romByte c.rom (romIndex (c.bank2.toNat * 32 + c.bank1.toNat) c.nb i)) := by
  rw [RefMbc1.answer, if_neg (by omega), if_pos (by omega), ha, Nat.add_sub_cancel_left]

theorem RefMbc3.answer_switchable (c : RefMbc3) : c.answer a cs = some (romByte c.rom (romIndex c.romb.toNat c.nb i)) := by
  rw [RefMbc3.answer, if_neg (by omega), if_pos (by omega), ha, Nat.add_sub_cancel_left]

theorem RefMbc5.answer_switchable (c : RefMbc5) :
    c.answer a cs = some (romByte c.rom (romIndex (c.romb1.toNat * 256 + c.romb0.toNat) c.nb i)) := by
  rw [RefMbc5.answer, if_neg (by omega), if_pos (by omega), ha, Nat.add_sub_cancel_left]

end switchable

/-! ### One register write, at the addresses of the default register map -/

section registers
variable (cs : Bool) (d : Byte)

@[simp] theorem RefMbc1.accept_gate (c : RefMbc1) : c.accept ⟨0x0000#16, cs, d⟩ = { c with ramg := d.setWidth 4 } := by
  simp [RefMbc1.accept]
@[simp] theorem RefMbc1.accept_bank1 (c : RefMbc1) : c.accept ⟨0x2000#16, cs, d⟩ =
    { c with bank1 := if d.setWidth 5 = (0 : BitVec 5) then 1 else d.setWidth 5 } := by
  simp [RefMbc1.accept]
@[simp] theorem RefMbc1.accept_bank2 (c : RefMbc1) : c.accept ⟨0x4000#16, cs, d⟩ = { c with bank2 := d.setWidth 2 } := by
  simp [RefMbc1.accept]
@[simp] theorem RefMbc1.accept_mode (c : RefMbc1) : c.accept ⟨0x6000#16, cs, d⟩ = { c with mode := d.setWidth 1 } := by
  simp [RefMbc1.accept]

@[simp] theorem RefMbc3.accept_gate (c : RefMbc3) : c.accept ⟨0x0000#16, cs, d⟩ = .mbc3 { c with ramg := d.setWidth 4 } := by
  simp [RefMbc3.accept, RefMbc3.acceptRegister]
@[simp] theorem RefMbc3.accept_bank (c : RefMbc3) : c.accept ⟨0x2000#16, cs, d⟩ =
    .mbc3 { c with romb := if d.setWidth 7 = (0 : BitVec 7) then 1 else d.setWidth 7 } := by
  simp [RefMbc3.accept, RefMbc3.acceptRegister]
@[simp] theorem RefMbc3.accept_ramBank (c : RefMbc3) : c.accept ⟨0x4000#16, cs, d⟩ =
    .mbc3 { c with ramb := d.setWidth 4 } := by
  simp [RefMbc3.accept, RefMbc3.acceptRegister]
@[simp] theorem RefMbc3.accept_latch (c : RefMbc3) : c.accept ⟨0x6000#16, cs, d⟩ = .mbc3 { c with
    rtcLatched := if c.latch = 0 ∧ d.setWidth 1 = (1 : BitVec 1) then c.rtcLive else c.rtcLatched
    latch := d.setWidth 1 } := by
  simp [RefMbc3.accept, RefMbc3.acceptRegister]

@[simp] theorem RefMbc5.accept_gate (c : RefMbc5) : c.accept ⟨0x0000#16, cs, d⟩ = { c with ramg := d } := by
  simp [RefMbc5.accept]
@[simp] theorem RefMbc5.accept_bankLow (c : RefMbc5) : c.accept ⟨0x2000#16, cs, d⟩ = { c with romb0 := d } := by
  simp [RefMbc5.accept]
@[simp] theorem RefMbc5.accept_bankHigh (c : RefMbc5) : c.accept ⟨0x3000#16, cs, d⟩ = { c with romb1 := d.setWidth 1 } := by
  simp [RefMbc5.accept]
@[simp] theorem RefMbc5.accept_ramBank (c : RefMbc5) : c.accept ⟨0x4000#16, cs, d⟩ =
    { c with ramb := d.setWidth 4, motor := if c.rumble then d.getLsbD 3 else c.motor } := by
  simp [RefMbc5.accept]
/-- MBC5 has no register at 0x6000 (log 33). -/
@[simp] theorem RefMbc5.accept_none (c : RefMbc5) : c.accept ⟨0x6000#16, cs, d⟩ = c := by
  simp [RefMbc5.accept, RefMbc5.ramOpen, inRamWindow]

end registers

@[simp] theorem cartAfter_nil (c : Cartridge) : cartAfter c (registerEvents []) = c := rfl

@[simp] theorem cartAfter_cons (c : Cartridge) (w : Addr × Byte) (ws : List (Addr × Byte)) :
    cartAfter c (registerEvents (w :: ws)) = cartAfter (c.accept ⟨w.1, false, w.2⟩) (registerEvents ws) := rfl

/-! ### What the register writes of a ROM read select -/

/-- REF-MBC1 after `MBC1.read_rom`'s writes: mode 1, and the two fields of the bank; 0 in the low register reads back as 1
(R96). -/
theorem cartAfter_mbc1Rom (c : RefMbc1) (bank : BankOperand) :
    cartAfter (.mbc1 c) (registerEvents (registerZeros defaultParams .mbc1 ++ mbc1RomSelect defaultParams bank)) =
    .mbc1 { c with
      ramg := 0, mode := 1, bank2 := (bank7High bank).setWidth 2
      bank1 := if (bank7Low bank).setWidth 5 = (0 : BitVec 5) then 1 else (bank7Low bank).setWidth 5 } := by
  simp [registerZeros, mbc1RomSelect, defaultParams, Cartridge.accept]

/-- REF-MBC3 after `MBC3.read_rom`'s writes (R97). -/
theorem cartAfter_mbc3Rom (c : RefMbc3) (bank : BankOperand) :
    cartAfter (.mbc3 c) (registerEvents (registerZeros defaultParams .mbc3 ++ mbc3RomSelect defaultParams bank)) =
    .mbc3 { c with
      ramg := 0, ramb := 0, latch := 0
      romb := if (bank8 bank).setWidth 7 = (0 : BitVec 7) then 1 else (bank8 bank).setWidth 7 } := by
  simp [registerZeros, mbc3RomSelect, defaultParams, Cartridge.accept]

/-- REF-MBC5 after `MBC5.read_rom`'s writes (R98). -/
theorem cartAfter_mbc5Rom (c : RefMbc5) (bank : BankOperand) :
    cartAfter (.mbc5 c) (registerEvents (registerZeros defaultParams .mbc5 ++ mbc5RomSelect defaultParams bank)) =
    .mbc5 { c with
      ramg := 0, ramb := 0, motor := if c.rumble then false else c.motor
      romb0 := bank9Low bank, romb1 := (bank9High bank).setWidth 1 } := by
  simp [registerZeros, mbc5RomSelect, defaultParams, Cartridge.accept]

/-! ### The bank operand and its fields (30_encoding.md R111) -/

section fields
variable {b : Nat}

theorem bank7Low_toNat (b : Nat) : ((bank7Low (BitVec.ofNat 16 b)).setWidth 5 : BitVec 5).toNat = b % 32 := by
  simp [bank7Low, BitVec.extractLsb'_toNat]

theorem bank7High_toNat (h : b < 128) : ((bank7High (BitVec.ofNat 16 b)).setWidth 2 : BitVec 2).toNat = b / 32 := by
  simp [bank7High, BitVec.extractLsb'_toNat, Nat.shiftRight_eq_div_pow]
  omega

theorem bank8_toNat (h : b < 128) : ((bank8 (BitVec.ofNat 16 b)).setWidth 7 : BitVec 7).toNat = b := by
  simp [bank8, BitVec.extractLsb'_toNat]
  omega

theorem bank9_toNat (h : b < 512) : ((bank9High (BitVec.ofNat 16 b)).setWidth 1 : BitVec 1).toNat * 256 +
    (bank9Low (BitVec.ofNat 16 b)).toNat = b := by
  simp [bank9High, bank9Low, BitVec.extractLsb'_toNat, Nat.shiftRight_eq_div_pow]
  omega

/-- The window of a bank is the fixed one where its low field is 0 (R170). -/
theorem mbc1RomBase_eq (b : Nat) : mbc1RomBase (BitVec.ofNat 16 b) = if b % 32 = 0 then winFixed else winSwitch := by
  have e : bank7Low (BitVec.ofNat 16 b) = 0 ↔ b % 32 = 0 := by
    rw [← BitVec.toNat_inj]
    simp [bank7Low, BitVec.extractLsb'_toNat]
    omega
  simp only [mbc1RomBase, e]

/-- The window of a bank is the fixed one for bank 0 (R180). -/
theorem mbc3RomBase_eq (h : b < 128) : mbc3RomBase (BitVec.ofNat 16 b) = if b = 0 then winFixed else winSwitch := by
  have e : bank8 (BitVec.ofNat 16 b) = 0 ↔ b = 0 := by
    rw [← BitVec.toNat_inj]
    simp [bank8, BitVec.extractLsb'_toNat]
    omega
  simp only [mbc3RomBase, e]

end fields

theorem winFixed_toNat {i : Nat} (hi : i < 16384) : (winFixed + BitVec.ofNat 16 i).toNat = i := by
  rw [offset_toNat (by simp [winFixed]; omega)]
  simp [winFixed]

theorem winSwitch_toNat {i : Nat} (hi : i < 16384) : (winSwitch + BitVec.ofNat 16 i).toNat = 0x4000 + i := by
  rw [offset_toNat (by simp [winSwitch]; omega)]
  simp [winSwitch]

/-! ### Every bank reaches itself -/

/-- A ROM-bank register that reads 0 back as 1 (R96, R97). -/
theorem orOne_toNat {n : Nat} (x : BitVec n) (hn : 0 < n) :
    (if x = 0 then 1 else x).toNat = if x.toNat = 0 then 1 else x.toNat := by
  have h : x = 0 ↔ x.toNat = 0 := by simp [← BitVec.toNat_inj]
  by_cases hx : x = 0
  · rw [if_pos hx, if_pos (h.1 hx)]
    simpa using hn
  · rw [if_neg hx, if_neg (fun z => hx (h.2 z))]

section reaches
variable {b i : Nat} (hi : i < 16384)
include hi

/-- REF-ROM shows bank 0 in the fixed window and bank 1 in the switchable one (R95). -/
theorem RefRom.answer_bank (c : RefRom) (hb : b < 2) :
    c.answer (mbc1RomBase (BitVec.ofNat 16 b) + BitVec.ofNat 16 i) false = some (romByte c.rom (b * 16384 + i)) := by
  have ha : (mbc1RomBase (BitVec.ofNat 16 b) + BitVec.ofNat 16 i).toNat = b * 16384 + i := by
    rw [mbc1RomBase_eq]
    interval_cases b
    · rw [if_pos rfl, winFixed_toNat hi]; omega
    · rw [if_neg (by decide), winSwitch_toNat hi]
  rw [RefRom.answer, if_pos (by omega), ha]

/-- REF-MBC1 with the fields of bank b selected: in mode 1 the fixed window shows the bank whose low field is 0 (R96). -/
theorem RefMbc1.answer_bank (c : RefMbc1) (hb : b < c.nb) (hlow : c.bank1.toNat = if b % 32 = 0 then 1 else b % 32)
    (hhigh : c.bank2.toNat = b / 32) (hm : c.mode = 1) :
    c.answer (mbc1RomBase (BitVec.ofNat 16 b) + BitVec.ofNat 16 i) false = some (romByte c.rom (b * 16384 + i)) := by
  rw [mbc1RomBase_eq]
  split
  · next hz =>
    have ha := winFixed_toNat hi
    rw [RefMbc1.answer, if_pos (by omega), if_pos hm, ha, hhigh, show b / 32 * 32 = b by omega, romIndex_of_lt hb]
  · next hz =>
    rw [if_neg hz] at hlow
    rw [c.answer_switchable (winSwitch_toNat hi) hi, hhigh, hlow, show b / 32 * 32 + b % 32 = b by omega, romIndex_of_lt hb]

/-- REF-MBC3 with bank b selected; bank 0 is in the fixed window alone (R97). -/
theorem RefMbc3.answer_bank (c : RefMbc3) (hb : b < c.nb) (hb' : b < 128) (hr : b ≠ 0 → c.romb.toNat = b) :
    c.answer (mbc3RomBase (BitVec.ofNat 16 b) + BitVec.ofNat 16 i) false = some (romByte c.rom (b * 16384 + i)) := by
  rw [mbc3RomBase_eq hb']
  split
  · next hz =>
    have ha := winFixed_toNat hi
    rw [RefMbc3.answer, if_pos (by omega), ha, hz, Nat.zero_mul, Nat.zero_add]
  · next hz => rw [c.answer_switchable (winSwitch_toNat hi) hi, hr hz, romIndex_of_lt hb]

/-- REF-MBC5 with bank b selected (R98). -/
theorem RefMbc5.answer_bank (c : RefMbc5) (hb : b < c.nb) (hr : c.romb1.toNat * 256 + c.romb0.toNat = b) :
    c.answer (winSwitch + BitVec.ofNat 16 i) false = some (romByte c.rom (b * 16384 + i)) := by
  rw [c.answer_switchable (winSwitch_toNat hi) hi, hr, romIndex_of_lt hb]

end reaches

/-- Settles O30: the operation's writes select the bank it was given, and its window is where that bank shows. -/
theorem romBanksReachThemselves : Obligations.RomBanksReachThemselves := by
  unfold Obligations.RomBanksReachThemselves
  intro s b i hf hp hi
  refine ⟨fun c hc hb => ⟨_, exec_mbc1ReadRom hf _, romRead_readBuffer hi ?_⟩,
    fun c hc hb hn => ⟨_, exec_mbc1ReadRom hf _, romRead_readBuffer hi ?_⟩,
    fun c hc hb hn => ⟨_, exec_mbc3ReadRom hf _, romRead_readBuffer hi ?_⟩,
    fun c hc hb hn => ⟨_, exec_mbc5ReadRom hf _, romRead_readBuffer hi ?_⟩⟩
  · rw [hc, cartAfter_rom_registers]
    exact c.answer_bank hi hb
  · have hlow := orOne_toNat ((bank7Low (BitVec.ofNat 16 b)).setWidth 5 : BitVec 5) (by decide)
    rw [bank7Low_toNat] at hlow
    rw [hc, hp, cartAfter_mbc1Rom]
    exact RefMbc1.answer_bank hi _ hb hlow (bank7High_toNat (by omega)) rfl
  · have hrom := orOne_toNat ((bank8 (BitVec.ofNat 16 b)).setWidth 7 : BitVec 7) (by decide)
    rw [bank8_toNat (by omega)] at hrom
    rw [hc, hp, cartAfter_mbc3Rom]
    exact RefMbc3.answer_bank hi _ hb (by omega) fun hz => hrom.trans (if_neg hz)
  · rw [hc, hp, cartAfter_mbc5Rom]
    exact RefMbc5.answer_bank hi _ hb (bank9_toNat (by omega))

end Sys2Proof.Machine
end

section
/-! PROOFS. The RAM window of the reference cartridges (20_memory.md R75): a bank written through it reads back through it. -/

namespace Sys2Proof.Machine

/-- The register writes by which a RAM bank operation opens its bank (R172, R181, R201). -/
def ramSelect (v : Variant) (bank : BankOperand) : List BusWrite :=
  registerEvents (registerZeros defaultParams v ++ ramBankWrites defaultParams bank v)

/-- These register writes open, on a cartridge that is then `shown m` for its RAM m, the 8192 bytes of RAM from index k on: the
window stores there and answers from there, and the same writes made again change nothing. -/
structure OpensRam (c : Cartridge) (select : List BusWrite) (shown : Memory → Cartridge) (k : Nat) : Prop where
  opened  : ∃ m, cartAfter c select = shown m
  again   : ∀ m, cartAfter (shown m) select = shown m
  stores  : ∀ m i d, i < 8192 → (shown m).accept ⟨0xA000 + BitVec.ofNat 16 i, true, d⟩ = shown (Memory.write m (k + i) d)
  answers : ∀ m i, i < 8192 → (shown m).answer (0xA000 + BitVec.ofNat 16 i) true = some (ramByte m (k + i))

section opened
variable {c : Cartridge} {select : List BusWrite} {shown : Memory → Cartridge} {k : Nat}

/-- The first n cells of a RAM write, one after another. -/
theorem OpensRam.cartAfter_cells (h : OpensRam c select shown k) (m : Memory) (data : Nat → Byte) {n : Nat} (hn : n ≤ 8192) :
    cartAfter (shown m) ((List.range n).map fun i => ⟨0xA000 + BitVec.ofNat 16 i, true, data i⟩) =
    shown (Memory.writeBytes m k ((List.range n).map data)) := by
  induction n with
  | zero => rfl
  | succ n ih =>
    rw [List.range_succ, List.map_append, List.map_append, cartAfter_append, ih (by omega), Memory.writeBytes_append,
      List.length_map, List.length_range]
    exact h.stores _ n (data n) (by omega)

/-- A whole bank written, and its bank opened again. -/
theorem OpensRam.reopened (h : OpensRam c select shown k) (data : Nat → Byte) :
    ∃ m, cartAfter (cartAfter c (select ++ ramEvents data)) select =
      shown (Memory.writeBytes m k ((List.range 8192).map data)) := by
  obtain ⟨m, e⟩ := h.opened
  refine ⟨m, ?_⟩
  rw [cartAfter_append, e, ramEvents, h.cartAfter_cells m data (Nat.le_refl _), h.again]

/-- Byte i of the bank is what was written to it. -/
theorem OpensRam.answer_written (h : OpensRam c select shown k) (m : Memory) (data : Nat → Byte) {i : Nat} (hi : i < 8192) :
    (shown (Memory.writeBytes m k ((List.range 8192).map data))).answer (0xA000 + BitVec.ofNat 16 i) true = some (data i) := by
  have hlen : ((List.range 8192).map data).length = 8192 := by rw [List.length_map, List.length_range]
  rw [h.answers _ i hi, ramByte, Memory.read_writeBytes, if_pos (by omega), Nat.add_sub_cancel_left, List.getElem?_map,
    List.getElem?_range hi]
  rfl

end opened

section roundTrip
variable {s : State} (hf : s.Free) (hp : s.params = defaultParams)
include hf hp

/-- What `V.write_ram` has done to the cartridge. -/
theorem exec_writeRam_cart (v : Variant) (bank : BankOperand) : ∃ t, exec (writeRamOf v bank) s = .next t ∧ t.Free ∧
    t.params = defaultParams ∧ t.cart = cartAfter s.cart (ramSelect v bank ++ ramEvents s.readBuffer) := by
  have d := done_ramWritten s v (ramBankWrites s.params bank v) s.readBuffer
  refine ⟨_, exec_writeRam hf v bank, d.free hf, d.same.params.trans hp, ?_⟩
  rw [d.cart, zeroWrites_eq, hp, ramSelect]

/-- What `V.read_ram` brings into BankBuffer: what the cartridge answers with its bank open. -/
theorem exec_readRam_readBuffer (v : Variant) (bank : BankOperand) : ∃ u, exec (readRamOf v bank) s = .next u ∧
    ∀ i b, i < 8192 → (cartAfter s.cart (ramSelect v bank)).answer (0xA000 + BitVec.ofNat 16 i) true = some b →
      u.readBuffer i = b := by
  have d := done_ramRead s v (ramBankWrites s.params bank v)
  have w := inBuffer_ramRead s v (ramBankWrites s.params bank v)
  refine ⟨_, exec_readRam hf v bank, fun i b hi ha => w.readBuffer_eq hi ?_⟩
  rw [d.cart, zeroWrites_eq, hp]
  exact ha

/-- What `V.write_ram` wrote `V.read_ram` brings back, on a cartridge whose RAM bank the writes of `V` open. -/
theorem ram_roundTrip {v : Variant} {bank : BankOperand} (m : Memory) {shown : Memory → Cartridge} {k : Nat}
    (h : OpensRam s.cart (ramSelect v bank) shown k) :
    ∃ t u, exec (writeRamOf v bank) s = .next t ∧ exec (readRamOf v bank) { t with bankBuffer := m } = .next u ∧
      ∀ i, i < 8192 → u.readBuffer i = s.readBuffer i := by
  obtain ⟨t, ht, htf, htp, htc⟩ := exec_writeRam_cart hf hp v bank
  obtain ⟨u, hu, hbuf⟩ := exec_readRam_readBuffer (s := { t with bankBuffer := m }) ⟨htf.clean, htf.idle⟩ htp v bank
  obtain ⟨m', e⟩ := h.reopened s.readBuffer
  refine ⟨t, u, ht, hu, fun i hi => hbuf i _ hi ?_⟩
  rw [htc, e]
  exact h.answer_written m' s.readBuffer hi

end roundTrip

/-! ### The four cartridges with RAM -/

theorem RefRom.opensRam (c : RefRom) (hn : c.nr = 1) (bank : BankOperand) :
    OpensRam (.rom c) (ramSelect .mbc1 bank) (fun m => .rom { c with ram := m }) 0 where
  opened := ⟨c.ram, cartAfter_rom_registers c _⟩
  again m := cartAfter_rom_registers _ _
  stores m i d hi := by
    rw [Nat.zero_add]
    exact congrArg Cartridge.rom (RefRom.accept_ram _ d (windowAddr_toNat hi) (windowAddr_inside hi) _ hn)
  answers m i hi := by
    rw [Nat.zero_add]
    exact RefRom.answer_ram _ (windowAddr_toNat hi) (windowAddr_inside hi) _ hn

/-- REF-MBC1 after the writes that open a RAM bank (R172). -/
theorem cartAfter_mbc1Ram (c : RefMbc1) (bank : BankOperand) : cartAfter (.mbc1 c) (ramSelect .mbc1 bank) =
    .mbc1 { c with ramg := 0xA, bank1 := 1, mode := 1, bank2 := (ramBank2 bank).setWidth 2 } := by
  simp [ramSelect, registerZeros, ramBankWrites, defaultParams, Cartridge.accept, ramBank2]

/-- REF-MBC3 after the writes that open a RAM bank (R181). -/
theorem cartAfter_mbc3Ram (c : RefMbc3) (bank : BankOperand) : cartAfter (.mbc3 c) (ramSelect .mbc3 bank) =
    .mbc3 { c with ramg := 0xA, romb := 1, latch := 0, ramb := (ramBank8 bank).setWidth 4 } := by
  simp [ramSelect, registerZeros, ramBankWrites, defaultParams, Cartridge.accept, ramBank8]

/-- REF-MBC5 after the writes that open a RAM bank (R201). -/
theorem cartAfter_mbc5Ram (c : RefMbc5) (bank : BankOperand) : cartAfter (.mbc5 c) (ramSelect .mbc5 bank) =
    .mbc5 { c with
      ramg := 0xA, romb0 := 0, romb1 := 0, ramb := (ramBank8 bank).setWidth 4
      motor := if c.rumble then (ramBank8 bank).getLsbD 3 else c.motor } := by
  cases h : c.rumble <;> simp [ramSelect, registerZeros, ramBankWrites, defaultParams, Cartridge.accept, ramBank8, h]

/-- The cartridges with the RAM bank of the operand open, by their RAM. -/
def RefMbc1.ramShown (c : RefMbc1) (bank : BankOperand) (m : Memory) : RefMbc1 :=
  { c with ramg := 0xA, bank1 := 1, mode := 1, bank2 := (ramBank2 bank).setWidth 2, ram := m }

def RefMbc3.ramShown (c : RefMbc3) (bank : BankOperand) (m : Memory) : RefMbc3 :=
  { c with ramg := 0xA, romb := 1, latch := 0, ramb := (ramBank8 bank).setWidth 4, ram := m }

def RefMbc5.ramShown (c : RefMbc5) (bank : BankOperand) (m : Memory) : RefMbc5 :=
  { c with
    ramg := 0xA, romb0 := 0, romb1 := 0, ramb := (ramBank8 bank).setWidth 4
    motor := if c.rumble then (ramBank8 bank).getLsbD 3 else c.motor, ram := m }

/-- An operand below 4 selects a RAM bank and no clock register (R181). -/
theorem ramBank8_lt {bank : BankOperand} (hb : bank.toNat < 4) : ((ramBank8 bank).setWidth 4 : BitVec 4).toNat < 4 := by
  simp [ramBank8, BitVec.extractLsb'_toNat]
  omega

theorem RefMbc1.opensRam (c : RefMbc1) (hn : 0 < c.nr) (bank : BankOperand) :
    OpensRam (.mbc1 c) (ramSelect .mbc1 bank) (fun m => .mbc1 (c.ramShown bank m))
      (((ramBank2 bank).setWidth 2 : BitVec 2).toNat % c.nr * 8192) where
  opened := ⟨c.ram, cartAfter_mbc1Ram c bank⟩
  again m := cartAfter_mbc1Ram (c.ramShown bank m) bank
  stores m _ d hi :=
    congrArg Cartridge.mbc1 (RefMbc1.accept_ram _ d (windowAddr_toNat hi) (windowAddr_inside hi) (c.ramShown bank m) rfl rfl hn)
  answers m _ hi := RefMbc1.answer_ram _ (windowAddr_toNat hi) (windowAddr_inside hi) (c.ramShown bank m) rfl rfl hn

theorem RefMbc3.opensRam (c : RefMbc3) (hn : 0 < c.nr) {bank : BankOperand} (hb : bank.toNat < 4) :
    OpensRam (.mbc3 c) (ramSelect .mbc3 bank) (fun m => .mbc3 (c.ramShown bank m))
      (((ramBank8 bank).setWidth 4 : BitVec 4).toNat % c.nr * 8192) where
  opened := ⟨c.ram, cartAfter_mbc3Ram c bank⟩
  again m := cartAfter_mbc3Ram (c.ramShown bank m) bank
  stores m _ d hi :=
    RefMbc3.accept_ram _ d (windowAddr_toNat hi) (windowAddr_inside hi) (c.ramShown bank m) rfl (ramBank8_lt hb) hn
  answers m _ hi := RefMbc3.answer_ram _ (windowAddr_toNat hi) (windowAddr_inside hi) (c.ramShown bank m) rfl (ramBank8_lt hb) hn

theorem RefMbc5.opensRam (c : RefMbc5) (hn : 0 < c.nr) (bank : BankOperand) :
    OpensRam (.mbc5 c) (ramSelect .mbc5 bank) (fun m => .mbc5 (c.ramShown bank m))
      (((ramBank8 bank).setWidth 4 : BitVec 4).toNat % c.nr * 8192) where
  opened := ⟨c.ram, cartAfter_mbc5Ram c bank⟩
  again m := by
    rw [cartAfter_mbc5Ram]
    cases h : c.rumble <;> simp [RefMbc5.ramShown, h]
  stores m _ d hi :=
    congrArg Cartridge.mbc5 (RefMbc5.accept_ram _ d (windowAddr_toNat hi) (windowAddr_inside hi) (c.ramShown bank m) rfl hn)
  answers m _ hi := RefMbc5.answer_ram _ (windowAddr_toNat hi) (windowAddr_inside hi) (c.ramShown bank m) rfl hn

/-- Settles O31: on each cartridge the operation's writes open one RAM bank, and open the same one again. -/
theorem ramRoundTrip : Obligations.RamRoundTrip := by
  unfold Obligations.RamRoundTrip
  intro v bank s m hf hp h
  obtain ⟨rfl, c, hc, hn⟩ | ⟨rfl, c, hc, hn⟩ | ⟨rfl, hb, c, hc, hn⟩ | ⟨rfl, c, hc, hn⟩ := h
  · exact ram_roundTrip hf hp m (hc ▸ c.opensRam hn bank)
  · exact ram_roundTrip hf hp m (hc ▸ c.opensRam hn bank)
  · exact ram_roundTrip hf hp m (hc ▸ c.opensRam hn hb)
  · exact ram_roundTrip hf hp m (hc ▸ c.opensRam hn bank)

end Sys2Proof.Machine
end

section
/-! PROOFS. Power-up (70_reset_and_hazards.md R320(c), 20_memory.md R72): what a cartridge just put in the slot shows, and the
header read that follows. -/

namespace Sys2Proof.Machine

theorem insertCartridge_idle {s : State} (h : s.control = .idle) (c : Cartridge) :
    s.insertCartridge c = { s with cart := c.powerUp } := by
  rw [State.insertCartridge, h]

theorem insertCartridge_free {s : State} (hf : s.Free) (c : Cartridge) : (s.insertCartridge c).Free := by
  rw [insertCartridge_idle hf.idle]
  exact ⟨hf.clean, hf.idle⟩

/-! ### Bank 0 in the fixed window -/

/-- The ROM whose bank 0 stands in the fixed window: that of every reference cartridge, of an MBC1 one in mode 0 (R95 to R98). -/
def Cartridge.bankZero : Cartridge → Option Memory
  | .unknown => none
  | .rom c => some c.rom
  | .mbc1 c => if c.mode = 0 then some c.rom else none
  | .mbc3 c => some c.rom
  | .mbc5 c => some c.rom

theorem Cartridge.answer_bankZero {c : Cartridge} {rom : Memory} (h : c.bankZero = some rom) {a : Addr} (ha : a.toNat < 0x4000)
    (cs : Bool) : c.answer a cs = some (romByte rom a.toNat) := by
  cases c with
  | unknown => cases h
  | rom c =>
    cases h
    exact if_pos (by omega)
  | mbc1 c =>
    obtain ⟨hm, e⟩ := Option.ite_none_right_eq_some.1 h
    cases e
    rw [Cartridge.answer, RefMbc1.answer, if_pos ha, if_neg (by simp [hm]), romIndex, Nat.zero_mod, Nat.zero_mul, Nat.zero_add]
  | mbc3 c =>
    cases h
    exact if_pos ha
  | mbc5 c =>
    cases h
    exact if_pos ha

/-- A reference cartridge with this ROM. -/
def Cartridge.HasRom (c : Cartridge) (rom : Memory) : Prop :=
  (∃ r, c = .rom r ∧ r.rom = rom) ∨ (∃ r, c = .mbc1 r ∧ r.rom = rom) ∨ (∃ r, c = .mbc3 r ∧ r.rom = rom) ∨
    (∃ r, c = .mbc5 r ∧ r.rom = rom)

section hasRom
variable {c : Cartridge} {rom : Memory} (h : c.HasRom rom)
include h

/-- Every controller powers up presenting bank 0 (R72). -/
theorem Cartridge.HasRom.powerUp_bankZero : c.powerUp.bankZero = some rom := by
  obtain ⟨r, rfl, rfl⟩ | ⟨r, rfl, rfl⟩ | ⟨r, rfl, rfl⟩ | ⟨r, rfl, rfl⟩ := h <;> rfl

/-- The zero writes of the header read, MBC1's whatever the cartridge is (R171), leave it so. -/
theorem Cartridge.HasRom.headerRead_bankZero :
    (cartAfter c.powerUp (registerEvents (registerZeros defaultParams .mbc1))).bankZero = some rom := by
  obtain ⟨r, rfl, rfl⟩ | ⟨r, rfl, rfl⟩ | ⟨r, rfl, rfl⟩ | ⟨r, rfl, rfl⟩ := h
  · rw [Cartridge.powerUp, cartAfter_rom_registers]
    rfl
  all_goals simp [registerZeros, defaultParams, Cartridge.powerUp, Cartridge.accept, Cartridge.bankZero, RefMbc1.powerUp,
    RefMbc3.powerUp, RefMbc5.powerUp]

end hasRom

/-! ### The closed RAM window -/

section closed
variable {a : Addr} (ha : 0x8000 ≤ a.toNat) (cs : Bool)
include ha

theorem RefMbc1.answer_closed (c : RefMbc1) (hg : c.ramg ≠ 0xA#4) : c.answer a cs = none := by
  rw [RefMbc1.answer, if_neg (by omega), if_neg (by omega), if_neg (by simp [RefMbc1.ramOpen, hg])]

theorem RefMbc3.answer_closed (c : RefMbc3) (hg : c.ramg ≠ 0xA#4) : c.answer a cs = none := by
  rw [RefMbc3.answer, if_neg (by omega), if_neg (by omega), if_neg (by simp [RefMbc3.windowOpen, hg])]

theorem RefMbc5.answer_closed (c : RefMbc5) (hg : c.ramg ≠ 0x0A#8) : c.answer a cs = none := by
  rw [RefMbc5.answer, if_neg (by omega), if_neg (by omega), if_neg (by simp [RefMbc5.ramOpen, hg])]

/-- A controller powers up with its gate closed (R96 to R98); REF-ROM has none. -/
theorem Cartridge.HasRom.powerUp_closed {c : Cartridge} {rom : Memory} (h : c.HasRom rom) (hn : ∀ r, c ≠ .rom r) :
    c.powerUp.answer a cs = none := by
  obtain ⟨r, rfl, -⟩ | ⟨r, rfl, -⟩ | ⟨r, rfl, -⟩ | ⟨r, rfl, -⟩ := h
  · exact absurd rfl (hn r)
  · exact RefMbc1.answer_closed ha cs r.powerUp (by simp [RefMbc1.powerUp])
  · exact RefMbc3.answer_closed ha cs r.powerUp (by simp [RefMbc3.powerUp])
  · exact RefMbc5.answer_closed ha cs r.powerUp (by simp [RefMbc5.powerUp])

end closed

/-! ### The header read -/

/-- The header read on a cartridge that shows bank 0 after the zero writes brings its header into BankBuffer (R171). -/
theorem headerRead_readBuffer {s : State} (hp : s.params = defaultParams) {rom : Memory}
    (h : (cartAfter s.cart (registerEvents (registerZeros defaultParams .mbc1))).bankZero = some rom) {i : Nat} (hi : i < 0x50) :
    s.headerRead.readBuffer i = romByte rom (0x100 + i) := by
  have d := done_headerRead s
  have w := inBuffer_headerRead s
  rw [zeroWrites_eq, hp] at d
  rw [hp] at w
  have ha : ((0x100 : Addr) + BitVec.ofNat 16 i).toNat = 0x100 + i := offset_toNat (by simp; omega)
  refine w.readBuffer_eq hi ?_
  rw [d.cart]
  refine (Cartridge.answer_bankZero h (a := (0x100 : Addr) + BitVec.ofNat 16 i) (by omega) false).trans ?_
  rw [ha]

/-- Settles O32: the registers are read off the power-up, and neither it nor the header read's zero writes move the fixed window
from bank 0. -/
theorem powerUpPresentsBankZero : Obligations.PowerUpPresentsBankZero := by
  unfold Obligations.PowerUpPresentsBankZero
  intro s hf
  have inserted := insertCartridge_idle hf.idle
  refine ⟨rfl, fun c => inserted _, fun c => inserted _, fun c => inserted _, fun c => inserted _, fun c rom h => ?_⟩
  have hrom : c.HasRom rom := h
  have hcart : (s.insertCartridge c).cart = c.powerUp := by rw [inserted]
  refine ⟨fun a cs ha => ?_, fun hn a cs ha => ?_, fun hp => ?_⟩
  · rw [hcart]
    exact Cartridge.answer_bankZero hrom.powerUp_bankZero ha cs
  · rw [hcart]
    exact hrom.powerUp_closed ha cs hn
  · have hp' : (s.insertCartridge c).params = defaultParams := by rw [inserted]; exact hp
    refine ⟨_, exec_mbc1ReadHeader (insertCartridge_free hf c), fun i hi => headerRead_readBuffer hp' ?_ hi⟩
    rw [hcart]
    exact hrom.headerRead_bankZero

end Sys2Proof.Machine
end

section
/-! PROOFS. The decoder and the encoder are inverse to each other (30_encoding.md R103, R106, R108, R111, R116; log 14): what an
encoding decodes to, what can decode at all, and which words so name no operation (R107, R117). -/

namespace Sys2Proof

/-! ### The words of the encoder, field by field -/

section words
variable (b l : Byte) (a : BitVec 16)

@[simp] theorem labelOf_byteWord : labelOf (byteWord b) = b := labelOf_packWord _ _ _
@[simp] theorem labelOf_operandWord : labelOf (operandWord l a) = l := labelOf_packWord _ _ _
@[simp] theorem labelOf_regWord : labelOf (regWord a b) = b := labelOf_packWord _ _ _
@[simp] theorem operandOf_operandWord : operandOf (operandWord l a) = a := operandOf_packWord _ _ _
@[simp] theorem operandOf_regWord : operandOf (regWord a b) = a := operandOf_packWord _ _ _
@[simp] theorem valueOf_operandWord : valueOf (operandWord l a) = 0 := valueOf_packWord _ _ _
@[simp] theorem valueOf_regWord : valueOf (regWord a b) = 0 := valueOf_packWord _ _ _

end words

/-! ### What an encoding decodes to -/

@[simp] theorem byteOnly_byteWord (b : Byte) (i : Instr) : byteOnly (byteWord b) i = .instr i := by
  simp [byteOnly, byteWord]

@[simp] theorem withOperand_operandWord (l : Byte) (a : BitVec 16) (f : BitVec 16 → Instr) :
    withOperand (operandWord l a) f = .instr (f a) := by
  simp [withOperand]

@[simp] theorem withByte_operandWord (l b : Byte) (f : Byte → Instr) :
    withByte (operandWord l (b.setWidth 16)) f = .instr (f b) := by
  have hb : (b.setWidth 16).toNat < 256 := toNat_setWidth_lt b
  rw [withByte, operandOf_operandWord, if_pos ⟨hb, valueOf_operandWord _ _⟩, setWidth_back (by decide)]

/-- A value field of k bits, widened to the data byte of its register's word (R40, R103). -/
@[simp] theorem field_regWord {k : Nat} (hk : k ≤ 8) (a : Addr) (x : BitVec k) (f : BitVec k → Instr) :
    field k (regWord a (x.setWidth 8)) f = .instr (f x) := by
  rw [field, labelOf_regWord, if_pos (toNat_setWidth_lt x), setWidth_back hk]

@[simp] theorem field_regWord_byte (a : Addr) (d : Byte) (f : Byte → Instr) : field 8 (regWord a d) f = .instr (f d) :=
  BitVec.setWidth_eq d ▸ field_regWord (Nat.le_refl 8) a d f

theorem decode_byteWord {p : Params} {c : Byte} {i : Instr} (h : commandOf p.cmdId c = some i) :
    decode p ⟨.cmd, byteWord c⟩ = .instr i := by
  rw [← setWidth_eq_byteWord, decode_selector h]

theorem le_of_unknownRow {c : Byte} {i : Instr} (h : unknownRow c = some i) : 6 ≤ c.toNat := by
  refine Nat.le_of_not_lt fun hc => ?_
  rw [unknownRow, if_pos hc] at h
  cases h

theorem decode_unknownRow {p : Params} (hw : p.wf = true) {c : Byte} {i : Instr} (h : unknownRow c = some i) :
    decode p ⟨.cmd, byteWord c⟩ = .instr i :=
  decode_byteWord ((commandOf_unknown (p.cmdId_wf hw) (le_of_unknownRow h)).trans h)

/-- No address of a register map is an earlier one of it, so that the decoder's chain of tests reaches it. -/
theorem ne_of_nodup {a b c d : Addr} (h : [a, b, c, d].Nodup) : b ≠ a ∧ c ≠ a ∧ d ≠ a ∧ c ≠ b ∧ d ≠ b ∧ d ≠ c := by
  simp only [List.nodup_cons, List.mem_cons, List.not_mem_nil, or_false, not_or] at h
  obtain ⟨⟨hab, hac, had⟩, ⟨hbc, hbd⟩, hcd, -⟩ := h
  exact ⟨Ne.symm hab, Ne.symm hac, Ne.symm had, Ne.symm hbc, Ne.symm hbd, Ne.symm hcd⟩

theorem Params.registers_nodup {p : Params} (hw : p.wf = true) : [p.m1Ramg, p.m1Bank1, p.m1Bank2, p.m1Mode].Nodup ∧
    [p.m3Ramg, p.m3Romb, p.m3Ramb, p.m3Latch].Nodup ∧ [p.m5Ramg, p.m5Romb0, p.m5Romb1, p.m5Ramb].Nodup := by
  simp only [Params.wf, Bool.and_eq_true, decide_eq_true_eq] at hw
  obtain ⟨⟨⟨-, h1⟩, h3⟩, h5⟩ := hw
  exact ⟨h1, h3, h5⟩

theorem decode_regw (p : Params) (v : Variant) (a : Addr) (d : Byte) :
    decode p ⟨.regw v, regWord a d⟩ = decodeRegister p v (regWord a d) := by
  simp [decode, decodeRegw]

/-- Settles O1: an encoding's label, or its address, leads to its own row, and the fields of its word are the operands. -/
theorem decodeOfEncode : Obligations.DecodeOfEncode := by
  unfold Obligations.DecodeOfEncode
  intro p i hp hi
  obtain ⟨hParse, hRom, hRam, hWrite, hRtc, hWriteRtc⟩ := command_ids (p.cmdId_wf hp)
  obtain ⟨nodup1, nodup3, nodup5⟩ := p.registers_nodup hp
  cases i with
  | parseHeader => exact decode_byteWord (commandOf_command hParse)
  | readRom => exact decode_byteWord (commandOf_command hRom)
  | readRam => exact decode_byteWord (commandOf_command hRam)
  | writeRam => exact decode_byteWord (commandOf_command hWrite)
  | readRtc => exact decode_byteWord (commandOf_command hRtc)
  | writeRtc => exact decode_byteWord (commandOf_command hWriteRtc)
  | unknown0607 c | unknown080F c | unknown101F c | unknown203F c | unknown407F c | unknown80FF c =>
    exact decode_unknownRow hp (by simp only [unknownRow_of_wf, hi])
  | reset | shiftOutAddress _ | shiftOutData _ | shiftInData => simp [decode, encode, decodeInt, decodeBusDriver]
  | registerWrite _ _ | writeCell _ _ => simp [decode, encode, decodeInt, decodeCartridge]
  | resetCartridge _ | readCell _ => simp [decode, encode, decodeInt, decodeCartridge, decodeResetCartridge]
  | mbc1ReadRom _ | mbc1ReadHeader | mbc1ReadRam _ | mbc1WriteRam _ => simp [decode, encode, decodeInt, decodeMbc1]
  | mbc3ReadRom _ | mbc3ReadRam _ | mbc3WriteRam _ | mbc3ReadRtc | mbc3WriteRtc =>
    simp [decode, encode, decodeInt, decodeMbc3]
  | mbc5ReadRom _ | mbc5ReadRam _ | mbc5WriteRam _ | parse => simp [decode, encode, decodeInt, decodeMbc5]
  | statusOk | statusUnknownCommand | statusInvalidNumRomBanks | statusInvalidNumRamBanks | statusInvalidCartridgeType
  | statusInvalidRamWriteSize | statusCartridgeHasNoRam | statusCartridgeHasNoRtc | statusInvalidRtcWriteSize =>
    simp [decode, encode, decodeStatus]
  | regwM1Ramg _ | regwM1Bank1 _ | regwM1Bank2 _ | regwM1Mode _ =>
    simp [encode, decode_regw, decodeRegister, ne_of_nodup nodup1]
  | regwM3Ramg _ | regwM3Romb _ | regwM3Ramb _ | regwM3Latch _ =>
    simp [encode, decode_regw, decodeRegister, ne_of_nodup nodup3]
  | regwM5Ramg _ | regwM5Romb0 _ | regwM5Romb1 _ | regwM5Ramb _ =>
    simp [encode, decode_regw, decodeRegister, ne_of_nodup nodup5]

/-! ### What can decode -/

/-- A decoder's answer to a word is faithful: an instruction it gives is well formed, and that word is its encoding. -/
def Decoded.Faithful (p : Params) (sel : Selection) (d : Decoded) : Prop :=
  ∀ i, d = .instr i → i.wf = true ∧ encode p i = sel

section faithful
variable {p : Params} {fmt : Format} {w : BitVec 32}

/-- A row whose encoding is made of the fields of the word. -/
theorem faithful_instr {x : BitVec 32} {i : Instr} (hi : i.wf = true ∧ encode p i = ⟨fmt, x⟩) (hx : x = w) :
    (Decoded.instr i).Faithful p ⟨fmt, w⟩ := by
  rintro _ ⟨⟩
  exact hx ▸ hi

theorem faithful_rejected {sel : Selection} (why : DecodeReject) : (Decoded.rejected why).Faithful p sel := nofun

/-- One test of a decoder, which gives its row when it succeeds. -/
theorem faithful_ite {sel : Selection} {c : Prop} [Decidable c] {d e : Decoded} (hd : c → d.Faithful p sel)
    (he : e.Faithful p sel) : (if c then d else e).Faithful p sel := by
  split
  · next h => exact hd h
  · exact he

theorem word_of_fields {v l : Byte} {a : BitVec 16} (hv : valueOf w = v) (ha : operandOf w = a) (hl : labelOf w = l) :
    packWord v a l = w := by
  rw [← hv, ← ha, ← hl, packWord_fields]

theorem faithful_byteOnly {l : Byte} {i : Instr} (hi : i.wf = true ∧ encode p i = ⟨fmt, byteWord l⟩) (hl : labelOf w = l) :
    (byteOnly w i).Faithful p ⟨fmt, w⟩ :=
  faithful_ite (fun ⟨ha, hv⟩ => faithful_instr hi (word_of_fields hv ha hl)) (faithful_rejected _)

theorem faithful_withOperand {l : Byte} {f : BitVec 16 → Instr}
    (hf : ∀ a, (f a).wf = true ∧ encode p (f a) = ⟨fmt, operandWord l a⟩) (hl : labelOf w = l) :
    (withOperand w f).Faithful p ⟨fmt, w⟩ :=
  faithful_ite (fun hv => faithful_instr (hf _) (word_of_fields hv rfl hl)) (faithful_rejected _)

theorem faithful_withByte {l : Byte} {f : Byte → Instr}
    (hf : ∀ b, (f b).wf = true ∧ encode p (f b) = ⟨fmt, operandWord l (b.setWidth 16)⟩) (hl : labelOf w = l) :
    (withByte w f).Faithful p ⟨fmt, w⟩ :=
  faithful_ite (fun ⟨ha, hv⟩ => faithful_instr (hf _) (word_of_fields hv (setWidth_of_lt ha).symm hl)) (faithful_rejected _)

/-- A word with an operand of 16 bits and one of 8, which uses every bit. -/
theorem faithful_packed {l : Byte} {f : BitVec 16 → Byte → Instr}
    (hf : ∀ a b, (f a b).wf = true ∧ encode p (f a b) = ⟨fmt, packWord b a l⟩) (hl : labelOf w = l) :
    (Decoded.instr (f (operandOf w) (valueOf w))).Faithful p ⟨fmt, w⟩ :=
  faithful_instr (hf _ _) (word_of_fields rfl rfl hl)

/-- A register row, with its k-bit value field in the data byte (R40, R103). -/
theorem faithful_field {k : Nat} {a : Addr} {f : BitVec k → Instr} (hv : valueOf w = 0)
    (hf : ∀ x, (f x).wf = true ∧ encode p (f x) = ⟨fmt, regWord a (x.setWidth 8)⟩) (ha : operandOf w = a) :
    (field k w f).Faithful p ⟨fmt, w⟩ :=
  faithful_ite (fun hd => faithful_instr (hf _) (word_of_fields hv ha (setWidth_of_lt hd).symm)) (faithful_rejected _)

/-! Each decoder, test by test. -/

theorem faithful_cmd : (decodeCmd p.cmdId w).Faithful p ⟨.cmd, w⟩ := by
  unfold decodeCmd
  split
  · next i hi => exact faithful_byteOnly (commandOf_spec hi) rfl
  · exact faithful_rejected _

theorem faithful_busDriver : (decodeBusDriver w).Faithful p ⟨.int, w⟩ :=
  faithful_ite (faithful_byteOnly ⟨rfl, rfl⟩) <|
  faithful_ite (faithful_withOperand fun _ => ⟨rfl, rfl⟩) <|
  faithful_ite (faithful_withByte fun _ => ⟨rfl, rfl⟩) <|
  faithful_ite (faithful_byteOnly ⟨rfl, rfl⟩) <| faithful_rejected _

theorem faithful_resetCartridge (hl : labelOf w = 0x21) : (decodeResetCartridge w).Faithful p ⟨.int, w⟩ := by
  refine faithful_ite (fun hv => ?_) (faithful_rejected _)
  split
  · next v hn =>
    have ha := (variantOfNumber_some hn).symm
    exact faithful_instr ⟨rfl, rfl⟩ (word_of_fields hv ha hl)
  · exact faithful_rejected _

theorem faithful_cartridge : (decodeCartridge w).Faithful p ⟨.int, w⟩ :=
  faithful_ite (faithful_packed fun _ _ => ⟨rfl, rfl⟩) <|
  faithful_ite faithful_resetCartridge <|
  faithful_ite (faithful_withOperand fun _ => ⟨rfl, rfl⟩) <|
  faithful_ite (faithful_packed fun _ _ => ⟨rfl, rfl⟩) <| faithful_rejected _

theorem faithful_mbc1 : (decodeMbc1 w).Faithful p ⟨.int, w⟩ :=
  faithful_ite (faithful_withOperand fun _ => ⟨rfl, rfl⟩) <|
  faithful_ite (faithful_byteOnly ⟨rfl, rfl⟩) <|
  faithful_ite (faithful_withOperand fun _ => ⟨rfl, rfl⟩) <|
  faithful_ite (faithful_withOperand fun _ => ⟨rfl, rfl⟩) <| faithful_rejected _

theorem faithful_mbc3 : (decodeMbc3 w).Faithful p ⟨.int, w⟩ :=
  faithful_ite (faithful_withOperand fun _ => ⟨rfl, rfl⟩) <|
  faithful_ite (faithful_withOperand fun _ => ⟨rfl, rfl⟩) <|
  faithful_ite (faithful_withOperand fun _ => ⟨rfl, rfl⟩) <|
  faithful_ite (faithful_byteOnly ⟨rfl, rfl⟩) <|
  faithful_ite (faithful_byteOnly ⟨rfl, rfl⟩) <| faithful_rejected _

theorem faithful_mbc5 : (decodeMbc5 w).Faithful p ⟨.int, w⟩ :=
  faithful_ite (faithful_withOperand fun _ => ⟨rfl, rfl⟩) <|
  faithful_ite (faithful_withOperand fun _ => ⟨rfl, rfl⟩) <|
  faithful_ite (faithful_withOperand fun _ => ⟨rfl, rfl⟩) <|
  faithful_ite (faithful_byteOnly ⟨rfl, rfl⟩) <| faithful_rejected _

theorem faithful_int : (decodeInt w).Faithful p ⟨.int, w⟩ :=
  faithful_ite (fun _ => faithful_busDriver) <|
  faithful_ite (fun _ => faithful_cartridge) <|
  faithful_ite (fun _ => faithful_mbc1) <|
  faithful_ite (fun _ => faithful_mbc3) faithful_mbc5

theorem faithful_status : (decodeStatus w).Faithful p ⟨.status, w⟩ :=
  faithful_ite (faithful_byteOnly ⟨rfl, rfl⟩) <|
  faithful_ite (faithful_byteOnly ⟨rfl, rfl⟩) <|
  faithful_ite (faithful_byteOnly ⟨rfl, rfl⟩) <|
  faithful_ite (faithful_byteOnly ⟨rfl, rfl⟩) <|
  faithful_ite (faithful_byteOnly ⟨rfl, rfl⟩) <|
  faithful_ite (faithful_byteOnly ⟨rfl, rfl⟩) <|
  faithful_ite (faithful_byteOnly ⟨rfl, rfl⟩) <|
  faithful_ite (faithful_byteOnly ⟨rfl, rfl⟩) <|
  faithful_ite (faithful_byteOnly ⟨rfl, rfl⟩) <| faithful_rejected _

/-- A variant's four registers, each known by its address (R37 to R39). -/
theorem faithful_register {v : Variant} (hv : valueOf w = 0) : (decodeRegister p v w).Faithful p ⟨.regw v, w⟩ := by
  cases v <;> exact
    faithful_ite (faithful_field hv fun _ => ⟨rfl, rfl⟩) <|
    faithful_ite (faithful_field hv fun _ => ⟨rfl, rfl⟩) <|
    faithful_ite (faithful_field hv fun _ => ⟨rfl, rfl⟩) <|
    faithful_ite (faithful_field hv fun _ => ⟨rfl, rfl⟩) <| faithful_rejected _

theorem faithful_regw {v : Variant} : (decodeRegw p v w).Faithful p ⟨.regw v, w⟩ :=
  faithful_ite faithful_register (faithful_rejected _)

end faithful

/-- Settles O2: every row a decoder can reach is the row whose encoding is the word it was given. -/
theorem encodeOfDecode : Obligations.EncodeOfDecode := by
  unfold Obligations.EncodeOfDecode
  intro p ⟨fmt, w⟩ i h
  cases fmt with
  | cmd => exact faithful_cmd i h
  | int => exact faithful_int i h
  | status => exact faithful_status i h
  | regw v => exact faithful_regw i h

/-- Settles O4: each of the words is the encoding of its operation. -/
theorem specWordsDecode : Obligations.SpecWordsDecode := by
  unfold Obligations.SpecWordsDecode
  have row {sel : Selection} {i : Instr} (hi : i.wf = true) (hs : encode Machine.defaultParams i = sel) :
      decode Machine.defaultParams sel = .instr i := hs ▸ decodeOfEncode Machine.defaultParams i (by decide) hi
  exact ⟨row rfl rfl, row rfl rfl, row rfl rfl, row rfl rfl, row rfl rfl, row rfl rfl, row rfl rfl, row rfl rfl, row rfl rfl⟩

/-! ### Words no encoding is -/

/-- The word of a STATUS row is one of the nine values of R106. -/
theorem encode_status_listed {p : Params} {i : Instr} (h : (encode p i).format = .status) :
    (encode p i).word.toNat ∈ [0, 1, 10, 11, 12, 21, 22, 23, 24] := by
  cases i with
  | statusOk | statusUnknownCommand | statusInvalidNumRomBanks | statusInvalidNumRamBanks | statusInvalidCartridgeType
  | statusInvalidRamWriteSize | statusCartridgeHasNoRam | statusCartridgeHasNoRtc | statusInvalidRtcWriteSize =>
    simp only [encode]
    decide
  | _ => cases h

/-- The label of an INT row is one of the twenty-one of R116. -/
theorem encode_int_listed {p : Params} {i : Instr} (h : (encode p i).format = .int) : (labelOf (encode p i).word).toNat ∈
    [0x10, 0x11, 0x12, 0x13, 0x20, 0x21, 0x22, 0x23, 0x30, 0x31, 0x32, 0x33, 0x40, 0x41, 0x42, 0x43, 0x44, 0x50,
      0x51, 0x52, 0x60] := by
  cases i with
  | reset | shiftOutAddress _ | shiftOutData _ | shiftInData | registerWrite _ _ | resetCartridge _ | readCell _
  | writeCell _ _ | mbc1ReadRom _ | mbc1ReadHeader | mbc1ReadRam _ | mbc1WriteRam _ | mbc3ReadRom _ | mbc3ReadRam _
  | mbc3WriteRam _ | mbc3ReadRtc | mbc3WriteRtc | mbc5ReadRom _ | mbc5ReadRam _ | mbc5WriteRam _ | parse =>
    simp [encode]
  | _ => cases h

theorem decode_rejected_of_no_encoding {p : Params} {sel : Selection} (h : ∀ i, encode p i ≠ sel) :
    ∃ why, decode p sel = .rejected why := by
  cases e : decode p sel with
  | instr i => exact absurd (encodeOfDecode p sel i e).2 (h i)
  | rejected why => exact ⟨why, rfl⟩

end Sys2Proof

namespace Sys2Proof.Machine

theorem stepWord_rejected {sel : Selection} {s : State} {why : DecodeReject} (h : decode s.params sel = .rejected why) :
    stepWord sel s = .refused (.noSuchOperation why) := by
  rw [stepWord, h]

/-- Settles O6: such a word is no row's encoding, and only an encoding decodes (O2). -/
theorem unassignedWordsAreRefused : Obligations.UnassignedWordsAreRefused := by
  unfold Obligations.UnassignedWordsAreRefused
  intro s sel rest hf hb hsel
  have unlisted (i : Instr) : encode s.params i ≠ sel := by
    rintro rfl
    obtain ⟨hfmt, hw⟩ | ⟨hfmt, hw⟩ := hsel
    · exact hw (encode_status_listed hfmt)
    · exact hw (encode_int_listed hfmt)
  obtain ⟨why, hd⟩ := decode_rejected_of_no_encoding unlisted
  refine ⟨why, ?_⟩
  rw [step_idle hf, stepIdle, hb]
  exact stepWord_rejected hd

end Sys2Proof.Machine
end

section
/-! PROOFS. The fields of a bank operand (30_encoding.md R111, R112), and the rows that are one register write or one status code
(30_encoding.md R103, R106). -/

namespace Sys2Proof.Machine

/-! ### Bank operands -/

section banks
variable (bank : BankOperand)

theorem toNat_bank7Low : (bank7Low bank).toNat = bank.toNat % 32 := by
  simp [bank7Low, BitVec.extractLsb'_toNat]
  omega

theorem toNat_bank7High : (bank7High bank).toNat = bank.toNat / 32 % 4 := by
  simp [bank7High, BitVec.extractLsb'_toNat, Nat.shiftRight_eq_div_pow]
  omega

theorem toNat_bank9Low : (bank9Low bank).toNat = bank.toNat % 256 := by
  simp [bank9Low, BitVec.extractLsb'_toNat]

theorem toNat_bank9High : (bank9High bank).toNat = bank.toNat / 256 % 2 := by
  simp [bank9High, BitVec.extractLsb'_toNat, Nat.shiftRight_eq_div_pow]
  omega

end banks

/-- Settles O38: the fields are quotient and remainder of the operand. -/
theorem bankOperandsReassemble : Obligations.BankOperandsReassemble := by
  unfold Obligations.BankOperandsReassemble
  intro bank
  rw [toNat_bank9High, toNat_bank9Low, toNat_bank7High, toNat_bank7Low]
  omega

/-! ### Status rows -/

theorem raiseAlone_ended {s : State} (hf : s.Free) (hd : s.Drains) (st : Status) :
    raiseAlone st s = .next (s.ended [statusCode st]) := by
  rw [raiseAlone, begin_free hf.clean hf.idle, raise_ended hd]

/-- OK is sent and the sequencer stays idle, as it was (R281). -/
theorem exec_statusOk {s : State} (hf : s.Free) (hd : s.Drains) : exec .statusOk s = .next { s with tx := s.tx ++ [0x00] } := by
  have hi := hf.idle
  rw [exec, execStatusOk, begin_free hf.clean hi, sendThen_drains _ _ _ _ hd, ← hi]
  rfl

/-- Settles O40: every row but OK is the raise of its code. -/
theorem statusRowsSendTheirCode : Obligations.StatusRowsSendTheirCode := by
  unfold Obligations.StatusRowsSendTheirCode
  intro s hf hd
  have raised := raiseAlone_ended hf hd
  exact ⟨exec_statusOk hf hd, raised .unknownCommand, raised .invalidNumRomBanks, raised .invalidNumRamBanks,
    raised .invalidCartridgeType, raised .invalidRamWriteSize, raised .cartridgeHasNoRam, raised .cartridgeHasNoRtc,
    raised .invalidRtcWriteSize⟩

/-! ### Register rows -/

/-- An operation begins with the state it was given. -/
theorem begin_congr {s : State} {k k' : State → Result} (h : k s = k' s) : begin s k = begin s k' := by
  unfold begin
  rw [h]

/-- A REGW transaction reads the register's address off the parameters; then it is `register_write` (R150). -/
theorem regwTransaction_eq (reg : Params → Addr) (d : Byte) (s : State) :
    regwTransaction reg d s = exec (.registerWrite (reg s.params) d) s := by
  rw [exec, execRegisterWrite, regwTransaction]
  exact begin_congr rfl

/-- A register row is `register_write` at its register's address (R103). -/
theorem exec_registerRow {i : Instr} {a : Addr} {d : Byte} {s : State} (h : registerRow s.params i = some (a, d)) :
    exec i s = exec (.registerWrite a d) s := by
  cases i with
  | regwM1Ramg _ | regwM1Bank1 _ | regwM1Bank2 _ | regwM1Mode _ | regwM3Ramg _ | regwM3Latch _ | regwM5Ramg _ | regwM5Romb1 _ =>
    cases h
    rw [BitVec.ofNat_toNat]
    exact regwTransaction_eq _ _ s
  | regwM3Romb _ | regwM3Ramb _ | regwM5Romb0 _ | regwM5Ramb _ =>
    cases h
    exact regwTransaction_eq _ _ s
  | _ => cases h

/-- `register_write` with RD off and the lines at rest (R150). -/
theorem exec_registerWrite_wrote {s : State} (hf : s.Free) (hl : s.LinesRest) (hr : s.asserted .rd = false) (a : Addr) (d : Byte) :
    exec (.registerWrite a d) s = .next (s.wrote a d) := by
  have load := (asserted_eq_false s .dinLoad).1 hl.load
  have rd := (asserted_eq_false s .rd).1 hr
  rw [exec, execRegisterWrite, begin_free hf.clean hf.idle, run_registerWrite a d s load rd hl.addrLatch hl.doutLatch,
    registerWritten_eq, conclude_clean]
  · rfl
  · exact hf.clean

/-- Settles O17: each row is a register write, which completes with RD off. -/
theorem registerRowsWriteTheirRegister : Obligations.RegisterRowsWriteTheirRegister := by
  unfold Obligations.RegisterRowsWriteTheirRegister
  intro i a d s h hf hl hr
  rw [exec_registerRow h, exec_registerWrite_wrote hf hl hr]

end Sys2Proof.Machine
end

section
/-! PROOFS. The serial words on the wires (30_encoding.md R101, R102): what a line shows at the rising edges of its clock. -/

namespace Sys2Proof.Machine

section clocked
variable {ser clk : OutField} {ms : List Micro} {s : State}

theorem bitsClocked_append (as : List Micro) : ∀ s : State,
    bitsClocked ser clk (as ++ ms) s = bitsClocked ser clk as s ++ bitsClocked ser clk ms (run as s) := by
  induction as with
  | nil => exact fun _ => rfl
  | cons m as ih =>
    intro s
    rw [List.cons_append, bitsClocked, bitsClocked, ih, run_cons, List.append_assoc]

/-- A sequence that never drives the clock has no edge of it. -/
theorem bitsClocked_spares : ∀ {ms : List Micro} {s : State}, ms.all (Micro.spares clk) = true → bitsClocked ser clk ms s = []
  | [], _, _ => rfl
  | m :: ms, s, h => by
    rw [List.all_cons, Bool.and_eq_true] at h
    rw [bitsClocked, micro_spares clk m s h.1, rises_self, bitsClocked_spares h.2]
    rfl

theorem micro_drive_get (f g : OutField) (l : Bool) (s : State) :
    (micro (.drive f l) s).bss.get g = if g = f then l else s.bss.get g := by
  change (drive f l s).bss.get g = _
  rw [drive_bss]
  split
  · next h => rw [h, Bss.get_set_same]
  · next h => exact Bss.get_set_other _ _ _ _ (Ne.symm h)

/-- Only a rising clock shows a bit. -/
theorem bitsClocked_fall : bitsClocked ser clk (.drive clk false :: ms) s = bitsClocked ser clk ms (micro (.drive clk false) s) := by
  rw [bitsClocked, micro_drive_get, if_pos rfl, rises_to_false]
  rfl

theorem bitsClocked_rise (hne : ser ≠ clk) (h : s.bss.get clk = false) : bitsClocked ser clk (.drive clk true :: ms) s =
    s.bss.get ser :: bitsClocked ser clk ms (micro (.drive clk true) s) := by
  rw [bitsClocked, micro_drive_get, micro_drive_get, if_pos rfl, if_neg hne, h]
  rfl

theorem bitsClocked_other {f : OutField} {l : Bool} (h : clk ≠ f) :
    bitsClocked ser clk (.drive f l :: ms) s = bitsClocked ser clk ms (micro (.drive f l) s) := by
  rw [bitsClocked, micro_drive_get, if_neg h, rises_self]
  rfl

/-- One bit of a serial word: presented, then clocked. -/
theorem bitsClocked_bit (hne : ser ≠ clk) (v : Bool) :
    bitsClocked ser clk (.drive ser v :: .drive clk false :: .drive clk true :: ms) s =
      v :: bitsClocked ser clk ms (run [.drive ser v, .drive clk false, .drive clk true] s) := by
  rw [bitsClocked_other hne.symm, bitsClocked_fall, bitsClocked_rise hne]
  · simp [micro_drive_get, hne]
  · simp [micro_drive_get]

/-- Bits k-1 down to 0 are on the line at k rising edges, in that order. -/
theorem bitsClocked_shiftBits (hne : ser ≠ clk) (bit : Nat → Bool) : ∀ (k : Nat) (s : State),
    bitsClocked ser clk (shiftBits ser clk bit k) s = (List.range k).map fun j => bit (k - 1 - j) := by
  intro k
  induction k with
  | zero => exact fun _ => rfl
  | succ k ih =>
    intro s
    rw [shiftBits, bitsClocked_bit hne, ih, List.range_succ_eq_map, List.map_cons, List.map_map]
    congr 1
    exact List.map_congr_left fun j _ => congrArg bit (by omega : k - 1 - j = k + 1 - 1 - (j + 1))

theorem shiftBits_spares {f : OutField} (hs : ser ≠ f) (hc : clk ≠ f) (bit : Nat → Bool) (k : Nat) :
    (shiftBits ser clk bit k).all (Micro.spares f) = true := by
  induction k with
  | zero => rfl
  | succ k ih => simp [shiftBits, Micro.spares, hs, hc, ih]

/-- A serial word leaves its line at bit 0. -/
theorem run_shiftBits_ser (hne : ser ≠ clk) (bit : Nat → Bool) : ∀ (k : Nat) (s : State),
    (run (shiftBits ser clk bit (k + 1)) s).bss.get ser = bit 0 := by
  intro k
  induction k with
  | zero => intro s; simp [shiftBits, micro_drive_get, hne]
  | succ k ih => exact fun s => ih _

end clocked

/-- A serial word of bits k to 0 with its latch pulse, and what follows it: a SERA word (R133) and a SERD word (R134) alike. -/
def serialWord (ser clk latch : OutField) (bit : Nat → Bool) (k : Nat) (tail : List Micro) : List Micro :=
  shiftBits ser clk bit (k + 1) ++ (.drive clk false :: .drive latch true :: .drive latch false :: tail)

theorem shiftOutAddressSeq_eq (addr : Addr) :
    shiftOutAddressSeq addr = serialWord .addrSer .addrClk .addrLatch addr.getLsbD 15 [] := rfl

theorem shiftOutDataSeq_eq (p : Params) (byte : Byte) :
    shiftOutDataSeq p byte = serialWord .doutSer .doutClk .doutLatch byte.getLsbD 7
      [assertLine p .doutOe, assertLine p .wr, deassertLine p .wr, deassertLine p .doutOe] := rfl

section word
variable {ser clk latch : OutField} (hne : ser ≠ clk) (hc : clk ≠ latch) (bit : Nat → Bool) (k : Nat) {tail : List Micro}
include hne hc

theorem bitsClocked_serialWord (ht : tail.all (Micro.spares clk) = true) (s : State) :
    bitsClocked ser clk (serialWord ser clk latch bit k tail) s = (List.range (k + 1)).map fun j => bit (k - j) := by
  rw [serialWord, bitsClocked_append, bitsClocked_shiftBits hne, bitsClocked_fall, bitsClocked_other hc, bitsClocked_other hc,
    bitsClocked_spares ht, List.append_nil]
  rfl

/-- The latch has one edge, at which the line still shows the last bit. -/
theorem bitsClocked_serialWord_latch (hs : ser ≠ latch) (ht : tail.all (Micro.spares latch) = true) {s : State}
    (hl : s.bss.get latch = false) : bitsClocked ser latch (serialWord ser clk latch bit k tail) s = [bit 0] := by
  have spared : (shiftBits ser clk bit (k + 1)).all (Micro.spares latch) = true := shiftBits_spares hs hc bit _
  have low := (run_spares latch _ s spared).trans hl
  rw [serialWord, bitsClocked_append, bitsClocked_spares spared, bitsClocked_other hc.symm, bitsClocked_rise hs,
    bitsClocked_fall, bitsClocked_spares ht, micro_drive_get, if_neg hne, run_shiftBits_ser hne]
  · rfl
  · rw [micro_drive_get, if_neg hc.symm, low]

end word

/-- Settles O10: an address and a data byte are each one serial word; the strobes after a data byte touch neither line. -/
theorem serialWordsAreMsbFirst : Obligations.SerialWordsAreMsbFirst := by
  unfold Obligations.SerialWordsAreMsbFirst
  intro s addr p byte
  rw [shiftOutAddressSeq_eq, shiftOutDataSeq_eq]
  exact ⟨bitsClocked_serialWord (by decide) (by decide) _ 15 rfl s,
    fun hl => bitsClocked_serialWord_latch (by decide) (by decide) _ 15 (by decide) rfl hl,
    bitsClocked_serialWord (by decide) (by decide) _ 7 rfl s,
    fun hl => bitsClocked_serialWord_latch (by decide) (by decide) _ 7 (by decide) rfl hl⟩

end Sys2Proof.Machine
end

section
/-! PROOFS. The three shifting operations of the BusDriver (40_busdriver.md R133 to R135), each from where its sequence of
micro-steps ends (`run_shiftOutAddress`, `run_shiftOutData`, `run_shiftInData`). -/

namespace Sys2Proof.Machine

/-! ### `shift_out_address` and `shift_out_data` -/

theorem exec_shiftOutAddress {s : State} (hf : s.Free) (hl : s.LinesRest)
    (hd : ¬ (s.asserted .doutOe = true ∧ s.asserted .rd = true)) (addr : Addr) :
    exec (.shiftOutAddress addr) s = .next (s.addressed addr) := by
  rw [exec, execShiftOutAddress, begin_free hf.clean hf.idle,
    run_shiftOutAddress addr s (quiet_of_asserted hl.load hd) hl.addrLatch]
  exact conclude_clean (s := s.addressed addr) hf.clean

/-- Settles O12: the sixteen bits fill ASR, and the pulse copies it to ALAT. -/
theorem shiftOutAddressLatchesTheAddress : Obligations.ShiftOutAddressLatchesTheAddress := by
  unfold Obligations.ShiftOutAddressLatchesTheAddress
  intro addr s hf hl hd
  exact exec_shiftOutAddress hf hl hd addr

theorem exec_shiftOutData {s : State} (hf : s.Free) (hl : s.LinesRest) (hr : s.asserted .rd = false) (byte : Byte) :
    exec (.shiftOutData byte) s = .next (s.dataSent byte) := by
  have load := (asserted_eq_false s .dinLoad).1 hl.load
  have rd := (asserted_eq_false s .rd).1 hr
  rw [exec, execShiftOutData, begin_free hf.clean hf.idle, run_shiftOutData byte s load rd hl.doutLatch]
  exact conclude_clean (s := s.dataSent byte) hf.clean

/-- Settles O13: DOUT_OE is asserted around the WR pulse, so with RD off the event carries the latched byte. -/
theorem shiftOutDataWritesTheByte : Obligations.ShiftOutDataWritesTheByte := by
  unfold Obligations.ShiftOutDataWritesTheByte
  intro byte s hf hl hr
  exact exec_shiftOutData hf hl hr byte

/-! ### `shift_in_data` -/

theorem single_of_asserted {s : State} (hd : ¬ (s.asserted .doutOe = true ∧ s.asserted .rd = true)) :
    s.bss.single s.params.levels := by
  rw [not_and_or, Bool.not_eq_true, Bool.not_eq_true] at hd
  exact hd.imp (asserted_eq_false s .doutOe).1 (asserted_eq_false s .rd).1

theorem exec_shiftInData {s : State} (hf : s.Free) (hd : ¬ (s.asserted .doutOe = true ∧ s.asserted .rd = true)) :
    exec .shiftInData s = .next s.dataTaken := by
  rw [exec, execShiftInData, begin_free hf.clean hf.idle, run_shiftInData s (single_of_asserted hd)]
  exact conclude_clean (s := s.dataTaken) hf.clean

section bus
variable {s : State}

/-- D with the data register as its one driver (R32). -/
theorem dataBus_register (ho : s.asserted .doutOe = true) (hr : s.asserted .rd = false) : s.dataBus = s.dlat := by
  simp [State.dataBus, ho, hr]

/-- D with the cartridge as its one driver (R32, R70). -/
theorem dataBus_cartridge (ho : s.asserted .doutOe = false) (hr : s.asserted .rd = true) :
    s.dataBus = (s.cart.answer s.alat (s.asserted .cs)).getD (Config.freeByte s.draws) := by
  simp [State.dataBus, ho, hr, State.cartridgeByte]

/-- D with no driver (R32, U7). -/
theorem dataBus_floating (ho : s.asserted .doutOe = false) (hr : s.asserted .rd = false) :
    s.dataBus = Config.freeByte s.draws := by
  simp [State.dataBus, ho, hr]

end bus

/-- Settles O14: the byte sampled is D at the load, and what is free in it is the first of the nine draws; the other eight are
the bits shifted into ISR (R31). -/
theorem shiftInDataReturnsTheBus : Obligations.ShiftInDataReturnsTheBus := by
  unfold Obligations.ShiftInDataReturnsTheBus
  intro s hf hd
  have firstDraw : s.draws < s.draws + 9 := by omega
  refine ⟨s.dataBus, shiftedFree 8 (s.draws + 1) s.dataBus, s.draws + 9, firstDraw, exec_shiftInData hf hd, ?_, ?_, ?_⟩
  · exact fun ho => dataBus_register ho (Bool.eq_false_iff.2 fun hr => hd ⟨ho, hr⟩)
  · exact fun ho hr => ⟨s.draws, le_rfl, firstDraw, dataBus_cartridge ho hr⟩
  · exact fun ho hr => ⟨s.draws, le_rfl, firstDraw, dataBus_floating ho hr⟩

end Sys2Proof.Machine
end

section
/-! PROOFS. The common cartridge primitives and the bus cells (41_cartridge_common.md R150 to R153): what `register_write` is made
of, what `read_cell` returns, and what `reset_cartridge` leaves. -/

namespace Sys2Proof.Machine

/-! ### `register_write` and `write_cell` -/

/-- The two are one sequence (R153). -/
theorem exec_writeCell (a : Addr) (d : Byte) (s : State) : exec (.writeCell a d) s = exec (.registerWrite a d) s := rfl

/-- Settles O16: `register_write` with RD off, twice. -/
theorem registerWriteDeliversOneEvent : Obligations.RegisterWriteDeliversOneEvent := by
  unfold Obligations.RegisterWriteDeliversOneEvent
  intro a d s hf hl hr
  have written := exec_registerWrite_wrote hf hl hr a d
  exact ⟨written, (exec_writeCell a d s).trans written⟩

section andThen
variable {s u : State} {k k' : State → Result}

/-- An operation begins freely or not at all. -/
theorem begin_congr_free (h : s.Free → k s = k' s) : begin s k = begin s k' := by
  unfold begin
  split
  · rfl
  · next hc =>
    split
    · next hi => exact h ⟨Bool.eq_false_iff.2 hc, hi⟩
    · rfl
    · rfl
    · rfl

theorem andThen_begin : andThen (begin s k) k' = begin s fun u => andThen (k u) k' := by
  unfold begin
  split
  · rfl
  · split <;> rfl

/-- What follows an operation that may meet a second driver begins only where it met none (60_exceptions.md R296). -/
theorem andThen_conclude_congr (h : u.contention = false → k u = k' u) :
    andThen (conclude u) k = andThen (conclude u) k' := by
  cases hc : u.contention with
  | true => rw [conclude, if_pos hc]; rfl
  | false => rw [conclude_clean hc]; exact h hc

/-- A second driver met in the first of two sequences is a fault of both together, since it is never cleared (R296). -/
theorem conclude_run_append (as bs : List Micro) (s : State) :
    conclude (run (as ++ bs) s) = andThen (conclude (run as s)) fun t => conclude (run bs t) := by
  rw [run_append]
  cases hc : (run as s).contention with
  | true => rw [conclude, conclude, if_pos hc, if_pos (run_contention bs _ hc)]; rfl
  | false => rw [conclude_clean hc]; rfl

end andThen

theorem exec_registerWrite_split (a : Addr) (d : Byte) (s : State) :
    exec (.registerWrite a d) s = andThen (exec (.shiftOutAddress a) s) (exec (.shiftOutData d)) := by
  rw [exec, exec, execRegisterWrite, execShiftOutAddress, andThen_begin]
  refine begin_congr_free fun hf => ?_
  rw [registerWriteSeq, conclude_run_append]
  refine andThen_conclude_congr fun hc => ?_
  have untouched := run_untouched (shiftOutAddressSeq a) s
  rw [exec, execShiftOutData, begin_free hc (untouched.control.trans hf.idle), untouched.params]

/-- Settles O15: the data byte is shifted out where the address was with no second driver, and nowhere else. -/
theorem registerWriteIsAddressThenData : Obligations.RegisterWriteIsAddressThenData := by
  unfold Obligations.RegisterWriteIsAddressThenData
  intro a d s
  have split := exec_registerWrite_split a d s
  exact ⟨split, (exec_writeCell a d s).trans split⟩

/-! ### `read_cell` -/

theorem exec_readCell {s : State} (hf : s.Free) (hl : s.LinesRest) (ho : s.asserted .doutOe = false) (a : Addr) :
    exec (.readCell a) s = .next (s.cellRead a) := by
  have load := (asserted_eq_false s .dinLoad).1 hl.load
  have oe := (asserted_eq_false s .doutOe).1 ho
  rw [exec, execReadCell, begin_free hf.clean hf.idle, run_readCell a s load oe hl.addrLatch]
  exact conclude_clean (s := s.cellRead a) hf.clean

/-- Settles O18: a byte the cartridge does not fix is the first of the nine draws; the other eight are shifted into ISR (R31). -/
theorem readCellReturnsTheCartridgeByte : Obligations.ReadCellReturnsTheCartridgeByte := by
  unfold Obligations.ReadCellReturnsTheCartridgeByte
  intro a s hf hl ho
  exact ⟨s.draws, shiftedFree 8 (s.draws + 1) (s.cellByte a s.draws), s.draws + 9, le_rfl, by omega, exec_readCell hf hl ho a⟩

/-! ### `reset_cartridge` -/

theorem done_cartridgeReset (s : State) (v : Variant) :
    BusDone s (s.cartridgeReset v) (registerEvents (registerZeros s.params v)) 330 := by
  have used := bused_cartridgeReset s v
  rw [zeroWrites_eq] at used
  exact used.toDone (congrArg (fun p : Params => safeBss p.levels) (cartridgeReset_params s v))

/-- Settles O20: `reset()` first puts every line to SAFE, whatever BSS was, so the four writes meet a ready bus. -/
theorem resetCartridgeZeroesTheRegisters : Obligations.ResetCartridgeZeroesTheRegisters := by
  unfold Obligations.ResetCartridgeZeroesTheRegisters
  intro v s hf
  exact ⟨_, exec_resetCartridge hf v, done_cartridgeReset s v, nothingRead_cartridgeReset s v, latched_cartridgeReset s v⟩

end Sys2Proof.Machine
end

section
/-! PROOFS. Every operation completes (60_exceptions.md R296, 70_reset_and_hazards.md R343): with the lines at rest none meets a
second driver, so each answers; and where the host drains TX only `write_ram` can be left waiting. -/

namespace Sys2Proof.Machine

/-! ### With the lines at rest every operation answers -/

section rests
variable {s : State} (h : s.RestsButSerial)
include h

theorem State.RestsButSerial.linesRest : s.LinesRest :=
  ⟨(asserted_eq_false s .dinLoad).2 h.ready.load, h.ready.aLatch, h.ready.dLatch⟩

theorem State.RestsButSerial.doutOe_off : s.asserted .doutOe = false := (asserted_eq_false s .doutOe).2 h.ready.oe

theorem State.RestsButSerial.rd_off : s.asserted .rd = false := (asserted_eq_false s .rd).2 h.ready.rd

end rests

/-- An operation that cannot stop once it has begun answers. -/
theorem begin_answers {s : State} (hf : s.Free) (f : State → State) : ∃ t, begin s (fun s => .next (f s)) = .next t :=
  ⟨f s, begin_free hf.clean hf.idle _⟩

theorem exec_writeRtc_eq (s : State) : exec .writeRtc s =
    begin s (fun s => .next (raise .invalidRtcWriteSize (startCommand s.params.cmdId.writeRtc s))) := rfl

/-- Only the primitives, the cells and the register rows can meet a second driver, and here there is none. -/
theorem exec_answers {s : State} (hf : s.Free) (hr : s.RestsButSerial) (i : Instr) : ∃ t, exec i s = .next t := by
  have hl := hr.linesRest
  have single : ¬ (s.asserted .doutOe = true ∧ s.asserted .rd = true) := by simp [hr.rd_off]
  have written (a : Addr) (d : Byte) : ∃ t, exec (.registerWrite a d) s = .next t :=
    ⟨_, exec_registerWrite_wrote hf hl hr.rd_off a d⟩
  cases i with
  | shiftOutAddress a => exact ⟨_, exec_shiftOutAddress hf hl single a⟩
  | shiftOutData d => exact ⟨_, exec_shiftOutData hf hl hr.rd_off d⟩
  | shiftInData => exact ⟨_, exec_shiftInData hf single⟩
  | readCell a => exact ⟨_, exec_readCell hf hl hr.doutOe_off a⟩
  | registerWrite a d | writeCell a d => exact written a d
  | regwM1Ramg _ | regwM1Bank1 _ | regwM1Bank2 _ | regwM1Mode _ | regwM3Ramg _ | regwM3Romb _ | regwM3Ramb _ | regwM3Latch _
  | regwM5Ramg _ | regwM5Romb0 _ | regwM5Romb1 _ | regwM5Ramb _ =>
    rw [exec_registerRow rfl]
    exact written _ _
  | reset => exact begin_answers hf driveSafe
  | resetCartridge v => exact ⟨_, exec_resetCartridge hf v⟩
  | mbc1ReadHeader => exact ⟨_, exec_mbc1ReadHeader hf⟩
  | mbc1ReadRom bank => exact ⟨_, exec_mbc1ReadRom hf bank⟩
  | mbc3ReadRom bank => exact ⟨_, exec_mbc3ReadRom hf bank⟩
  | mbc5ReadRom bank => exact ⟨_, exec_mbc5ReadRom hf bank⟩
  | mbc1ReadRam bank => exact ⟨_, exec_readRam hf .mbc1 bank⟩
  | mbc3ReadRam bank => exact ⟨_, exec_readRam hf .mbc3 bank⟩
  | mbc5ReadRam bank => exact ⟨_, exec_readRam hf .mbc5 bank⟩
  | mbc1WriteRam bank => exact ⟨_, exec_writeRam hf .mbc1 bank⟩
  | mbc3WriteRam bank => exact ⟨_, exec_writeRam hf .mbc3 bank⟩
  | mbc5WriteRam bank => exact ⟨_, exec_writeRam hf .mbc5 bank⟩
  | mbc3ReadRtc => exact ⟨_, exec_mbc3ReadRtc hf⟩
  | mbc3WriteRtc => exact begin_answers hf id
  | parse => exact ⟨_, exec_parse hf⟩
  | parseHeader => exact exec_parseHeader_eq s ▸ begin_answers hf _
  | readRom => exact exec_readRom_eq s ▸ begin_answers hf _
  | readRam => exact exec_readRam_eq s ▸ begin_answers hf _
  | writeRam => exact exec_writeRam_eq s ▸ begin_answers hf _
  | readRtc => exact exec_readRtc_eq s ▸ begin_answers hf _
  | writeRtc => exact exec_writeRtc_eq s ▸ begin_answers hf _
  | unknown0607 c | unknown080F c | unknown101F c | unknown203F c | unknown407F c | unknown80FF c =>
    exact begin_answers hf fun u => raise .unknownCommand (startCommand c u)
  | statusOk => exact begin_answers hf (transmit (frameHeader .ok 0) .returned)
  | statusUnknownCommand | statusInvalidNumRomBanks | statusInvalidNumRamBanks | statusInvalidCartridgeType
  | statusInvalidRamWriteSize | statusCartridgeHasNoRam | statusCartridgeHasNoRtc | statusInvalidRtcWriteSize =>
    exact begin_answers hf (raise _)

/-! ### No step meets two drivers -/

theorem stepWord_ne_contention {s : State} (hs : s.Inv) (hi : s.control = .idle) (sel : Selection) :
    stepWord sel s ≠ .fault .busContention := by
  unfold stepWord
  split
  · next i _ =>
    obtain ⟨t, h⟩ := exec_answers ⟨hs.clean, hi⟩ hs.rests i
    simp [h]
  · simp

theorem stepIdle_ne_contention {s : State} (hs : s.Inv) (hi : s.control = .idle) : stepIdle s ≠ .fault .busContention := by
  unfold stepIdle
  split
  · next rest _ => exact stepWord_ne_contention (hs.inputs s.rx s.pending rest) hi _
  · split
    · simp
    · next rest _ => exact stepWord_ne_contention (hs.inputs s.rx rest s.bench) hi _

theorem stepHeld_ne_contention (s : State) : stepHeld s ≠ .fault .busContention := by
  unfold stepHeld
  split <;> simp

theorem stepSending_ne_contention (rest : List Byte) (next : AfterSend) (s : State) :
    stepSending rest next s ≠ .fault .busContention := by
  unfold stepSending
  split <;> simp

theorem step_ne_contention {s : State} (hs : s.Inv) : step s ≠ .fault .busContention := by
  rw [step, if_neg (by simp [hs.clean])]
  split
  · next hi => exact stepIdle_ne_contention hs hi
  · exact stepHeld_ne_contention s
  · exact stepHeld_ne_contention s
  · exact stepSending_ne_contention _ _ s

/-! ### Where the host drains, a send is finished -/

theorem streamFrom_idle (kind : ReadKind) (v : Variant) (n left : Nat) : ∀ {s : State}, s.Drains →
    (streamFrom kind v n left s).control = .idle := by
  induction left with
  | zero => exact fun _ => rfl
  | succ left ih =>
    intro s hd
    have drains : (run (kind.seq s.params v (bankOperand (n - (left + 1)))) s).Drains := (run_untouched _ s).txSpace.trans hd
    rw [streamFrom, sendThen_drains _ _ _ _ drains]
    exact ih drains

section drains
variable {u : State} (hd : u.Drains)
include hd

theorem transmit_idle {next : AfterSend} (hn : next.silent = true) (bs : List Byte) : (transmit bs next u).control = .idle := by
  rw [transmit_drains hd]
  cases next with
  | returned | ended => rfl
  | nextBank kind v n left => exact streamFrom_idle kind v n left hd
  | length _ | data _ _ _ _ | commit _ _ _ => cases hn

theorem raise_idle (st : Status) : (raise st u).control = .idle := transmit_idle hd (next := .ended) rfl [statusCode st]

theorem answerReport_idle : (answerReport u).control = .idle :=
  transmit_idle (u := writeReport (renderReport u.bufferDescriptor) u) hd (next := .ended) rfl _

theorem answerRom_idle : (answerRom u).control = .idle := by
  cases e : romCheck u.bufferDescriptor with
  | raised st => rw [answerRom_raised e]; exact raise_idle hd st
  | passed v n => rw [answerRom_passed e]; exact streamFrom_idle .rom v n n hd

theorem answerRam_idle : (answerRam u).control = .idle := by
  cases e : ramCheck u.bufferDescriptor with
  | raised st => rw [answerRam_raised e]; exact raise_idle hd st
  | passed v n => rw [answerRam_passed e]; exact streamFrom_idle .ram v n n hd

theorem answerRtc_idle : (answerRtc u).control = .idle := by
  cases e : rtcCapable u.bufferDescriptor with
  | true =>
    rw [answerRtc_snapshot e]
    exact transmit_idle ((done_rtcRead u).same.txSpace.trans hd) (next := .ended) rfl _
  | false => rw [answerRtc_incapable e]; exact raise_idle hd _

end drains

/-! ### Where the host drains, every operation but `write_ram` is finished -/

/-- Below the command layer nothing is sent, and nothing waits (20_memory.md R85). -/
theorem exec_below_idle {i : Instr} {s t : State} (hb : belowCommand (Laws.RowFormat.row i).1 = true) (h : exec i s = .next t) :
    t.control = .idle := by
  have hcmd : (Laws.RowFormat.row i).1 ≠ .cmd := fun z => by rw [z] at hb; cases hb
  have hstatus : (Laws.RowFormat.row i).1 ≠ .status := fun z => by rw [z] at hb; cases hb
  obtain ⟨-, -, control, -⟩ := exec_belowCommand h hcmd hstatus
  exact control.trans (exec_free h).idle

/-- An operation that cannot stop once it has begun ends where what it does ends. -/
theorem begin_idle {s t : State} {f : State → State} (h : begin s (fun s => .next (f s)) = .next t)
    (hf : (f s).control = .idle) : t.control = .idle := (begin_total h).symm ▸ hf

/-- A command that reads the header, by what it does once the descriptor is there. -/
theorem described_idle {s t : State} {c : CommandIds → Byte} {answer : State → State}
    (ha : ∀ u : State, u.Drains → (answer u).control = .idle) (hd : s.Drains)
    (h : begin s (fun s => .next (answer (s.described (c s.params.cmdId)))) = .next t) : t.control = .idle := by
  have ⟨hc, hi, _⟩ := begin_next h
  rw [begin_total h]
  exact ha _ ((described_fields ⟨hc, hi⟩ _).txSpace.trans hd)

theorem exec_idle {i : Instr} {s t : State} (h : exec i s = .next t) (hd : s.Drains) (hi : i ≠ .writeRam) :
    t.control = .idle := by
  cases i with
  | parseHeader =>
    rw [exec_parseHeader_eq] at h
    exact described_idle (c := CommandIds.parseHeader) (fun _ => answerReport_idle) hd h
  | readRom =>
    rw [exec_readRom_eq] at h
    exact described_idle (c := CommandIds.readRom) (fun _ => answerRom_idle) hd h
  | readRam =>
    rw [exec_readRam_eq] at h
    exact described_idle (c := CommandIds.readRam) (fun _ => answerRam_idle) hd h
  | writeRam => exact absurd rfl hi
  | readRtc =>
    rw [exec_readRtc_eq] at h
    exact described_idle (c := CommandIds.readRtc) (fun _ => answerRtc_idle) hd h
  | writeRtc =>
    rw [exec_writeRtc_eq] at h
    exact begin_idle h (raise_idle (u := startCommand _ s) hd _)
  | unknown0607 c | unknown080F c | unknown101F c | unknown203F c | unknown407F c | unknown80FF c =>
    exact begin_idle (f := fun u => raise .unknownCommand (startCommand c u)) h (raise_idle (u := startCommand c s) hd _)
  | statusOk => exact begin_idle h (transmit_idle hd (next := .returned) rfl _)
  | statusUnknownCommand | statusInvalidNumRomBanks | statusInvalidNumRamBanks | statusInvalidCartridgeType
  | statusInvalidRamWriteSize | statusCartridgeHasNoRam | statusCartridgeHasNoRtc | statusInvalidRtcWriteSize =>
    exact begin_idle h (raise_idle hd _)
  | _ => exact exec_below_idle rfl h

/-- Settles O60: with the lines at rest every operation answers, its answer keeps the invariant, and where the host drains only
`write_ram` goes on from a send to `RxByte`. -/
theorem everyOperationCompletes : Obligations.EveryOperationCompletes := by
  unfold Obligations.EveryOperationCompletes
  intro s hs
  refine ⟨step_ne_contention hs, fun hi i => ?_⟩
  obtain ⟨t, h⟩ := exec_answers ⟨hs.clean, hi⟩ hs.rests i
  exact ⟨t, h, exec_inv hs h, exec_idle h⟩

end Sys2Proof.Machine
end

section
/-! PROOFS. `MBC1.read_rom` and `MBC1.read_header`, and the RAM operations of the three variants (42_mbc1.md R170 to R173,
43_mbc3.md R181 and R182, 44_mbc5.md R201 and R202): each answers a composition of cells, whose events, window, latches and settle
waits are said in Laws/Fields.lean and Laws/Exec.lean. -/

namespace Sys2Proof.Machine

/-! ### `MBC1.read_rom` and `MBC1.read_header` -/

/-- The low field of the bank is zero as a data byte where it is zero as five bits (30_encoding.md R111). -/
theorem bank7Low_eq_zero (bank : BankOperand) : bank7Low bank = 0 ↔ bank.extractLsb' 0 5 = 0#5 := by
  rw [bank7Low, ← BitVec.toNat_inj, ← BitVec.toNat_inj, BitVec.toNat_setWidth_of_le (by decide)]
  rfl

theorem mbc1RomBase_field (bank : BankOperand) :
    mbc1RomBase bank = if bank.extractLsb' 0 5 = 0#5 then 0x0000 else 0x4000 := by
  simp only [mbc1RomBase, bank7Low_eq_zero, winFixed, winSwitch]

/-- The last address of the window of `MBC1.read_rom` (R170). -/
theorem lastMbc1Rom (bank : BankOperand) : effectiveAddress (mbc1RomBase bank) (romBankSize - 1) =
    if bank.extractLsb' 0 5 = 0#5 then 0x3FFF else 0x7FFF := by
  rw [lastRom, mbc1RomBase_field]
  split <;> rfl

/-- The settle waits of `MBC1.read_rom` (70_reset_and_hazards.md R341). -/
theorem settles_mbc1Rom (p : Params) (bank : BankOperand) :
    330 + 82 * (mbc1RomSelect p bank).length + 72 * romBankSize + 1 = 1180222 + 3 := by
  simp only [mbc1RomSelect, romBankSize, List.length_cons, List.length_nil]

theorem done_mbc1RomRead (s : State) (bank : BankOperand) (base : Addr) :
    BusDone s (s.romRead .mbc1 (mbc1RomSelect s.params bank) base)
      (registerEvents (registerZeros s.params .mbc1 ++ mbc1RomSelect s.params bank)) (1180222 + 3) := by
  rw [← zeroWrites_eq, ← settles_mbc1Rom s.params bank]
  exact done_romRead s .mbc1 (mbc1RomSelect s.params bank) base

/-- Settles O21: the window is the fixed one where the low field of the bank is zero, and the high field is written last. -/
theorem mbc1ReadRomFillsTheBuffer : Obligations.Mbc1ReadRomFillsTheBuffer := by
  unfold Obligations.Mbc1ReadRomFillsTheBuffer
  intro bank s hf
  have window := inBuffer_romRead s .mbc1 (mbc1RomSelect s.params bank) (mbc1RomBase bank)
  have latched := latched_romRead s .mbc1 [(s.params.m1Mode, 0x01), (s.params.m1Bank1, bank7Low bank)]
    (s.params.m1Bank2, bank7High bank) (mbc1RomBase bank)
  rw [← mbc1RomBase_field, ← lastMbc1Rom]
  exact ⟨_, exec_mbc1ReadRom hf bank, done_mbc1RomRead s bank _, window, latched, romRead_v s .mbc1 _ _⟩

/-- Settles O24: the four zero writes leave zero in the data latch, and the window is the 0x50 bytes of the header. -/
theorem readHeaderFillsTheHeader : Obligations.ReadHeaderFillsTheHeader := by
  unfold Obligations.ReadHeaderFillsTheHeader
  intro s hf
  have done := done_headerRead s
  rw [zeroWrites_eq] at done
  exact ⟨_, exec_mbc1ReadHeader hf, done, inBuffer_headerRead s, latched_headerRead s, headerRead_v s⟩

/-! ### The RAM operations -/

/-- The settle waits of a RAM bank transfer, its cells apart: 82 for each write that opens the bank (R341). -/
theorem settles_openRam (p : Params) (bank : BankOperand) (v : Variant) (cells : Nat) :
    331 + 82 * (ramBankWrites p bank v).length + cells + 2 = ramBankSettles v + cells := by
  cases v <;> simp only [ramBankWrites, ramBankSettles, List.length_cons, List.length_nil] <;> omega

theorem latched_ramRead_last {ws : List (Addr × Byte)} {w : Addr × Byte} (h : ws.getLast? = some w) (s : State) (v : Variant) :
    Latched (s.ramRead v ws) 0xBFFF w.2 := by
  obtain ⟨us, rfl⟩ := List.getLast?_eq_some_iff.1 h
  exact latched_ramRead s v us w

theorem done_ramBankRead (s : State) (v : Variant) (bank : BankOperand) :
    BusDone s (s.ramRead v (ramBankWrites s.params bank v))
      (registerEvents (registerZeros s.params v ++ ramBankWrites s.params bank v)) (ramBankSettles v + 8192 * 72) := by
  rw [← zeroWrites_eq, ← settles_openRam s.params bank]
  exact done_ramRead s v (ramBankWrites s.params bank v)

theorem done_ramBankWritten (s : State) (v : Variant) (bank : BankOperand) (data : Nat → Byte) :
    BusDone s (s.ramWritten v (ramBankWrites s.params bank v) data) (ramBankEvents s.params v bank data)
      (ramBankSettles v + 8192 * 82) := by
  rw [ramBankEvents, ← zeroWrites_eq, ← settles_openRam s.params bank]
  exact done_ramWritten s v (ramBankWrites s.params bank v) data

/-- Settles O25: the three variants differ in the writes that open the bank; the window is read with CS asserted, and the data
latch keeps the last of those writes. -/
theorem readRamFillsTheBuffer : Obligations.ReadRamFillsTheBuffer := by
  unfold Obligations.ReadRamFillsTheBuffer
  intro v bank s hf
  exact ⟨_, exec_readRam hf v bank, done_ramBankRead s v bank, inBuffer_ramRead s v _,
    fun _ hw => latched_ramRead_last hw s v, ramRead_v s v _⟩

/-- Settles O26: the bytes written are those BankBuffer had when the operation began, since a write cell stores nothing there. -/
theorem writeRamStoresTheBuffer : Obligations.WriteRamStoresTheBuffer := by
  unfold Obligations.WriteRamStoresTheBuffer
  intro v bank s hf
  exact ⟨_, exec_writeRam hf v bank, done_ramBankWritten s v bank s.readBuffer, nothingRead_ramWritten s v _ _,
    latched_ramWritten s v _ s.readBuffer⟩

end Sys2Proof.Machine
end

section
/-! PROOFS. MBC3 and its clock (43_mbc3.md R180, R183, R184): `MBC3.read_rom`, `MBC3.read_rtc`, `MBC3.write_rtc`, and the
command `read_rtc` on a REF-MBC3 cartridge (46_command_protocol.md R248, 95_test_vectors.md P4). -/

namespace Sys2Proof.Machine

/-! ### `MBC3.write_rtc` -/

/-- Settles O28: the label is in the table whatever the parameters, and the operation is its beginning alone. -/
theorem mbc3WriteRtcDoesNothing : Obligations.Mbc3WriteRtcDoesNothing := by
  unfold Obligations.Mbc3WriteRtcDoesNothing
  have label : decodeInt 0x00000044#32 = .instr .mbc3WriteRtc := by decide
  exact ⟨fun _ => label, fun s hf => begin_free hf.clean hf.idle .next⟩

/-! ### `MBC3.read_rom` -/

theorem mbc3RomBase_field (bank : BankOperand) :
    mbc3RomBase bank = if bank.extractLsb' 0 8 = 0#8 then 0x0000 else 0x4000 := rfl

/-- The last address of the window of `MBC3.read_rom` (R180). -/
theorem lastMbc3Rom (bank : BankOperand) : effectiveAddress (mbc3RomBase bank) (romBankSize - 1) =
    if bank.extractLsb' 0 8 = 0#8 then 0x3FFF else 0x7FFF := by
  rw [lastRom, mbc3RomBase_field]
  split <;> rfl

/-- The settle waits of `MBC3.read_rom` (70_reset_and_hazards.md R341). -/
theorem settles_mbc3Rom (p : Params) (bank : BankOperand) :
    330 + 82 * (mbc3RomSelect p bank).length + 72 * romBankSize + 1 = 1180058 + 3 := by
  simp only [mbc3RomSelect, romBankSize, List.length_cons, List.length_nil]

theorem done_mbc3RomRead (s : State) (bank : BankOperand) (base : Addr) :
    BusDone s (s.romRead .mbc3 (mbc3RomSelect s.params bank) base)
      (registerEvents (registerZeros s.params .mbc3 ++ [(s.params.m3Romb, bank.extractLsb' 0 8)])) (1180058 + 3) := by
  rw [← zeroWrites_eq, ← settles_mbc3Rom s.params bank]
  exact done_romRead s .mbc3 (mbc3RomSelect s.params bank) base

/-- Settles O22: the one register holds the whole bank, and the window is the fixed one where it is zero. -/
theorem mbc3ReadRomFillsTheBuffer : Obligations.Mbc3ReadRomFillsTheBuffer := by
  unfold Obligations.Mbc3ReadRomFillsTheBuffer
  intro bank s hf
  have window := inBuffer_romRead s .mbc3 (mbc3RomSelect s.params bank) (mbc3RomBase bank)
  have latched := latched_romRead s .mbc3 [] (s.params.m3Romb, bank8 bank) (mbc3RomBase bank)
  rw [← mbc3RomBase_field, ← lastMbc3Rom]
  exact ⟨_, exec_mbc3ReadRom hf bank, done_mbc3RomRead s bank _, window, latched, romRead_v s .mbc3 _ _⟩

/-! ### `MBC3.read_rtc` -/

/-- The selects of the clock registers are register writes (R183). -/
theorem rtcEvents_eq (p : Params) (n : Nat) :
    rtcEvents p n = registerEvents ((List.range n).map fun j => (p.m3Ramb, p.rtcBase + BitVec.ofNat 8 j)) := by
  simp [rtcEvents, registerEvents, Function.comp_def]

/-- The eight writes of `MBC3.read_rtc` after the zeros: gate, latch 0, latch 1, and the five clock registers (R183, R42). -/
theorem rtcRead_events (p : Params) :
    registerEvents (registerZeros p .mbc3 ++ rtcSelect p) ++ rtcEvents p 5 =
    registerEvents (registerZeros p .mbc3 ++ [(p.m3Ramg, p.ramEnable), (p.m3Latch, 0x00), (p.m3Latch, 0x01),
      (p.m3Ramb, p.rtcBase), (p.m3Ramb, p.rtcBase + 1), (p.m3Ramb, p.rtcBase + 2), (p.m3Ramb, p.rtcBase + 3),
      (p.m3Ramb, p.rtcBase + 4)]) := by
  have base : p.rtcBase + BitVec.ofNat 8 0 = p.rtcBase := BitVec.add_zero _
  rw [rtcEvents_eq, ← registerEvents_append]
  simp only [List.range_succ, List.range_zero, List.nil_append, List.map_append, List.map_cons, List.map_nil, base]
  rfl

/-- The settle waits of `MBC3.read_rtc` (70_reset_and_hazards.md R341). -/
theorem settles_rtcRead (p : Params) : 330 + 82 * (rtcSelect p).length + 156 * 5 + 1 = 1354 + 3 := by
  simp only [rtcSelect, List.length_cons, List.length_nil]

/-- Settles O27: byte i is read after the first i + 1 of the five selects, and each cell read makes 9 draws. -/
theorem readRtcTakesTheSnapshot : Obligations.ReadRtcTakesTheSnapshot := by
  unfold Obligations.ReadRtcTakesTheSnapshot
  intro s hf
  have done := done_rtcRead s
  rw [rtcRead_events, settles_rtcRead] at done
  refine ⟨_, exec_mbc3ReadRtc hf, done, fun i => ⟨fun hi => ⟨s.draws + 9 * i, by omega, ?_, ?_⟩, fun hi => ?_⟩,
    latched_rtcRead s, rtcRead_v s⟩
  · rw [rtcRead_draws]
    omega
  · rw [rtcRead_readBuffer, if_pos hi, rtcRead_cart]
    rfl
  · rw [rtcRead_readBuffer, if_neg (by omega)]

/-! ### REF-MBC3 while its clock is read (20_memory.md R97) -/

/-- The zero writes of a header read are, at the default addresses, those of the MBC3 map: gate closed, latch 0. -/
theorem cartAfter_mbc3Header (c : RefMbc3) : cartAfter (.mbc3 c) (registerEvents (registerZeros defaultParams .mbc1)) =
    .mbc3 { c with ramg := 0, romb := 1, ramb := 0, latch := 0 } := by
  simp [registerZeros, defaultParams, Cartridge.accept]

/-- Latch 0, then latch 1, takes the live clock (10_state.md R42). -/
theorem cartAfter_rtcSelect (c : RefMbc3) :
    cartAfter (.mbc3 c) (registerEvents (registerZeros defaultParams .mbc3 ++ rtcSelect defaultParams)) =
    .mbc3 { c with ramg := 0xA, romb := 1, ramb := 0, latch := 1, rtcLatched := c.rtcLive } := by
  simp [registerZeros, rtcSelect, defaultParams, Cartridge.accept]

/-- Of several writes to the bank-select register the last one stands. -/
theorem cartAfter_ramBanks (c : RefMbc3) (d : Nat → Byte) (n : Nat) :
    cartAfter (.mbc3 c) (registerEvents ((List.range (n + 1)).map fun j => (defaultParams.m3Ramb, d j))) =
    .mbc3 { c with ramb := (d n).setWidth 4 } := by
  induction n with
  | zero => simp [defaultParams, Cartridge.accept]
  | succ n ih =>
    rw [List.range_succ, List.map_append, registerEvents_append, cartAfter_append, ih]
    simp [defaultParams, Cartridge.accept]

/-- REF-MBC3 with its clock captured and the register of this number selected. -/
def RefMbc3.clockShown (c : RefMbc3) (sel : BitVec 4) : RefMbc3 :=
  { c with ramg := 0xA, romb := 1, ramb := sel, latch := 1, rtcLatched := c.rtcLive }

/-- The cartridge while clock register n is read. -/
theorem cartAfter_rtc (c : RefMbc3) (n : Nat) :
    cartAfter (.mbc3 c) (registerEvents (registerZeros defaultParams .mbc3 ++ rtcSelect defaultParams ++
      (List.range (n + 1)).map fun j => (defaultParams.m3Ramb, defaultParams.rtcBase + BitVec.ofNat 8 j))) =
    .mbc3 (c.clockShown ((defaultParams.rtcBase + BitVec.ofNat 8 n).setWidth 4)) := by
  rw [registerEvents_append, cartAfter_append, cartAfter_rtcSelect, cartAfter_ramBanks]
  rfl

/-- The five selects RTC_BASE + n keep their number in the four bits of the register. -/
theorem rtcSelector_toNat {n : Nat} (hn : n < 5) :
    ((defaultParams.rtcBase + BitVec.ofNat 8 n).setWidth 4 : BitVec 4).toNat = 8 + n := by
  simp [defaultParams]
  omega

/-- The window answers the live clock as it was captured. -/
theorem RefMbc3.answer_clockShown (c : RefMbc3) {n : Nat} (hn : n < 5) :
    (c.clockShown ((defaultParams.rtcBase + BitVec.ofNat 8 n).setWidth 4)).answer 0xA000 true = c.rtcLive.get n := by
  have sel := rtcSelector_toNat hn
  rw [RefMbc3.answer_clock (i := 0) 0xA000 rfl (by decide) _ rfl (sel ▸ Nat.le_add_right 8 n), clockShown, sel,
    Nat.add_sub_cancel_left]

/-- On REF-MBC3 `MBC3.read_rtc` brings the five live clock bytes into BankBuffer, and leaves the last register selected. -/
theorem rtcRead_clock {s : State} (hp : s.params = defaultParams) {c : RefMbc3} (hc : s.cart = .mbc3 c) :
    (∀ i b, i < 5 → c.rtcLive.get i = some b → s.rtcRead.readBuffer i = b) ∧
    s.rtcRead.cart = .mbc3 (c.clockShown 0xC) := by
  refine ⟨fun i b hi hb => ?_, ?_⟩
  · rw [rtcRead_readBuffer, if_pos hi, rtcRead_cart, hc, hp, cartAfter_rtc, Cartridge.answer, c.answer_clockShown hi, hb]
    rfl
  · rw [(done_rtcRead s).cart, rtcEvents_eq, ← registerEvents_append, hc, hp, cartAfter_rtc]
    rfl

/-! ### The command `read_rtc` -/

section described
variable {c : Byte} {s h : State} {d : Descriptor} (hd : Described c s h d)
include hd

/-- What the header read of a command has done to the cartridge (R171, R243). -/
theorem Described.cart : h.cart = cartAfter s.cart (registerEvents (registerZeros s.params .mbc1)) := by
  have done := done_headerRead (startCommand c s)
  rw [hd.eq.1, readDescriptor_eq, parseBuffer_cart, done.cart, zeroWrites_eq]
  rfl

/-- The settle waits of a command's header read (70_reset_and_hazards.md R341). -/
theorem Described.settles : h.settles = s.settles + (6088 + 3) := by
  have done := done_headerRead (startCommand c s)
  rw [hd.eq.1, readDescriptor_eq]
  exact done.settles

/-- Type 0x10 of the default table is an MBC3 with a clock (45_header_parser.md R219). -/
theorem Described.capable_of_clockType (hp : s.params = defaultParams) (ht : h.readBuffer 0x47 = 0x10) :
    rtcCapable h.bufferDescriptor = true := by
  rw [State.bufferDescriptor, hd.fields.params, hp, parseHeader, ht]
  rfl

/-- The header byte of the type on REF-MBC3, whose fixed window shows bank 0. -/
theorem Described.mbc3Type (hp : s.params = defaultParams) {m : RefMbc3} (hc : s.cart = .mbc3 m) :
    h.readBuffer 0x47 = romByte m.rom 0x147 := by
  refine hd.headerByte (by decide) ?_
  rw [hc, hp, cartAfter_mbc3Header]
  exact Cartridge.answer_bankZero rfl (by decide) false

end described

/-- The five clock registers in the order in which they are sent (10_state.md R41). -/
theorem RtcRegs.map_range_five {r : RtcRegs} {f : Nat → Byte} (h : ∀ i b, i < 5 → r.get i = some b → f i = b) :
    (List.range 5).map f = [r.seconds, r.minutes, r.hours, r.dayLow, r.dayHigh] := by
  change [f 0, f 1, f 2, f 3, f 4] = _
  rw [h 0 _ (by decide) rfl, h 1 _ (by decide) rfl, h 2 _ (by decide) rfl, h 3 _ (by decide) rfl, h 4 _ (by decide) rfl]

/-- The end of a command moves no line. -/
theorem State.AtRest.ended {s : State} (h : s.AtRest) (sent : List Byte) : (s.ended sent).AtRest := h

/-- Settles O55: the header names a clock, so the snapshot is taken and sent; the header read's zero writes leave the live clock
alone. -/
theorem clockIsReadWhole : Obligations.ClockIsReadWhole := by
  unfold Obligations.ClockIsReadWhole
  intro s c hf hdrains hp hc ht
  obtain ⟨h, d, hd⟩ : ∃ h d, Described s.params.cmdId.readRtc s h d := ⟨_, _, describe hf _⟩
  have fields := hd.fields
  have capable := hd.capable_of_clockType hp ((hd.mbc3Type hp hc).trans ht)
  have shown := hd.cart
  rw [hc, hp, cartAfter_mbc3Header] at shown
  have done := done_rtcRead h
  rw [settles_rtcRead] at done
  obtain ⟨bytes, cart⟩ := rtcRead_clock (fields.params.trans hp) shown
  have answer := exec_readRtc_described hd
  rw [answerRtc_capable (done.same.txSpace.trans (fields.txSpace.trans hdrains)) capable (run_readRtc h),
    RtcRegs.map_range_five bytes] at answer
  refine ⟨_, answer, ?_, cart, done.atRest.ended _, (latched_rtcRead h).alat, ?_, rfl⟩
  · rw [State.ended, done.same.tx, fields.tx]
    rfl
  · have waits := hd.settles
    have later := done.settles
    change h.rtcRead.settles = _
    omega

end Sys2Proof.Machine
end

section
/-! PROOFS. `MBC5.read_rom` (44_mbc5.md R200): two register writes, and the switchable window for every bank (R203). -/

namespace Sys2Proof.Machine

/-- The last address of the window of `MBC5.read_rom` (R200). -/
theorem lastMbc5Rom : effectiveAddress winSwitch (romBankSize - 1) = 0x7FFF := rfl

/-- The settle waits of `MBC5.read_rom` (70_reset_and_hazards.md R341). -/
theorem settles_mbc5Rom (p : Params) (bank : BankOperand) :
    330 + 82 * (mbc5RomSelect p bank).length + 72 * romBankSize + 1 = 1180140 + 3 := by
  simp only [mbc5RomSelect, romBankSize, List.length_cons, List.length_nil]

/-- Settles O23: no bank moves the window, bank 0 neither, and the ninth bit of the bank is written last. -/
theorem mbc5ReadRomFillsTheBuffer : Obligations.Mbc5ReadRomFillsTheBuffer := by
  unfold Obligations.Mbc5ReadRomFillsTheBuffer
  intro bank s hf
  have done := done_romRead s .mbc5 (mbc5RomSelect s.params bank) winSwitch
  rw [zeroWrites_eq, settles_mbc5Rom] at done
  have window := inBuffer_romRead s .mbc5 (mbc5RomSelect s.params bank) winSwitch
  have latched := latched_romRead s .mbc5 [(s.params.m5Romb0, bank9Low bank)] (s.params.m5Romb1, bank9High bank) winSwitch
  rw [lastMbc5Rom] at latched
  exact ⟨_, exec_mbc5ReadRom hf bank, done, window, latched, romRead_v s .mbc5 _ _⟩

end Sys2Proof.Machine
end

section
/-! PROOFS. HeaderParser (45_header_parser.md R210 to R229): what the tables of the parser answer, the fields of the descriptor, and
the size codes as the commands `read_rom`, `read_ram` and `write_ram` meet them (60_exceptions.md R283, R284, R287, R291). -/

namespace Sys2Proof.Machine

/-! ### The size codes (R220, R221) -/

theorem romBanksOf_of_le {code : Byte} (h : code.toNat ≤ 8) : romBanksOf code = .banks (2 ^ (code.toNat + 1)) := if_pos h

theorem romBanksOf_of_gt {code : Byte} (h : 8 < code.toNat) : romBanksOf code = .error := if_neg (Nat.not_le.2 h)

theorem ramBanksOf_of_gt {code : Byte} (h : 5 < code.toNat) : ramBanksOf code = .error := by
  have away {c : Byte} (hc : c.toNat ≤ 5) : code ≠ c := fun e => absurd (e ▸ hc) (Nat.not_le.2 h)
  rw [ramBanksOf, if_neg (away (by decide)), if_neg (away (by decide)), if_neg (away (by decide)), if_neg (away (by decide)),
    if_neg (away (by decide))]

/-! ### The bytes of the header (R210) -/

@[simp] theorem headerBytes_length (b : Nat → Byte) (offset n : Nat) : (headerBytes b offset n).length = n := by
  rw [headerBytes, List.length_map, List.length_range]

@[simp] theorem headerBytes_getElem (b : Nat → Byte) (offset n : Nat) {i : Nat} (hi : i < (headerBytes b offset n).length) :
    (headerBytes b offset n)[i] = b (offset + i) := by
  simp only [headerBytes, List.getElem_map, List.getElem_range]

theorem headerBytes_take (b : Nat → Byte) (offset : Nat) {m n : Nat} (h : m ≤ n) :
    (headerBytes b offset n).take m = headerBytes b offset m := by
  rw [headerBytes, headerBytes, ← List.map_take, List.take_range, Nat.min_eq_left h]

/-! ### The title (R214) and the CGB flag (R215, R216) -/

theorem printable_iff (x : Byte) : printable x = true ↔ 0x20 ≤ x.toNat ∧ x.toNat ≤ 0x7E := by
  rw [printable, Bool.and_eq_true, decide_eq_true_iff, decide_eq_true_iff]

/-- The title ends before the first byte that is not printable, if there is one. -/
theorem titleOf_longestPrefix (b : Nat → Byte) : ∃ n, n ≤ 16 ∧ titleOf b = headerBytes b 0x34 n ∧
    (∀ i, i < n → printable (b (0x34 + i)) = true) ∧ (n < 16 → ¬ printable (b (0x34 + n)) = true) := by
  obtain ⟨n, hn⟩ : ∃ n, n = (headerBytes b 0x34 16).findIdx fun x => !printable x := ⟨_, rfl⟩
  have le : n ≤ 16 := by
    rw [hn, ← headerBytes_length b 0x34 16]
    exact List.findIdx_le_length
  refine ⟨n, le, ?_, fun i hi => ?_, fun hlt => ?_⟩
  · rw [titleOf, List.takeWhile_eq_take_findIdx_not, ← hn, headerBytes_take b 0x34 le]
  · have before := List.not_of_lt_findIdx (hn ▸ hi)
    simpa using before
  · have stop := List.findIdx_getElem (xs := headerBytes b 0x34 16) (p := fun x => !printable x)
      (w := by rwa [← hn, headerBytes_length])
    simpa [← hn] using stop

theorem cgbOf_eq_compatible_iff (last : Byte) : cgbOf last = .compatible ↔ last = 0x80 := by
  unfold cgbOf
  split_ifs with compatible exclusive
  · exact iff_of_true rfl compatible
  · exact iff_of_false (by decide) compatible
  · exact iff_of_false (by decide) compatible

theorem cgbOf_eq_exclusive_iff (last : Byte) : cgbOf last = .exclusive ↔ last = 0xC0 := by
  unfold cgbOf
  split_ifs with compatible exclusive
  · exact iff_of_false (by decide) (by rw [compatible]; decide)
  · exact iff_of_true rfl exclusive
  · exact iff_of_false (by decide) exclusive

theorem manufacturerOf_plain {b : Nat → Byte} (h : cgbOf (b 0x43) = .plain) : manufacturerOf b = none := if_pos h

theorem manufacturerOf_flagged {b : Nat → Byte} (h : cgbOf (b 0x43) ≠ .plain) :
    manufacturerOf b = some [b 0x3F, b 0x40, b 0x41, b 0x42] := if_neg h

/-! ### The type table (R219, R222) -/

theorem typeRowOf_listed {table : List TypeRow} {code : Byte} {r : TypeRow}
    (h : table.find? (fun r => r.code == code) = some r) : typeRowOf table code = r := by
  rw [typeRowOf, h, Option.getD_some]

theorem typeRowOf_unlisted {table : List TypeRow} {code : Byte} (h : ∀ r ∈ table, r.code ≠ code) :
    typeRowOf table code = unrecognizedRow code := by
  have absent : table.find? (fun r => r.code == code) = none := List.find?_eq_none.2 (by simpa using h)
  rw [typeRowOf, absent, Option.getD_none]

/-- Settles O37: five codes have a row in the default table, and 0x04 has none. -/
theorem typeTableRows : Obligations.TypeTableRows := by
  unfold Obligations.TypeTableRows
  exact ⟨typeRowOf_listed rfl, typeRowOf_listed rfl, typeRowOf_listed rfl, typeRowOf_listed rfl, typeRowOf_listed rfl,
    typeRowOf_unlisted (by decide)⟩

/-! ### The descriptor (R211, R212) -/

/-- The five fields taken from the row of the type. -/
theorem parseHeader_row {p : Params} {b : Nat → Byte} {r : TypeRow} (h : typeRowOf p.typeTable (b 0x47) = r) :
    (parseHeader p b).typeLabel = r.label ∧ (parseHeader p b).family = r.family ∧ (parseHeader p b).hasRam = r.hasRam ∧
    (parseHeader p b).hasBattery = r.hasBattery ∧ (parseHeader p b).hasRtc = r.hasRtc := by
  subst h
  exact ⟨rfl, rfl, rfl, rfl, rfl⟩

/-- Settles O33: the fields that are not header bytes as they stand are what the title, the flag, the row of the type and the two
size codes were shown to be. -/
theorem parseReadsEveryField : Obligations.ParseReadsEveryField := by
  unfold Obligations.ParseReadsEveryField
  intro s hf
  obtain ⟨n, hn, title, inside, after⟩ := titleOf_longestPrefix s.readBuffer
  refine ⟨s.bufferDescriptor, exec_parse hf, rfl, decide_eq_true_iff, ⟨n, hn, title, ?_, ?_⟩, cgbOf_eq_compatible_iff _,
    cgbOf_eq_exclusive_iff _, manufacturerOf_plain, manufacturerOf_flagged, rfl, rfl, rfl, rfl, ?_, ?_, rfl, romBanksOf_of_le,
    romBanksOf_of_gt, rfl, congrArg ramBanksOf, congrArg ramBanksOf, congrArg ramBanksOf, congrArg ramBanksOf,
    congrArg ramBanksOf, ?_, rfl, rfl, rfl, rfl, rfl, rfl⟩
  · exact fun i hi => (printable_iff _).1 (inside i hi)
  · exact fun hlt h => after hlt ((printable_iff _).2 h)
  · exact fun r h => parseHeader_row (typeRowOf_listed h)
  · exact fun h => parseHeader_row (typeRowOf_unlisted h)
  · rintro (one | beyond)
    · exact congrArg ramBanksOf one
    · exact ramBanksOf_of_gt beyond

section agree
variable {b b' : Nat → Byte} (h : ∀ i, i < 0x50 → b i = b' i)
include h

theorem headerBytes_congr {offset n : Nat} (hn : offset + n ≤ 0x50) : headerBytes b offset n = headerBytes b' offset n :=
  List.map_congr_left fun i hi => h _ (by have := List.mem_range.1 hi; omega)

theorem titleOf_congr : titleOf b = titleOf b' := by
  rw [titleOf, titleOf, headerBytes_congr h (by decide)]

theorem manufacturerOf_congr : manufacturerOf b = manufacturerOf b' := by
  rw [manufacturerOf, manufacturerOf, h 0x43 (by decide), headerBytes_congr h (by decide)]

end agree

/-- Settles O34: each field reads bytes below 0x50, and of the parameters the logo and the row of the type. -/
theorem parseIsPure : Obligations.ParseIsPure := by
  unfold Obligations.ParseIsPure
  intro p p' b b' logo table h
  simp (disch := decide) only [parseHeader, logo, table, titleOf_congr h, manufacturerOf_congr h, headerBytes_congr h, h]

/-! ### The checks of the commands (60_exceptions.md R291) -/

theorem romCheck_of_error {d : Descriptor} (h : d.romBanks = .error) : romCheck d = .raised .invalidNumRomBanks := by
  rw [romCheck, h]

theorem ramCheck_of_noRam {d : Descriptor} (h : d.ramSizeCode = 0 ∨ d.ramSizeCode = 1) :
    ramCheck d = .raised .cartridgeHasNoRam := if_pos h

theorem ramCheck_of_error {d : Descriptor} (hc : ¬ (d.ramSizeCode = 0 ∨ d.ramSizeCode = 1)) (h : d.ramBanks = .error) :
    ramCheck d = .raised .invalidNumRamBanks := by
  rw [ramCheck, if_neg hc, h]

theorem Described.drains {c : Byte} {s h : State} {d : Descriptor} (hd : Described c s h d) (hs : s.Drains) : h.Drains :=
  hd.fields.txSpace.trans hs

/-- `read_rom` where its check refuses. -/
theorem exec_readRom_raised {s h : State} {d : Descriptor} (hs : s.Drains) (hd : Described s.params.cmdId.readRom s h d)
    {st : Status} (e : romCheck d = .raised st) : exec .readRom s = .next (h.ended [statusCode st]) := by
  rw [exec_readRom_described hd, answerRom_raised (hd.eq.2 ▸ e), raise_ended (hd.drains hs)]

/-- `read_ram` and `write_ram` where the check they share refuses. -/
theorem exec_ram_raised {c : Byte} {i : Instr} {s h : State} {d : Descriptor} (hs : s.Drains)
    (hi : (c = s.params.cmdId.readRam ∧ i = .readRam) ∨ (c = s.params.cmdId.writeRam ∧ i = .writeRam)) (hd : Described c s h d)
    {st : Status} (e : ramCheck d = .raised st) : exec i s = .next (h.ended [statusCode st]) := by
  have e' : ramCheck h.bufferDescriptor = .raised st := hd.eq.2 ▸ e
  obtain ⟨rfl, rfl⟩ | ⟨rfl, rfl⟩ := hi
  · rw [exec_readRam_described hd, answerRam_raised e', raise_ended (hd.drains hs)]
  · rw [exec_writeRam_described hd, answerUpload_raised e', raise_ended (hd.drains hs)]

/-- Settles O35: `read_rom` checks the count before the family. -/
theorem romSizeCodes : Obligations.RomSizeCodes := by
  unfold Obligations.RomSizeCodes
  intro s h d hs hd
  have banks : d.romBanks = romBanksOf (h.readBuffer 0x48) := congrArg Descriptor.romBanks hd.eq.2
  refine ⟨fun low => banks.trans (romBanksOf_of_le low), fun high => ?_⟩
  have error : d.romBanks = .error := banks.trans (romBanksOf_of_gt high)
  exact ⟨error, exec_readRom_raised hs hd (romCheck_of_error error)⟩

/-- Settles O36: codes 0 and 1 are refused before the count is looked at, and every code the map lacks before the family is. -/
theorem ramSizeCodes : Obligations.RamSizeCodes := by
  unfold Obligations.RamSizeCodes
  intro c i s h d hs hi hd
  have code : d.ramSizeCode = h.readBuffer 0x49 := congrArg Descriptor.ramSizeCode hd.eq.2
  have banks : d.ramBanks = ramBanksOf (h.readBuffer 0x49) := congrArg Descriptor.ramBanks hd.eq.2
  have mapped {m : Byte} (e : h.readBuffer 0x49 = m) : d.ramBanks = ramBanksOf m := banks.trans (congrArg ramBanksOf e)
  have noRam (e : h.readBuffer 0x49 = 0 ∨ h.readBuffer 0x49 = 1) : exec i s = .next (h.ended [0x16]) :=
    exec_ram_raised hs hi hd (ramCheck_of_noRam (code ▸ e))
  refine ⟨fun e => ⟨mapped e, noRam (.inl e)⟩, fun e => ⟨mapped e, noRam (.inr e)⟩, mapped, mapped, mapped, mapped,
    fun beyond => ?_⟩
  have hasRam : ¬ (d.ramSizeCode = 0 ∨ d.ramSizeCode = 1) := by
    rw [code]
    rintro (e | e) <;> exact absurd (e ▸ beyond) (by decide)
  have error : d.ramBanks = .error := banks.trans (ramBanksOf_of_gt beyond)
  exact ⟨error, exec_ram_raised hs hi hd (ramCheck_of_error hasRam error)⟩

end Sys2Proof.Machine
end

section
/-! PROOFS. Frames on the stream (20_memory.md R82, R84, 30_encoding.md R104, 60_exceptions.md R290, R297), the selectors that read no
header (46_command_protocol.md R249, R250), and the header read of the others, which `parse_header` reports (R243, R244). -/

namespace Sys2Proof.Machine

/-! ### Frames -/

theorem frameHeader_zero (st : Status) : frameHeader st 0 = [statusCode st] := by
  rw [frameHeader, if_pos rfl]

/-- The four bytes of a length, the least significant first (R82). -/
theorem lengthBytes_toNat (len : Length) : ∃ b0 b1 b2 b3 : Byte, lengthBytes len = [b0, b1, b2, b3] ∧
    b0.toNat + 256 * b1.toNat + 65536 * b2.toNat + 16777216 * b3.toNat = len.toNat := by
  refine ⟨_, _, _, _, rfl, ?_⟩
  simp only [BitVec.extractLsb'_toNat, Nat.shiftRight_eq_div_pow]
  omega

/-- A send on a transport with room for it (R84). -/
theorem transmit_room {s : State} {room : Nat} (h : s.txSpace = some room) {bs : List Byte} (hl : bs.length ≤ room)
    (next : AfterSend) :
    transmit bs next s = proceed next { s with tx := s.tx ++ bs, txSpace := some (room - bs.length) } := by
  have fits : s.roomFor bs.length = true := by simp [State.roomFor, h, hl]
  have sent : txBytes bs s = { s with tx := s.tx ++ bs, txSpace := some (room - bs.length) } := by simp [txBytes, h]
  rw [transmit, sendThen_fits bs next _ s fits, sent]

/-- Settles O39: a send does one of three things, and `raise` is a send where the host drains. -/
theorem framesAreByteExact : Obligations.FramesAreByteExact := by
  unfold Obligations.FramesAreByteExact
  intro st len s
  refine ⟨frameHeader_zero st, fun hz => ?_, fun hd => raise_ended hd st, fun bs next => ⟨fun hd => transmit_drains hd bs next,
    fun room h hl => transmit_room h hl next, fun room h hl => sendThen_short bs next (proceed next) s h hl⟩⟩
  obtain ⟨b0, b1, b2, b3, bytes, sum⟩ := lengthBytes_toNat len
  exact ⟨b0, b1, b2, b3, by rw [frameHeader, if_neg hz, bytes], sum⟩

/-! ### The selectors that read no header -/

/-- The end of a command clears nothing where no working value is left (log 29). -/
theorem ended_of_clear {s : State} (hf : s.Free) (hsel : s.selector = none) (hdesc : s.descriptor = none) (hv : s.v = none)
    (sent : List Byte) : s.ended sent = { s with tx := s.tx ++ sent } := by
  rw [State.ended, ← hf.idle, ← hsel]
  simp only [hsel, hdesc, hv]

/-- Settles O53: `write_rtc` and the six rows raise at once. -/
theorem writeRtcAndUnknownSelectors : Obligations.WriteRtcAndUnknownSelectors := by
  unfold Obligations.WriteRtcAndUnknownSelectors
  intro c s hf hd
  have unknown := unknownSelector_ended hf hd c
  exact ⟨⟨exec_writeRtc_ended hf hd, unknown, unknown, unknown, unknown, unknown, unknown⟩, ended_of_clear hf⟩

/-! ### The header read of a command -/

/-- `Described` holds of the state the header read and `parse` lead to and of its descriptor, and of nothing else (R243). -/
theorem described_iff {s : State} (hf : s.Free) (c : Byte) (h : State) (d : Descriptor) :
    Described c s h d ↔ h = s.described c ∧ d = (s.described c).bufferDescriptor := by
  constructor
  · intro hd
    obtain ⟨rfl, rfl⟩ := hd.eq
    exact ⟨rfl, rfl⟩
  · rintro ⟨rfl, rfl⟩
    exact describe hf c

theorem exec_mbc1ReadHeader_begun {s : State} (hf : s.Free) (c : Byte) :
    exec .mbc1ReadHeader { s with selector := some c, descriptor := none, v := none } = .next (startCommand c s).headerRead :=
  exec_mbc1ReadHeader (s := startCommand c s) ⟨hf.clean, hf.idle⟩

theorem described_eq (s : State) (c : Byte) : s.described c = parseBuffer (startCommand c s).headerRead := by
  rw [State.described, readDescriptor_eq]

/-- What `parse` makes of a state r, and the descriptor it returns (R211). -/
theorem parsed_iff (r h : State) (d : Descriptor) : h = parseBuffer r ∧ d = (parseBuffer r).bufferDescriptor ↔
    h = { r with descriptor := some (parseHeader r.params r.readBuffer) } ∧ d = parseHeader r.params r.readBuffer := Iff.rfl

/-- Settles O41: neither the header read nor `parse` can stop once the command has begun. -/
theorem readDescriptorAlwaysCompletes : Obligations.ReadDescriptorAlwaysCompletes := by
  unfold Obligations.ReadDescriptorAlwaysCompletes
  intro c s hf
  refine ⟨_, _, exec_mbc1ReadHeader_begun hf c, rfl, fun h d => ?_⟩
  rw [described_iff hf, described_eq]
  exact parsed_iff _ h d

/-! ### `parse_header` -/

theorem renderReport_length_pos (d : Descriptor) : 1 ≤ (renderReport d).length := Nat.le_add_left 1 _

/-- A report length fits the four bytes it is sent in (00_scope.md R6). -/
theorem reportMax_lt : reportMax < 2 ^ 32 := by
  have word := Config.reportMaxWord.isLt
  rw [reportMax]
  omega

theorem answerReport_ended {h : State} (hd : h.Drains) {r : List Byte} (hr : renderReport h.bufferDescriptor = r) :
    answerReport h = (writeReport r h).ended (okHeader r.length ++ r) := by
  have pos := renderReport_length_pos h.bufferDescriptor
  have le := renderReport_length_le h.bufferDescriptor
  have max := reportMax_lt
  rw [hr] at pos le
  rw [answerReport, hr, sendReport, sendEnd_ended (s := writeReport r h) hd, report_sent, frameHeader_ok _ pos (by omega)]

/-- Settles O42: the report is written into ReportBuf and sent from there. -/
theorem parseHeaderSendsTheReport : Obligations.ParseHeaderSendsTheReport := by
  unfold Obligations.ParseHeaderSendsTheReport
  intro s h d hs hd
  have answer := exec_parseHeader_described hd
  rw [answerReport_ended (hd.drains hs) (congrArg renderReport hd.eq.2.symm)] at answer
  exact ⟨renderReport_length_pos d, renderReport_length_le d, _, answer, rfl, writeReport_readReport _ h⟩

end Sys2Proof.Machine
end

section
/-! PROOFS. The streaming commands past their checks (46_command_protocol.md R245, R246, R251, R252), and `read_rom` on a 32 KB ROM-only
cartridge (95_test_vectors.md V6, P2). -/

namespace Sys2Proof.Machine

/-! ### Past the checks -/

theorem moduleOf_eq (f : Family) : moduleOf f = servedBy f := by cases f <;> rfl

theorem familyCheck_of_served {d : Descriptor} {v : Variant} (h : servedBy d.family = some v) (n : Nat) :
    familyCheck d n = .passed v n := by
  rw [familyCheck, moduleOf_eq, h]

theorem romCheck_of_served {d : Descriptor} {n : Nat} {v : Variant} (hb : d.romBanks = .banks n)
    (hv : servedBy d.family = some v) : romCheck d = .passed v n := by
  rw [romCheck, hb]
  exact familyCheck_of_served hv n

theorem ramCheck_of_served {d : Descriptor} {n : Nat} {v : Variant} (h0 : d.ramSizeCode ≠ 0) (h1 : d.ramSizeCode ≠ 1)
    (hb : d.ramBanks = .banks n) (hv : servedBy d.family = some v) : ramCheck d = .passed v n := by
  rw [ramCheck, if_neg (not_or.2 ⟨h0, h1⟩), hb]
  exact familyCheck_of_served hv n

/-! ### Every bank -/

/-- The greatest payload is 512 banks of ROM (30_encoding.md R114). -/
theorem ReadKind.counts_le {kind : ReadKind} {n : Nat} (h : kind.counts n = true) : n ≤ 512 := by
  cases kind with
  | rom | ram =>
    simp only [ReadKind.counts, decide_eq_true_eq, List.mem_cons, List.not_mem_nil, or_false] at h
    omega

theorem ReadKind.payload_lt {kind : ReadKind} {n : Nat} (h : kind.counts n = true) : n * kind.unit < 2 ^ 32 := by
  have le := ReadKind.counts_le h
  cases kind <;> simp only [ReadKind.unit, romBankSize, ramBankSize] <;> omega

theorem ReadKind.payload_pos {kind : ReadKind} {n : Nat} (h : kind.counts n = true) : 0 < n * kind.unit :=
  Nat.mul_pos (ReadKind.counts_pos h) (by cases kind <;> decide)

theorem endCommand_eq_ended (s : State) : endCommand s = s.ended [] := by
  rw [State.ended, List.append_nil]
  rfl

/-- A payload streamed where the host drains: one frame, whose length is that of its banks, and the bus at rest. -/
theorem streamFrom_frame {s : State} (hf : s.Free) (hd : s.Drains) (hr : s.AtRest) {kind : ReadKind} (v : Variant) {n : Nat}
    (hn : kind.counts n = true) : ∃ u payload, Streamed (kind.op v) kind.unit (n * kind.unit) n s u ∧
      streamFrom kind v n n s = u.ended [] ∧ u.tx = s.tx ++ okHeader (n * kind.unit) ++ payload ∧
      payload.length = n * kind.unit ∧ u.AtRest := by
  have pos := ReadKind.payload_pos hn
  have lt := ReadKind.payload_lt hn
  obtain ⟨streams, -, rests⟩ := streamed kind v n pos lt n hf
  obtain ⟨m, e⟩ : ∃ m, n = m + 1 := ⟨n - 1, by have := ReadKind.counts_pos hn; omega⟩
  obtain ⟨payload, tx, length⟩ := streamBanks_tx kind v n m s
  rw [← e, payloadLength, frameHeader_ok _ pos lt] at tx
  rw [← e] at length
  exact ⟨_, payload, streams, (streamFrom_all hd kind v n).trans (endCommand_eq_ended _), tx, length, rests hr⟩

theorem Described.free_after {c : Byte} {s h : State} {d : Descriptor} (hd : Described c s h d) : h.Free :=
  ⟨hd.fields.contention, hd.fields.control⟩

/-- Settles O44: past the check of the bank count and the family, the payload is streamed from the state the header read left. -/
theorem readRomStreamsEveryBank : Obligations.ReadRomStreamsEveryBank := by
  unfold Obligations.ReadRomStreamsEveryBank
  intro s h d n v hs hd hb hv
  have check : romCheck h.bufferDescriptor = .passed v n := hd.eq.2 ▸ romCheck_of_served hb hv
  rw [exec_readRom_described hd, answerRom_passed check, ← hd.fields.tx]
  obtain ⟨u, payload, streams, answer, frame⟩ :=
    streamFrom_frame hd.free_after (hd.drains hs) hd.fields.rest v (rom_counts check)
  exact ⟨u, payload, streams, congrArg _ answer, frame⟩

/-- Settles O45: as `read_rom`, with the RAM banks and their check. -/
theorem readRamStreamsEveryBank : Obligations.ReadRamStreamsEveryBank := by
  unfold Obligations.ReadRamStreamsEveryBank
  intro s h d n v hs hd h0 h1 hb hv
  have check : ramCheck h.bufferDescriptor = .passed v n := hd.eq.2 ▸ ramCheck_of_served h0 h1 hb hv
  rw [exec_readRam_described hd, answerRam_passed check, ← hd.fields.tx]
  obtain ⟨u, payload, streams, answer, frame⟩ :=
    streamFrom_frame hd.free_after (hd.drains hs) hd.fields.rest v (ram_counts check)
  exact ⟨u, payload, streams, congrArg _ answer, frame⟩

/-! ### The 32 KB ROM-only cartridge -/

/-- What `streamBank` has done when it has streamed ROM bank b of a plain ROM: 7 register writes that the cartridge ignores, the
bank in address order after the bytes of the frame's start, and the latches of bank b's last cell. -/
structure RomBankSent (rom : RefRom) (head : List Byte) (b : Nat) (u t : State) : Prop where
  params  : t.params = u.params
  cart    : t.cart = .rom rom
  tx      : t.tx = u.tx ++ head ++ (List.range 16384).map fun i => romByte rom.rom (b * 16384 + i)
  events  : t.busWrites.length = u.busWrites.length + 7
  settles : t.settles = u.settles + 1180225
  rest    : t.AtRest
  alat    : t.alat = effectiveAddress (mbc1RomBase (bankOperand b)) (romBankSize - 1)
  dlat    : t.dlat = bank7High (bankOperand b)

theorem run_mbc1ReadRom (s : State) (bank : BankOperand) : run (ReadKind.rom.seq s.params .mbc1 bank) s =
    s.romRead .mbc1 (mbc1RomSelect s.params bank) (mbc1RomBase bank) :=
  run_readRomShape s .mbc1 (mbc1RomSelect s.params bank) (mbc1RomBase bank)

/-- Banks 0 and 1 of a plain ROM read by MBC1's operation (R95, R170, R174). -/
theorem bufferBytes_romRead {u : State} {rom : RefRom} (hc : u.cart = .rom rom) {b : Nat} (hb : b < 2) :
    (u.romRead .mbc1 (mbc1RomSelect u.params (bankOperand b)) (mbc1RomBase (bankOperand b))).bufferBytes 16384 =
    (List.range 16384).map fun i => romByte rom.rom (b * 16384 + i) := by
  refine List.map_congr_left fun i hi => ?_
  have inside := List.mem_range.1 hi
  refine romRead_readBuffer inside ?_
  rw [hc, cartAfter_rom_registers]
  exact rom.answer_bank inside hb

theorem latched_mbc1RomRead (u : State) (bank : BankOperand) :
    Latched (u.romRead .mbc1 (mbc1RomSelect u.params bank) (mbc1RomBase bank))
      (effectiveAddress (mbc1RomBase bank) (romBankSize - 1)) (bank7High bank) :=
  latched_romRead u .mbc1 [(u.params.m1Mode, 0x01), (u.params.m1Bank1, bank7Low bank)] (u.params.m1Bank2, bank7High bank)
    (mbc1RomBase bank)

/-- The bytes of a bank's send, appended to what was sent before (R245). -/
theorem append_bankBytes {r : State} {f : Nat → Byte} (h : r.bufferBytes 16384 = (List.range 16384).map f) (sent : List Byte)
    (n b : Nat) : sent ++ bankBytes .rom n b r =
    sent ++ (if b = 0 then frameHeader .ok (payloadLength n romBankSize) else []) ++ (List.range 16384).map f := by
  have bytes : r.bufferBytes ReadKind.rom.unit = (List.range 16384).map f := h
  rw [bankBytes, bytes, ← List.append_assoc]
  rfl

theorem streamBank_of_run {kind : ReadKind} {v : Variant} {b : Nat} {u r : State} (n : Nat)
    (h : run (kind.seq u.params v (bankOperand b)) u = r) :
    streamBank kind v n b u = { r with tx := r.tx ++ bankBytes kind n b r } := by
  rw [streamBank, h]

/-- Sent bytes move no line. -/
theorem State.AtRest.sent {s : State} (h : s.AtRest) (tx : List Byte) : State.AtRest { s with tx := tx } := h

theorem romBankSent {u : State} {rom : RefRom} (hc : u.cart = .rom rom) {b : Nat} (hb : b < 2) (n : Nat) :
    RomBankSent rom (if b = 0 then frameHeader .ok (payloadLength n romBankSize) else []) b u (streamBank .rom .mbc1 n b u) := by
  have bytes := bufferBytes_romRead hc hb
  have done := done_mbc1RomRead u (bankOperand b) (mbc1RomBase (bankOperand b))
  have latched := latched_mbc1RomRead u (bankOperand b)
  have read := run_mbc1ReadRom u (bankOperand b)
  generalize u.romRead .mbc1 (mbc1RomSelect u.params (bankOperand b)) (mbc1RomBase (bankOperand b)) = r at *
  rw [streamBank_of_run n read]
  have cart := done.cart
  have events := congrArg List.length done.events
  have settles := done.settles
  rw [hc, cartAfter_rom_registers] at cart
  rw [List.length_append] at events
  refine ⟨done.same.params, cart, ?_, events, by omega, done.atRest.sent _, latched.alat, latched.dlat⟩
  rw [append_bankBytes bytes, done.same.tx]

/-- Both banks, one after the other, are the whole ROM in address order. -/
theorem map_range_banks (f : Nat → Byte) : (List.range 32768).map f =
    (List.range 16384).map (fun i => f (0 * 16384 + i)) ++ (List.range 16384).map fun i => f (1 * 16384 + i) := by
  rw [show 32768 = 16384 + 16384 from rfl, List.range_add, List.map_append, List.map_map]
  simp only [Nat.zero_mul, Nat.zero_add, Nat.one_mul]
  rfl

/-- The command that has streamed banks 0 and 1 and ends. -/
theorem RomBankSent.ended {rom : RefRom} {head : List Byte} {h u t : State} (first : RomBankSent rom head 0 h u)
    (second : RomBankSent rom [] 1 u t) :
    (endCommand t).tx = h.tx ++ head ++ (List.range 32768).map (romByte rom.rom) ∧ (endCommand t).AtRest ∧
    (endCommand t).cart = .rom rom ∧ (endCommand t).busWrites.length = h.busWrites.length + 14 ∧
    (endCommand t).alat = 0x7FFF ∧ (endCommand t).dlat = 0x00 ∧ (endCommand t).settles = h.settles + 2 * 1180225 ∧
    (endCommand t).control = .idle := by
  have waits0 := first.settles
  have waits1 := second.settles
  refine ⟨?_, second.rest, second.cart, ?_, second.alat.trans ((lastMbc1Rom _).trans (if_neg (by decide))),
    second.dlat.trans (by decide), ?_, rfl⟩
  · rw [endCommand_tx, second.tx, first.tx, map_range_banks]
    simp only [List.append_assoc, List.nil_append]
  · rw [endCommand_busWrites, second.events, first.events]
  · rw [endCommand_settles]
    omega

section described
variable {c : Byte} {s h : State} {d : Descriptor} (hd : Described c s h d) {rom : RefRom} (hc : s.cart = .rom rom)
include hd hc

/-- A plain ROM ignores the zero writes of the header read (R95). -/
theorem Described.romCart : h.cart = .rom rom := by
  rw [hd.cart, hc, cartAfter_rom_registers]

/-- A header byte of a plain ROM. -/
theorem Described.headerByte_rom (hp : s.params = defaultParams) {i : Nat} (hi : i < 0x50) :
    h.readBuffer i = romByte rom.rom (0x100 + i) := by
  have shown : (cartAfter (startCommand c s).cart (registerEvents (registerZeros defaultParams .mbc1))).bankZero = some rom.rom := by
    rw [startCommand_cart, hc, cartAfter_rom_registers]
    rfl
  rw [hd.eq.1, readDescriptor_eq, parseBuffer_readBuffer]
  exact headerRead_readBuffer (s := startCommand c s) hp shown hi

end described

/-- Type 0x00 of the default table and ROM-size code 0x00 are two banks, served by the MBC1 module (R219, R220, R251). -/
theorem romCheck_romOnly {h : State} (hp : h.params = defaultParams) (ht : h.readBuffer 0x47 = 0x00)
    (hz : h.readBuffer 0x48 = 0x00) : romCheck h.bufferDescriptor = .passed .mbc1 2 := by
  refine romCheck_of_served ?_ ?_
  · rw [State.bufferDescriptor, parseHeader, hz]
    rfl
  · rw [State.bufferDescriptor, hp, parseHeader, ht]
    rfl

theorem parseBuffer_busWrites (s : State) : (parseBuffer s).busWrites = s.busWrites := rfl

/-- The events of a header read are four (R171). -/
theorem Described.busWrites_length {c : Byte} {s h : State} {d : Descriptor} (hd : Described c s h d) :
    h.busWrites.length = s.busWrites.length + 4 := by
  have done := congrArg List.length (done_headerRead (startCommand c s)).events
  rw [List.length_append] at done
  rw [hd.eq.1, readDescriptor_eq, parseBuffer_busWrites, done, startCommand_busWrites, zeroWrites_eq]
  rfl

/-- Settles O54: bank 0 shows in the fixed window and bank 1 in the switchable one, and no register write moves them. -/
theorem romOnlyCartridgeIsReadWhole : Obligations.RomOnlyCartridgeIsReadWhole := by
  unfold Obligations.RomOnlyCartridgeIsReadWhole
  intro s c hf hs hp hc ht hz
  obtain ⟨h, d, hd⟩ : ∃ h d, Described s.params.cmdId.readRom s h d := ⟨_, _, describe hf _⟩
  have check := romCheck_romOnly (hd.fields.params.trans hp) ((hd.headerByte_rom hc hp (by decide)).trans ht)
    ((hd.headerByte_rom hc hp (by decide)).trans hz)
  have banks : streamBanks .rom .mbc1 2 2 h = streamBank .rom .mbc1 2 1 (streamBank .rom .mbc1 2 0 h) := by
    simp only [streamBanks]
  have first := romBankSent (hd.romCart hc) (by decide : 0 < 2) 2
  have second := romBankSent first.cart (by decide : 1 < 2) 2
  obtain ⟨tx, rest, cart, events, alat, dlat, waits, idle⟩ := first.ended second
  have headerEvents := hd.busWrites_length
  have headerWaits := hd.settles
  have answer := exec_readRom_described hd
  rw [answerRom_passed check, streamFrom_all (hd.drains hs), banks] at answer
  exact ⟨_, answer, tx.trans (by rw [hd.fields.tx]; rfl), rest, cart, by omega, alat, dlat, by omega, idle⟩

end Sys2Proof.Machine
end

section
/-! PROOFS. `write_ram` past its checks (46_command_protocol.md R247, 30_encoding.md R110): the two acknowledgements, the length bytes,
and the data bytes bank by bank (95_test_vectors.md V56). -/

namespace Sys2Proof.Machine

/-! ### The first acknowledgement -/

/-- `write_ram` past its checks, where the host drains: the first OK, and then what RX holds. -/
theorem exec_writeRam_acknowledged {s h : State} {d : Descriptor} {n : Nat} {v : Variant} (hs : s.Drains)
    (hd : Described s.params.cmdId.writeRam s h d) (check : ramCheck d = .passed v n) : exec .writeRam s =
    .next (takeBytes s.rx { h with tx := h.tx ++ [0x00], control := .awaitLength { variant := v, bankCount := n } [] }) := by
  rw [exec_writeRam_described hd, answerUpload_passed (hd.eq.2 ▸ check), frameHeader_zero, transmit_drains (hd.drains hs),
    ← hd.fields.rx]
  rfl

theorem takeBytes_nil {s : State} (h : s.rx = []) : takeBytes [] s = s := by
  have e : takeBytes [] s = { s with rx := [] } := rfl
  rw [e, ← h]

/-- Settles O46: with nothing in RX the command stays where its first acknowledgement left it. -/
theorem writeRamHoldsForTheLength : Obligations.WriteRamHoldsForTheLength := by
  unfold Obligations.WriteRamHoldsForTheLength
  intro s h d n v hs hd h0 h1 hb hv hx
  have silent : h.rx = [] := hd.fields.rx.trans hx
  have answer := exec_writeRam_acknowledged hs hd (ramCheck_of_served h0 h1 hb hv)
  rw [hx, takeBytes_nil (by exact silent)] at answer
  exact ⟨_, answer, rfl, step_withoutByte hd.fields.contention rfl silent⟩

/-! ### Part of a length, part of a bank -/

/-- A length byte that is not the fourth (R110). -/
theorem acceptLengthByte_part {got : List Byte} (h : got.length ≠ 3) (up : Upload) (x : Byte) (s : State) :
    acceptLengthByte up got x s = { s with control := .awaitLength up (got ++ [x]) } := by
  unfold acceptLengthByte
  split
  · exact absurd rfl h
  · rfl

theorem take_lengthBytes (up : Upload) : ∀ (xs got : List Byte) (s : State), s.control = .awaitLength up got →
    got.length + xs.length < 4 → takeBytes xs s = { s with rx := [], control := .awaitLength up (got ++ xs) } := by
  intro xs
  induction xs with
  | nil =>
    intro got s hc _
    rw [List.append_nil, ← hc]
    rfl
  | cons x xs ih =>
    intro got s hc hl
    rw [List.length_cons] at hl
    rw [takeBytes_cons (by rw [hc]; rfl), acceptByte, hc]
    dsimp only
    rw [acceptLengthByte_part (by omega), ih (got ++ [x]) _ rfl (by rw [List.length_append, List.length_singleton]; omega),
      List.append_assoc, List.singleton_append]

/-- BankBuffer where bytes have been stored from an offset on (10_state.md R43). -/
theorem readBuffer_stored {s t : State} {off : Nat} {xs : List Byte} (h : t.bankBuffer = Memory.writeBytes s.bankBuffer off xs)
    (i : Nat) : t.readBuffer i = if off ≤ i then (xs[i - off]?).getD (s.readBuffer i) else s.readBuffer i := by
  rw [State.readBuffer, h, Memory.read_writeBytes]
  by_cases low : off ≤ i
  · by_cases high : i < off + xs.length
    · rw [if_pos ⟨low, high⟩, if_pos low, List.getElem?_eq_getElem (by omega)]
      rfl
    · rw [if_neg (fun c => high c.2), if_pos low, List.getElem?_eq_none (by omega)]
      rfl
  · rw [if_neg (fun c => low c.1), if_neg low]
    rfl

/-- Settles O48: neither the fourth length byte nor the last byte of a bank is among these bytes. -/
theorem writeRamTakesAPartOfABank : Obligations.WriteRamTakesAPartOfABank := by
  unfold Obligations.WriteRamTakesAPartOfABank
  intro s up hc hx
  refine ⟨fun got hi hl => ?_, fun len bank off hd hi hl => ?_⟩
  · rw [step_held hc (by rw [hi]; rfl) hx, take_lengthBytes up s.rx got s hi hl]
  · have taken := take_part up len bank [] s.rx off s hd hi hl
    have stepped := step_held hc (by rw [hi]; rfl) hx
    rw [List.append_nil] at taken
    rw [taken] at stepped
    exact ⟨_, stepped, rfl, readBuffer_stored (s := s) (off := off) (xs := s.rx) rfl⟩

/-! ### The whole length -/

theorem hostLength_toNat (b0 b1 b2 b3 : Byte) :
    (hostLength b0 b1 b2 b3).toNat = b0.toNat + 256 * b1.toNat + 65536 * b2.toNat + 16777216 * b3.toNat := by
  rw [hostLength, BitVec.toNat_append, BitVec.toNat_append, BitVec.toNat_append, ← Nat.shiftLeft_add_eq_or_of_lt b0.isLt,
    ← Nat.shiftLeft_add_eq_or_of_lt b1.isLt, ← Nat.shiftLeft_add_eq_or_of_lt b2.isLt]
  simp only [Nat.shiftLeft_eq]
  omega

theorem hostLength_eq_payload {b0 b1 b2 b3 : Byte} {n : Nat}
    (h : b0.toNat + 256 * b1.toNat + 65536 * b2.toNat + 16777216 * b3.toNat = n * 8192) :
    hostLength b0 b1 b2 b3 = payloadLength n ramBankSize := by
  have length := hostLength_toNat b0 b1 b2 b3
  have lt := (hostLength b0 b1 b2 b3).isLt
  apply BitVec.eq_of_toNat_eq
  rw [payloadLength, BitVec.toNat_ofNat, ramBankSize, Nat.mod_eq_of_lt (by omega)]
  omega

/-- The four bytes of the length that is asked for bring the second acknowledgement (R247). -/
theorem take_wholeLength {s : State} (hd : s.Drains) {up : Upload} (hc : s.control = .awaitLength up []) {b0 b1 b2 b3 : Byte}
    (hl : hostLength b0 b1 b2 b3 = payloadLength up.bankCount ramBankSize) (rest : List Byte) :
    takeBytes (b0 :: b1 :: b2 :: b3 :: rest) s = takeBytes rest { s with
      rx := [], tx := s.tx ++ [0x00], control := .awaitData up (payloadLength up.bankCount ramBankSize) 0 0 } := by
  have three := take_lengthBytes up [b0, b1, b2] [] s hc (by simp)
  have asks : (takeBytes [b0, b1, b2] s).control.takes = true := by rw [three]; rfl
  have pieces := ((take_append [b0, b1, b2] (b3 :: rest) s).2 asks).2
  rw [takeBytes_cons asks, three, acceptByte] at pieces
  refine pieces.trans (congrArg (takeBytes rest) ?_)
  change lengthReceived up (hostLength b0 b1 b2 b3) _ = _
  rw [lengthReceived, if_pos hl, hl, frameHeader_zero, transmit_drains (by exact hd)]
  rfl

end Sys2Proof.Machine
end

section
/-! PROOFS. `write_ram` with all its data in RX (46_command_protocol.md R247, 20_memory.md R85): bank after bank is received, echoed and
committed. -/

namespace Sys2Proof.Machine

/-! ### The banks of the data -/

/-- The bytes of one bank of the data. -/
def bankOf (data : List Byte) (bank : Nat) : List Byte := (data.drop (8192 * bank)).take 8192

theorem bankOf_append (data : List Byte) (bank : Nat) :
    bankOf data bank ++ data.drop (8192 * (bank + 1)) = data.drop (8192 * bank) := by
  rw [bankOf, Nat.mul_succ, ← List.drop_drop, List.take_append_drop]

theorem take_bankOf (data : List Byte) (bank : Nat) :
    data.take (8192 * bank) ++ bankOf data bank = data.take (8192 * (bank + 1)) := by
  rw [bankOf, Nat.mul_succ, List.take_add]

theorem bankOf_length {data : List Byte} {bank : Nat} (h : 8192 * (bank + 1) ≤ data.length) :
    (bankOf data bank).length = 8192 := by
  rw [bankOf, List.length_take, List.length_drop]
  omega

theorem bankOf_getElem? {data : List Byte} {bank i : Nat} (h : 8192 * (bank + 1) ≤ data.length) (hi : i < 8192) :
    (bankOf data bank)[i]? = some (data.getD (8192 * bank + i) 0) := by
  rw [bankOf, List.getElem?_take_of_lt hi, List.getElem?_drop, List.getD_eq_getElem?_getD,
    List.getElem?_eq_getElem (by omega), Option.getD_some]

/-- The events of the first k banks (R247). -/
def uploadEvents (p : Params) (v : Variant) (data : List Byte) (k : Nat) : List BusWrite :=
  (List.range k).flatMap fun bank => ramBankEvents p v (BitVec.ofNat 16 bank) fun i => data.getD (8192 * bank + i) 0

theorem uploadEvents_succ (p : Params) (v : Variant) (data : List Byte) (k : Nat) : uploadEvents p v data (k + 1) =
    uploadEvents p v data k ++ ramBankEvents p v (BitVec.ofNat 16 k) fun i => data.getD (8192 * k + i) 0 := by
  rw [uploadEvents, List.range_succ, List.flatMap_append, List.flatMap_singleton]
  rfl

/-- The events of a RAM bank are its 8192 bytes. -/
theorem ramBankEvents_congr {f g : Nat → Byte} (h : ∀ i, i < 8192 → f i = g i) (p : Params) (v : Variant) (bank : BankOperand) :
    ramBankEvents p v bank f = ramBankEvents p v bank g := by
  have cells : ramEvents f = ramEvents g := List.map_congr_left fun i hi => by rw [h i (List.mem_range.1 hi)]
  rw [ramBankEvents, cells, ramBankEvents]

/-! ### One bank -/

/-- s after bytes have been echoed, with the position and BankBuffer of t. -/
def State.echoed (s : State) (sent : List Byte) (t : State) : State :=
  { s with tx := s.tx ++ sent, control := t.control, bankBuffer := t.bankBuffer }

/-- From s to t these bytes were echoed, these events delivered and n settle waits made; nothing was read off the bus, and of
BankBuffer only the first 8192 bytes changed. -/
structure Uploaded (s t : State) (sent : List Byte) (es : List BusWrite) (n : Nat) : Prop where
  bus    : Bused (s.echoed sent t) t es n
  quiet  : NothingRead (s.echoed sent t) t
  beyond : ∀ i, 8192 ≤ i → t.readBuffer i = s.readBuffer i

theorem echoed_nil (s : State) : s.echoed [] s = s := by
  rw [State.echoed, List.append_nil]

theorem echoed_echoed (s t u : State) (sent sent' : List Byte) : (s.echoed sent t).echoed sent' u = s.echoed (sent ++ sent') u := by
  rw [State.echoed, State.echoed, State.echoed, List.append_assoc]

/-- TX, the position and BankBuffer are no part of what a bus operation does to events, waits and frame. -/
theorem Bused.echoed {s t : State} {es : List BusWrite} {n : Nat} (h : Bused s t es n) (sent : List Byte) (u : State) :
    Bused (s.echoed sent u) (t.echoed sent u) es n :=
  have e := h.same
  ⟨h.events, h.cart, h.breach, h.settles, h.contention, ⟨e.params, e.reportBuf, congrArg (· ++ sent) e.tx, e.txDrained, e.rx, rfl,
    e.selector, e.descriptor, e.pending, e.bench, e.txSpace, e.rumbles⟩⟩

theorem NothingRead.echoed {s t : State} (h : NothingRead s t) (sent : List Byte) (u : State) :
    NothingRead (s.echoed sent u) (t.echoed sent u) := ⟨h.isr, h.v, h.draws, rfl⟩

theorem Uploaded.trans {s t u : State} {sent sent' : List Byte} {es fs : List BusWrite} {n m : Nat} (h : Uploaded s t sent es n)
    (k : Uploaded t u sent' fs m) : Uploaded s u (sent ++ sent') (es ++ fs) (n + m) where
  bus := echoed_echoed s t u sent sent' ▸ (h.bus.echoed sent' u).trans k.bus
  quiet := echoed_echoed s t u sent sent' ▸ (h.quiet.echoed sent' u).trans k.quiet
  beyond i hi := (k.beyond i hi).trans (h.beyond i hi)

/-- A bus operation after bytes have been echoed. -/
theorem Uploaded.of_bused {s t u : State} {sent : List Byte} {es : List BusWrite} {n : Nat} (h : Bused (s.echoed sent u) t es n)
    (q : NothingRead (s.echoed sent u) t) (beyond : ∀ i, 8192 ≤ i → t.readBuffer i = s.readBuffer i) :
    Uploaded s t sent es n where
  bus := by
    have moved := h.echoed [] t
    rwa [echoed_echoed, List.append_nil, echoed_nil] at moved
  quiet := by
    have moved := q.echoed [] t
    rwa [echoed_echoed, List.append_nil, echoed_nil] at moved
  beyond := beyond

theorem Uploaded.refl (s : State) : Uploaded s s [] [] 0 :=
  .of_bused (u := s) ((echoed_nil s).symm ▸ .refl s) ((echoed_nil s).symm ▸ .refl s) fun _ _ => rfl

/-- The position is no part of it. -/
theorem Uploaded.withControl {s t : State} {sent : List Byte} {es : List BusWrite} {n : Nat} (h : Uploaded s t sent es n)
    (c : Control) : Uploaded s (t.withControl c) sent es n := by
  have e : t.echoed [] (t.withControl c) = t.withControl c := by rw [State.echoed, List.append_nil, State.withControl]
  have move : Uploaded t (t.withControl c) [] [] 0 := .of_bused (u := t.withControl c)
    (by rw [e]; exact .refl _) (by rw [e]; exact .refl _) fun _ _ => rfl
  have moved := h.trans move
  rwa [List.append_nil, List.append_nil] at moved

theorem bused_ramBankWritten (s : State) (v : Variant) (bank : BankOperand) (data : Nat → Byte) :
    Bused s (s.ramWritten v (ramBankWrites s.params bank v) data) (ramBankEvents s.params v bank data)
      (ramBankSettles v + 8192 * 82) := by
  have done := done_ramBankWritten s v bank data
  have untouched := run_untouched (writeRamSeq s.params v bank data) s
  rw [run_writeRam] at untouched
  exact ⟨done.events, done.cart, done.breach, done.settles, done.same.contention, untouched⟩

/-- A bank received whole, with its last byte echoed, and not yet committed (R333). -/
def State.bankReceived (s : State) (up : Upload) (len : Length) (bank : Nat) (xs : List Byte) : State :=
  { s with tx := s.tx ++ xs, bankBuffer := Memory.writeBytes s.bankBuffer 0 xs, control := .awaitData up len bank 8191 }

/-- The same committed to the cartridge. -/
def State.bankCommitted (s : State) (up : Upload) (len : Length) (bank : Nat) (xs : List Byte) : State :=
  (s.bankReceived up len bank xs).ramWritten up.variant (ramBankWrites s.params (bankOperand bank) up.variant)
    (s.bankReceived up len bank xs).readBuffer

/-- What w has of the bank committed last: its bytes in BankBuffer and the last of them in the data latch, with the bus at rest. -/
structure LastBank (f : Nat → Byte) (w : State) : Prop where
  buffer  : ∀ i, i < 8192 → w.readBuffer i = f i
  latched : Latched w 0xBFFF (f 8191)
  rest    : w.AtRest

section bank
variable (s : State) (up : Upload) (len : Length) (bank : Nat) {xs : List Byte} {f : Nat → Byte}

theorem bankReceived_readBuffer (hf : ∀ i, i < 8192 → xs[i]? = some (f i)) {i : Nat} (hi : i < 8192) :
    (s.bankReceived up len bank xs).readBuffer i = f i := by
  rw [readBuffer_stored (s := s) (off := 0) (xs := xs) rfl, if_pos (Nat.zero_le i), Nat.sub_zero, hf i hi, Option.getD_some]

theorem lastBank_bankCommitted (hf : ∀ i, i < 8192 → xs[i]? = some (f i)) : LastBank f (s.bankCommitted up len bank xs) := by
  have received := fun i => bankReceived_readBuffer s up len bank hf (i := i)
  refine ⟨fun i hi => ?_, ?_, (done_ramBankWritten _ _ _ _).atRest⟩
  · rw [State.bankCommitted, State.readBuffer, (nothingRead_ramWritten _ _ _ _).bankBuffer]
    exact received i hi
  · rw [← received 8191 (by decide)]
    exact latched_ramWritten _ _ _ _

theorem uploaded_bankCommitted (hl : xs.length = 8192) (hf : ∀ i, i < 8192 → xs[i]? = some (f i)) :
    Uploaded s (s.bankCommitted up len bank xs) xs (ramBankEvents s.params up.variant (bankOperand bank) f)
      (ramBankSettles up.variant + 8192 * 82) := by
  have events := ramBankEvents_congr (fun i => bankReceived_readBuffer s up len bank hf (i := i)) s.params up.variant
    (bankOperand bank)
  have quiet : NothingRead (s.bankReceived up len bank xs) (s.bankCommitted up len bank xs) := nothingRead_ramWritten _ _ _ _
  rw [← events]
  refine .of_bused (u := s.bankReceived up len bank xs)
    (bused_ramBankWritten (s.bankReceived up len bank xs) up.variant (bankOperand bank) _) quiet fun i hi => ?_
  rw [State.readBuffer, quiet.bankBuffer]
  refine (readBuffer_stored (s := s) (t := s.bankReceived up len bank xs) (off := 0) (xs := xs) rfl i).trans ?_
  rw [if_pos (Nat.zero_le i), List.getElem?_eq_none (by omega), Option.getD_none]

end bank

/-! ### Bank after bank -/

/-- The position after a bank has been committed: the next bank, or the end of the command (R247). -/
def State.afterBank (s : State) (up : Upload) (len : Length) (bank : Nat) : State :=
  if bank + 1 < up.bankCount then s.withControl (.awaitData up len (bank + 1) 0) else endCommand s

theorem take_bankCommitted {s : State} (hd : s.Drains) {up : Upload} {len : Length} {bank : Nat}
    (hc : s.control = .awaitData up len bank 0) {xs : List Byte} (hl : xs.length = 8192) (rest : List Byte) :
    takeBytes (xs ++ rest) s = takeBytes rest ((s.bankCommitted up len bank xs).afterBank up len bank) := by
  have taken := take_bank up len bank rest xs s hd hc hl
  change _ = takeBytes rest (commitBank up len bank (s.bankReceived up len bank xs)) at taken
  rw [taken, commitBank, run_writeRam]
  rfl

/-- The first k banks of the data have been received and committed. -/
def BanksUploaded (up : Upload) (data : List Byte) (k : Nat) (s t : State) : Prop :=
  Uploaded s t (data.take (8192 * k)) (uploadEvents s.params up.variant data k) (k * (ramBankSettles up.variant + 8192 * 82))

theorem BanksUploaded.zero (up : Upload) (data : List Byte) (s : State) : BanksUploaded up data 0 s s := by
  rw [BanksUploaded, Nat.mul_zero, List.take_zero, Nat.zero_mul]
  exact .refl s

section upload
variable {up : Upload} {data : List Byte}

theorem BanksUploaded.succ {s t : State} {k : Nat} (h : BanksUploaded up data k s t) (hk : 8192 * (k + 1) ≤ data.length)
    (len : Length) : BanksUploaded up data (k + 1) s (t.bankCommitted up len k (bankOf data k)) := by
  have bank := uploaded_bankCommitted t up len k (bankOf_length hk) fun i hi => bankOf_getElem? hk hi
  rw [h.bus.same.params] at bank
  rw [BanksUploaded, ← take_bankOf, uploadEvents_succ, Nat.succ_mul k]
  exact h.trans bank

/-- The banks before bank k, taken from RX. -/
theorem take_banksBefore {s : State} (hd : s.Drains) {len : Length} (hc : s.control = .awaitData up len 0 0) (more : List Byte)
    (hl : data.length = up.bankCount * 8192) {k : Nat} (hk : k < up.bankCount) :
    ∃ t, BanksUploaded up data k s t ∧ t.control = .awaitData up len k 0 ∧
      takeBytes (data ++ more) s = takeBytes (data.drop (8192 * k) ++ more) t := by
  induction k with
  | zero => exact ⟨s, .zero up data s, hc, by rw [Nat.mul_zero, List.drop_zero]⟩
  | succ k ih =>
    obtain ⟨t, uploaded, position, taken⟩ := ih (by omega)
    have inside : 8192 * (k + 1) ≤ data.length := by omega
    refine ⟨_, (uploaded.succ inside len).withControl (.awaitData up len (k + 1) 0), rfl, ?_⟩
    rw [taken, ← bankOf_append, List.append_assoc,
      take_bankCommitted (uploaded.bus.same.txSpace.trans hd) position (bankOf_length inside), State.afterBank, if_pos hk]

/-- All banks taken from RX: what came before the last echo, and nothing after it (R247). -/
theorem take_upload {s : State} (hd : s.Drains) {len : Length} (hc : s.control = .awaitData up len 0 0) (more : List Byte)
    {k : Nat} (hk : up.bankCount = k + 1) (hl : data.length = up.bankCount * 8192) :
    ∃ w, BanksUploaded up data (k + 1) s w ∧ LastBank (fun i => data.getD (8192 * k + i) 0) w ∧
      takeBytes (data ++ more) s = { endCommand w with rx := more } := by
  obtain ⟨t, uploaded, position, taken⟩ := take_banksBefore hd hc more hl (k := k) (by omega)
  have inside : 8192 * (k + 1) ≤ data.length := by omega
  have none_left : data.drop (8192 * (k + 1)) = [] := List.drop_eq_nil_of_le (by omega)
  refine ⟨_, uploaded.succ inside len, lastBank_bankCommitted t up len k fun i hi => bankOf_getElem? inside hi, ?_⟩
  rw [taken, ← bankOf_append, none_left, List.append_nil,
    take_bankCommitted (uploaded.bus.same.txSpace.trans hd) position (bankOf_length inside), State.afterBank, if_neg (by omega)]
  exact takeBytes_stop rfl more

end upload

/-! ### The whole command -/

/-- The state after both acknowledgements, before the first data byte; what RX holds is being taken (R247). -/
def State.acknowledged (h : State) (up : Upload) : State :=
  { h with rx := [], tx := h.tx ++ [0x00] ++ [0x00], control := .awaitData up (payloadLength up.bankCount ramBankSize) 0 0 }

theorem exec_writeRam_uploaded {s h : State} {d : Descriptor} {k : Nat} {v : Variant} {b0 b1 b2 b3 : Byte}
    {data more : List Byte} (hs : s.Drains) (hd : Described s.params.cmdId.writeRam s h d)
    (check : ramCheck d = .passed v (k + 1)) (hx : s.rx = b0 :: b1 :: b2 :: b3 :: (data ++ more))
    (hlen : hostLength b0 b1 b2 b3 = payloadLength (k + 1) ramBankSize) (hl : data.length = (k + 1) * 8192) :
    ∃ w, exec .writeRam s = .next { endCommand w with rx := more } ∧ LastBank (fun i => data.getD (8192 * k + i) 0) w ∧
      Uploaded (h.acknowledged ⟨v, k + 1⟩) w data (uploadEvents s.params v data (k + 1))
        ((k + 1) * (ramBankSettles v + 8192 * 82)) := by
  have drains := hd.drains hs
  have length := take_wholeLength (s := { h with tx := h.tx ++ [0x00], control := .awaitLength ⟨v, k + 1⟩ [] }) drains rfl hlen
    (data ++ more)
  have answer : exec .writeRam s = .next (takeBytes (data ++ more) (h.acknowledged ⟨v, k + 1⟩)) := by
    rw [exec_writeRam_acknowledged hs hd check, hx, length]
    rfl
  obtain ⟨w, uploaded, last, taken⟩ :=
    take_upload (s := h.acknowledged ⟨v, k + 1⟩) (up := ⟨v, k + 1⟩) drains rfl more rfl hl
  have params : (h.acknowledged ⟨v, k + 1⟩).params = s.params := hd.fields.params
  rw [BanksUploaded, params, List.take_of_length_le (by omega)] at uploaded
  rw [taken] at answer
  exact ⟨w, answer, last, uploaded⟩

/-- Settles O49: the length is the one asked for, so RX holds every bank, and the last of them ends the command. -/
theorem writeRamCommitsEveryBank : Obligations.WriteRamCommitsEveryBank := by
  unfold Obligations.WriteRamCommitsEveryBank
  intro s h d n v b0 b1 b2 b3 data more hs hd h0 h1 hb hv hx hsum hl
  have check := ramCheck_of_served h0 h1 hb hv
  have fields := hd.fields
  obtain ⟨k, rfl⟩ : ∃ k, n = k + 1 :=
    ⟨n - 1, by have := ReadKind.counts_pos (ram_counts (hd.eq.2 ▸ check)); omega⟩
  obtain ⟨w, answer, last, bus, quiet, beyond⟩ := exec_writeRam_uploaded hs hd check hx (hostLength_eq_payload hsum) hl
  have same := bus.same
  have latched := last.latched
  rw [show 8192 * k + 8191 = (k + 1) * 8192 - 1 by omega] at latched
  refine ⟨_, _, answer, rfl, ?_, rfl, rfl, rfl, rfl, rfl, ?_, bus.events, bus.cart, bus.breach, fun i => ?_,
    ⟨latched.asr, latched.alat, latched.dsr, latched.dlat⟩, quiet.isr, quiet.draws, bus.settles,
    same.params.trans fields.params, same.reportBuf.trans fields.reportBuf, same.pending.trans fields.pending,
    same.bench.trans fields.bench, same.txDrained.trans fields.txDrained, same.txSpace.trans (hd.drains hs),
    bus.contention.trans fields.contention⟩
  · refine same.tx.trans ?_
    rw [State.echoed, State.acknowledged, fields.tx, List.append_assoc s.tx]
    rfl
  · rw [← fields.params]
    exact last.rest.trans (congrArg (fun p : Params => safeBss p.levels) same.params)
  · change w.readBuffer i = _
    split
    · next hi => exact last.buffer i hi
    · next hi => exact beyond i (by omega)

end Sys2Proof.Machine
end

section
/-! PROOFS. Resets (70_reset_and_hazards.md R323, R325): `reset()` of the BusDriver, and what `reset_cartridge` makes of the reference
cartridges with a controller (20_memory.md R96 to R98). -/

namespace Sys2Proof.Machine

/-! ### `reset()` -/

theorem exec_reset {s : State} (hf : s.Free) : exec .reset s = .next s.safeDriven := by
  rw [exec, execReset, begin_free hf.clean hf.idle, driveSafe_eq]

/-- Settles O11: SAFE meets no driver and no edge, whatever BSS was, so the one write moves no register but BSS. -/
theorem resetDrivesSafe : Obligations.ResetDrivesSafe := by
  unfold Obligations.ResetDrivesSafe
  intro s hf
  refine ⟨exec_reset hf, fun hp t ht => ?_⟩
  obtain rfl : s.safeDriven = t := Host.Outcome.next.inj ((exec_reset hf).symm.trans ht)
  have word : gpioWord defaultParams.pos (safeBss defaultParams.levels) = 0x3C40#16 := by decide
  rw [State.gpio, State.safeDriven, hp, word]

/-! ### `reset_cartridge` on the reference cartridges -/

theorem cartridgeReset_cart {s : State} (hp : s.params = defaultParams) (v : Variant) :
    (s.cartridgeReset v).cart = cartAfter s.cart (registerEvents (registerZeros defaultParams v)) := by
  rw [(done_cartridgeReset s v).cart, hp]

/-- The four zero writes on REF-MBC1: 0 in the low bank register reads back as 1 (R96). -/
theorem cartAfter_mbc1Zeros (c : RefMbc1) : cartAfter (.mbc1 c) (registerEvents (registerZeros defaultParams .mbc1)) =
    .mbc1 { c with ramg := 0, bank1 := 1, bank2 := 0, mode := 0 } := by
  simp [registerZeros, defaultParams, Cartridge.accept]

/-- The four zero writes on REF-MBC5: the RAM-bank register drives the motor of a rumble cartridge (R98, R76). -/
theorem cartAfter_mbc5Zeros (c : RefMbc5) : cartAfter (.mbc5 c) (registerEvents (registerZeros defaultParams .mbc5)) =
    .mbc5 { c with ramg := 0, romb0 := 0, romb1 := 0, ramb := 0, motor := if c.rumble then false else c.motor } := by
  simp [registerZeros, defaultParams, Cartridge.accept]

/-- After `reset_cartridge` the cartridge is what the zero writes make of it; where that one shows bank 0 and has its gate closed,
so it stands. -/
theorem exec_resetCartridge_shows {s : State} (hf : s.Free) (hp : s.params = defaultParams) {v : Variant} {c : Cartridge}
    {rom : Memory} (zeroed : cartAfter s.cart (registerEvents (registerZeros defaultParams v)) = c) (shown : c.bankZero = some rom)
    (closed : ∀ a : Addr, 0x8000 ≤ a.toNat → c.answer a true = none) :
    ∃ t, exec (.resetCartridge v) s = .next t ∧ t.cart = c ∧
      (∀ a : Addr, a.toNat < 0x4000 → t.cart.answer a false = some (romByte rom a.toNat)) ∧
      (∀ a : Addr, 0x8000 ≤ a.toNat → t.cart.answer a true = none) := by
  have cart := (cartridgeReset_cart hp v).trans zeroed
  refine ⟨_, exec_resetCartridge hf v, cart, ?_⟩
  rw [cart]
  exact ⟨fun _ ha => Cartridge.answer_bankZero shown ha false, closed⟩

/-- Settles O29: the zero writes close the gate and leave the fixed window on bank 0. -/
theorem resetCartridgeGivesPowerUpState : Obligations.ResetCartridgeGivesPowerUpState := by
  unfold Obligations.ResetCartridgeGivesPowerUpState
  intro s hf hp
  have gate4 : (0 : BitVec 4) ≠ 0xA := by decide
  have gate8 : (0 : BitVec 8) ≠ 0x0A := by decide
  exact ⟨
    fun c hc => exec_resetCartridge_shows hf hp (hc ▸ cartAfter_mbc1Zeros c) rfl fun _ ha => RefMbc1.answer_closed ha true _ gate4,
    fun c hc => exec_resetCartridge_shows hf hp (hc ▸ cartAfter_mbc3Header c) rfl fun _ ha => RefMbc3.answer_closed ha true _ gate4,
    fun c hc => exec_resetCartridge_shows hf hp (hc ▸ cartAfter_mbc5Zeros c) rfl fun _ ha => RefMbc5.answer_closed ha true _ gate8⟩

end Sys2Proof.Machine
end

section
/-! PROOFS. Two drivers on D (60_exceptions.md R296): the drive that puts the second one there records it, and from then on every
operation is a fault. -/

namespace Sys2Proof.Machine

/-! ### A recorded contention -/

section recorded
variable {s : State} (h : s.contention = true)
include h

theorem begin_contended (k : State → Result) : begin s k = .fault .busContention := if_pos h

theorem conclude_contended : conclude s = .fault .busContention := if_pos h

theorem exec_contended (i : Instr) : exec i s = .fault .busContention := by
  obtain ⟨k, e⟩ := exec_begins i s
  rw [e, begin_contended h]

theorem step_contended : step s = .fault .busContention := if_pos h

end recorded

/-! ### The drive that meets a second driver -/

/-- A drive after which both DOUT_OE and RD stand asserted; nothing that follows it clears what it records (R296). -/
theorem run_meets (s : State) (f : OutField) (l : Bool) (ho : (s.bss.set f l).asserted s.params.levels .doutOe = true)
    (hr : (s.bss.set f l).asserted s.params.levels .rd = true) (ms : List Micro) :
    (run (.drive f l :: ms) s).contention = true := by
  have recorded := drive_contention f l s
  rw [ho, hr, Bool.and_self, Bool.or_true] at recorded
  exact run_contention ms _ recorded

/-- The output-enable asserted while RD is. -/
theorem run_assertDoutOe_meets {s : State} (hr : s.asserted .rd = true) {p : Params} (hp : s.params = p) (ms : List Micro) :
    (run (assertLine p .doutOe :: ms) s).contention = true := by
  subst hp
  exact run_meets s .doutOe _ (beq_self_eq_true _) hr ms

/-- A strobe no micro-step of a sequence drives stands as before. -/
theorem run_asserted {f : Strobe} {ms : List Micro} (h : ms.all (Micro.spares f.field) = true) (s : State) :
    (run ms s).asserted f = s.asserted f := by
  rw [State.asserted, Bss.asserted, run_spares _ _ s h, (run_untouched ms s).params]
  rfl

theorem serialWord_append (ser clk latch : OutField) (bit : Nat → Bool) (k : Nat) (tail : List Micro) :
    serialWord ser clk latch bit k tail = serialWord ser clk latch bit k [] ++ tail := by
  simp [serialWord]

theorem serialWord_spares {ser clk latch f : OutField} (hs : ser ≠ f) (hc : clk ≠ f) (hl : latch ≠ f) (bit : Nat → Bool)
    (k : Nat) : (serialWord ser clk latch bit k []).all (Micro.spares f) = true := by
  simp [serialWord, shiftBits_spares hs hc, Micro.spares, hc, hl]

/-! ### Each operation that meets one -/

section meets
variable {s : State}

/-- With RD asserted the output-enable of `shift_out_data` is the second driver (R134). -/
theorem run_shiftOutData_meets (hr : s.asserted .rd = true) (byte : Byte) :
    (run (shiftOutDataSeq s.params byte) s).contention = true := by
  have spared := serialWord_spares (ser := .doutSer) (clk := .doutClk) (latch := .doutLatch) (f := .rd) (by decide) (by decide)
    (by decide) byte.getLsbD 7
  rw [shiftOutDataSeq_eq, serialWord_append, run_append]
  exact run_assertDoutOe_meets ((run_asserted (f := .rd) spared s).trans hr) (run_untouched _ s).params _

/-- So it is in `register_write`, whose address word leaves RD as it stands (R150). -/
theorem run_registerWrite_meets (hr : s.asserted .rd = true) (a : Addr) (d : Byte) :
    (run (registerWriteSeq s.params a d) s).contention = true := by
  have spared : (shiftOutAddressSeq a).all (Micro.spares .rd) = true :=
    serialWord_spares (by decide) (by decide) (by decide) a.getLsbD 15
  rw [registerWriteSeq, run_append, ← (run_untouched (shiftOutAddressSeq a) s).params]
  exact run_shiftOutData_meets ((run_asserted (f := .rd) spared s).trans hr) d

variable (hf : s.Free)
include hf

theorem exec_shiftOutAddress_meets (ho : s.asserted .doutOe = true) (hr : s.asserted .rd = true) (a : Addr) :
    exec (.shiftOutAddress a) s = .fault .busContention := by
  rw [exec, execShiftOutAddress, begin_free hf.clean hf.idle]
  exact conclude_contended (run_meets s .addrSer (a.getLsbD 15) ho hr _)

theorem exec_shiftInData_meets (ho : s.asserted .doutOe = true) (hr : s.asserted .rd = true) :
    exec .shiftInData s = .fault .busContention := by
  rw [exec, execShiftInData, begin_free hf.clean hf.idle]
  exact conclude_contended (run_meets s .dinLoad s.params.levels.dinLoad ho hr _)

theorem exec_shiftOutData_meets (hr : s.asserted .rd = true) (d : Byte) :
    exec (.shiftOutData d) s = .fault .busContention := by
  rw [exec, execShiftOutData, begin_free hf.clean hf.idle, conclude_contended (run_shiftOutData_meets hr d)]

theorem exec_registerWrite_meets (hr : s.asserted .rd = true) (a : Addr) (d : Byte) :
    exec (.registerWrite a d) s = .fault .busContention := by
  rw [exec, execRegisterWrite, begin_free hf.clean hf.idle, conclude_contended (run_registerWrite_meets hr a d)]

/-- With DOUT_OE asserted the RD that opens a read cell is the second driver (R152). -/
theorem exec_readCell_meets (ho : s.asserted .doutOe = true) (a : Addr) : exec (.readCell a) s = .fault .busContention := by
  rw [exec, execReadCell, begin_free hf.clean hf.idle]
  exact conclude_contended (run_meets s .rd s.params.levels.rd ho (beq_self_eq_true _) _)

end meets

/-- Settles O19: the operations differ in the drive at which both drivers stand on D. -/
theorem contentionIsAFault : Obligations.ContentionIsAFault := by
  unfold Obligations.ContentionIsAFault
  refine ⟨fun s hf ho hr => ⟨exec_shiftOutAddress_meets hf ho hr, exec_shiftInData_meets hf ho hr⟩, fun s hf hr => ?_,
    fun s hf ho => exec_readCell_meets hf ho, fun s h => ⟨step_contended h, exec_contended h⟩⟩
  have written := exec_registerWrite_meets hf hr
  exact ⟨exec_shiftOutData_meets hf hr, fun a d => ⟨written a d, (exec_writeCell a d s).trans (written a d)⟩,
    fun i w row => (exec_registerRow row).trans (written w.1 w.2)⟩

end Sys2Proof.Machine
end

section
/-! PROOFS. What commands refuse beside the size codes (60_exceptions.md R285, R286, R288): a type without a module, a length that is
not the one asked for, a type without a clock; and the snapshot `read_rtc` sends where there is one (46_command_protocol.md R248). -/

namespace Sys2Proof.Machine

/-! ### A type without a module (R285) -/

theorem familyCheck_of_unserved {d : Descriptor} (h : servedBy d.family = none) (n : Nat) :
    familyCheck d n = .raised .invalidCartridgeType := by
  rw [familyCheck, moduleOf_eq, h]

theorem romCheck_of_unserved {d : Descriptor} {n : Nat} (hb : d.romBanks = .banks n) (h : servedBy d.family = none) :
    romCheck d = .raised .invalidCartridgeType := by
  rw [romCheck, hb]
  exact familyCheck_of_unserved h n

theorem ramCheck_of_unserved {d : Descriptor} {n : Nat} (hc : ¬ (d.ramSizeCode = 0 ∨ d.ramSizeCode = 1))
    (hb : d.ramBanks = .banks n) (h : servedBy d.family = none) : ramCheck d = .raised .invalidCartridgeType := by
  rw [ramCheck, if_neg hc, hb]
  exact familyCheck_of_unserved h n

/-- Codes 2 to 5 are the codes above 1 that the map has (45_header_parser.md R221). -/
theorem ramBanksOf_of_mem {code : Byte} (low : 2 ≤ code.toNat) (high : code.toNat ≤ 5) : ∃ n, ramBanksOf code = .banks n := by
  have cases : code = 2 ∨ code = 3 ∨ code = 4 ∨ code = 5 := by
    simp only [← BitVec.toNat_inj]
    change code.toNat = 2 ∨ code.toNat = 3 ∨ code.toNat = 4 ∨ code.toNat = 5
    omega
  obtain rfl | rfl | rfl | rfl := cases <;> exact ⟨_, rfl⟩

/-- Settles O43: the count is one the map has, so the family is what the check stops at. -/
theorem unsupportedTypesAreRefused : Obligations.UnsupportedTypesAreRefused := by
  unfold Obligations.UnsupportedTypesAreRefused
  intro c i s h d hs hd hv
  rintro (⟨rfl, rfl, low⟩ | ⟨hi, low, high⟩)
  · have banks : d.romBanks = romBanksOf (h.readBuffer 0x48) := congrArg Descriptor.romBanks hd.eq.2
    exact exec_readRom_raised hs hd (romCheck_of_unserved (banks.trans (romBanksOf_of_le low)) hv)
  · have code : d.ramSizeCode = h.readBuffer 0x49 := congrArg Descriptor.ramSizeCode hd.eq.2
    have banks : d.ramBanks = ramBanksOf (h.readBuffer 0x49) := congrArg Descriptor.ramBanks hd.eq.2
    obtain ⟨n, mapped⟩ := ramBanksOf_of_mem low high
    have hasRam : ¬ (d.ramSizeCode = 0 ∨ d.ramSizeCode = 1) := by
      rw [code]
      rintro (e | e) <;> exact absurd (e ▸ low) (by decide)
    exact exec_ram_raised hs hi hd (ramCheck_of_unserved hasRam (banks.trans mapped) hv)

/-! ### Another length (R286) -/

/-- The counts `write_ram` can ask for keep the length it asks for in 32 bits (30_encoding.md R114). -/
theorem Upload.legal_le {up : Upload} (h : up.legal = true) : up.bankCount ≤ 16 := by
  simp only [Upload.legal, Bool.or_eq_true, beq_iff_eq] at h
  omega

theorem hostLength_ne_payload {b0 b1 b2 b3 : Byte} {n : Nat} (hn : n ≤ 16)
    (h : b0.toNat + 256 * b1.toNat + 65536 * b2.toNat + 16777216 * b3.toNat ≠ n * 8192) :
    hostLength b0 b1 b2 b3 ≠ payloadLength n ramBankSize := by
  intro e
  have length := congrArg BitVec.toNat e
  rw [hostLength_toNat, payloadLength, BitVec.toNat_ofNat, ramBankSize, Nat.mod_eq_of_lt (by omega)] at length
  exact h length

/-- Four length bytes are taken, none echoed, before the length is compared (R110, R247). -/
theorem take_length {s : State} {up : Upload} (hc : s.control = .awaitLength up []) (b0 b1 b2 b3 : Byte) (rest : List Byte) :
    takeBytes (b0 :: b1 :: b2 :: b3 :: rest) s = takeBytes rest
      (lengthReceived up (hostLength b0 b1 b2 b3) { s with rx := [], control := .awaitLength up [b0, b1, b2] }) := by
  have three := take_lengthBytes up [b0, b1, b2] [] s hc (Nat.lt_succ_self 3)
  have asks : (takeBytes [b0, b1, b2] s).control.takes = true := by rw [three]; rfl
  have pieces := ((take_append [b0, b1, b2] (b3 :: rest) s).2 asks).2
  rw [takeBytes_cons asks, three] at pieces
  exact pieces

theorem lengthReceived_other {s : State} (hd : s.Drains) {up : Upload} {len : Length}
    (h : len ≠ payloadLength up.bankCount ramBankSize) : lengthReceived up len s = s.ended [0x15] := by
  rw [lengthReceived, if_neg h, raise_ended hd]
  rfl

/-- Settles O47: the refusal ends the command, which asks for no further byte. -/
theorem writeRamRefusesAnotherLength : Obligations.WriteRamRefusesAnotherLength := by
  unfold Obligations.WriteRamRefusesAnotherLength
  intro s up b0 b1 b2 b3 rest hc hd hl hi hx hsum
  have other := hostLength_ne_payload (Upload.legal_le hl) hsum
  rw [step_held hc (by rw [hi]; rfl) (by rw [hx]; exact List.cons_ne_nil _ _), hx, take_length hi,
    lengthReceived_other (by exact hd) other, takeBytes_stop rfl]
  rfl

/-! ### `read_rtc` (R288) -/

theorem rtcCapable_iff (d : Descriptor) : rtcCapable d = true ↔ d.family = .mbc3 ∧ d.hasRtc = true := by
  rw [rtcCapable, Bool.and_eq_true, decide_eq_true_iff]

/-- Settles O52: the one test of `read_rtc` is the type's, and the snapshot is that of `MBC3.read_rtc`. -/
theorem readRtcSendsTheSnapshot : Obligations.ReadRtcSendsTheSnapshot := by
  unfold Obligations.ReadRtcSendsTheSnapshot
  intro s h d hs hd
  have drains := hd.drains hs
  have answer := exec_readRtc_described hd
  rw [← rtcCapable_iff, hd.eq.2]
  refine ⟨fun incapable => ?_, fun capable => ⟨h.rtcRead, exec_mbc3ReadRtc ⟨hd.fields.contention, hd.fields.control⟩, ?_⟩⟩
  · rw [answer, answerRtc_raised drains (Bool.eq_false_iff.2 incapable)]
  · rw [answer, answerRtc_capable ((done_rtcRead h).same.txSpace.trans drains) capable (run_readRtc h)]

end Sys2Proof.Machine
end
